-- ==== Sys2Proof/Word.lean ====
section
/-! DEFINITION. The word types of the 3201 (R8, R20, R23, R50): bytes, 16-bit operand fields, 32-bit registers and
addresses, 64-bit arithmetic intermediates. -/

namespace Sys2Proof

/-- A byte of memory is 8 bits (R50). -/
abbrev Byte := BitVec 8

/-- The operand field `op16` of bytes 1 and 2 of an instruction (R10, R82). -/
abbrev Half := BitVec 16

/-- A register, the pc and an address are 32 bits (R20, R23, R51). -/
abbrev Word := BitVec 32

/-- The 64-bit unsigned intermediate `r64` of a logic or arithmetic instruction (R30, R130). -/
abbrev Wide := BitVec 64

end Sys2Proof
end

