-- ==== Sys2Proof/Config.lean ====
section
/-! DEFINITION. The implementation parameters of `00_scope.md` R7, as ONE record that is not state (R37). The values this
hardware takes are `Config.system3201`, in Sys2Proof/Decode.lean, beside the two encoding maps. `RESET_REGS`, `RESET_FLAGS`
and `RESET_MEM_FILL`, which R7 calls launch inputs, are fields of `Launch` (Sys2Proof/Machine/Launch.lean). -/

namespace Sys2Proof

/-- The assigned instruction classes of R84, one per assigned opcode byte. -/
inductive OpClass where
  | logic | arith | load | store | ldu | ldl | ori | jump | nop | call | ret | halt
  deriving DecidableEq, Repr

/-- Every class, in the order of R84. -/
def OpClass.all : List OpClass :=
  [.logic, .arith, .load, .store, .ldu, .ldl, .ori, .jump, .nop, .call, .ret, .halt]

/-- The assigned sub-operations of R86. -/
inductive SubOp where
  | and | or | not | xor | shl | shr
  | add | sub | mul | div | mod | cmp
  | ldr | ldm | ldb
  | stm | stb
  | j | jc | jp | jz | js | jnc | jnp | jnz | jns
  deriving DecidableEq, Repr

/-- Every sub-operation, in the order of R86. -/
def SubOp.all : List SubOp :=
  [.and, .or, .not, .xor, .shl, .shr, .add, .sub, .mul, .div, .mod, .cmp, .ldr, .ldm, .ldb, .stm, .stb,
   .j, .jc, .jp, .jz, .js, .jnc, .jnp, .jnz, .jns]

/-- The class a sub-operation belongs to (first column of R86). -/
def SubOp.opClass : SubOp → OpClass
  | .and | .or | .not | .xor | .shl | .shr => .logic
  | .add | .sub | .mul | .div | .mod | .cmp => .arith
  | .ldr | .ldm | .ldb => .load
  | .stm | .stb => .store
  | .j | .jc | .jp | .jz | .js | .jnc | .jnp | .jnz | .jns => .jump

/-- The two values of `UNKNOWN_OP_POLICY` and of `CALLRET_POLICY` (R7, D3, D4). -/
inductive Policy where
  /-- The encoding raises UnimplementedOpcode. -/
  | fault
  /-- The encoding only lets the fetch advance stand. -/
  | nop
  deriving DecidableEq, Repr

/-- The parameters of R7. -/
structure Config where
  /-- `XLEN`: the width of a register and of pc, 32 in every well-formed record, as `Word` has it (R20, R23, log 5). -/
  xlen : Nat
  /-- `NREG`: the number of general registers, 16 in every well-formed record, as `Reg` has it (R20, log 5). -/
  nreg : Nat
  /-- `ILEN`: the number of bytes of an instruction, 4 in every well-formed record, as `encode` has it (R92, log 5). -/
  ilen : Nat
  /-- `MEM_SIZE`: the number of addressable bytes (R50, D5). -/
  memSize : Nat
  /-- `OPCODE_MAP`: the opcode byte of each class (R84, D1). -/
  opcode : OpClass → Byte
  /-- `SUBOP_MAP`: the `op16` value of each sub-operation (R86, D2). -/
  subop : SubOp → Half
  /-- `UNKNOWN_OP_POLICY` (R89, D3). -/
  unknownOpPolicy : Policy
  /-- `CALLRET_POLICY` (R202, R203, D4). -/
  callretPolicy : Policy
  /-- `PARITY_WIDTH`: how many low bits of a result the parity flag counts (R30, D12). -/
  parityWidth : Nat
  /-- `ORG_PASS1_LITERAL` (R242, R271, D22). -/
  orgPass1Literal : Bool
  /-- `ASM_FULL_SET` (R260, D25). -/
  asmFullSet : Bool

end Sys2Proof
end

