-- ==== Sys2Proof/Syntax.lean ====
section
/-! DEFINITION. The decoded instructions: one constructor per row of `spec/opcode_table.json` (R93, R94). A constructor keeps
EVERY field of the word the row does not fix, the ignored ones of R88 too, so that decoding loses no bit. `rT` is the "to"
register (high nibble of byte 3), `rF` the "from" register (low nibble), `imm` the I-form immediate, `op16` the operand field
of an N-form instruction. -/

namespace Sys2Proof

/-- A register index 0..15, for `r0`..`r9`, `ra`..`rf` (R20). -/
abbrev Reg := Fin 16

/-- The engine's instructions (R93). -/
inductive Instr where
  -- LOGIC, R-form; `not`, `shl` and `shr` ignore `rF`
  | and (rT rF : Reg)
  | or (rT rF : Reg)
  | not (rT rF : Reg)
  | xor (rT rF : Reg)
  | shl (rT rF : Reg)
  | shr (rT rF : Reg)
  -- ARITH, R-form
  | add (rT rF : Reg)
  | sub (rT rF : Reg)
  | mul (rT rF : Reg)
  | div (rT rF : Reg)
  | mod (rT rF : Reg)
  | cmp (rT rF : Reg)
  -- LOAD and STORE, R-form
  | ldr (rT rF : Reg)
  | ldm (rT rF : Reg)
  | ldb (rT rF : Reg)
  | stm (rT rF : Reg)
  | stb (rT rF : Reg)
  -- I-form; `rF` is ignored
  | ldu (rT rF : Reg) (imm : Half)
  | ldl (rT rF : Reg) (imm : Half)
  | ori (rT rF : Reg) (imm : Half)
  -- JUMP, J-form; `rF` is ignored
  | j (rT rF : Reg)
  | jc (rT rF : Reg)
  | jp (rT rF : Reg)
  | jz (rT rF : Reg)
  | js (rT rF : Reg)
  | jnc (rT rF : Reg)
  | jnp (rT rF : Reg)
  | jnz (rT rF : Reg)
  | jns (rT rF : Reg)
  -- N-form; every field is ignored
  | nop (op16 : Half) (rT rF : Reg)
  | call (op16 : Half) (rT rF : Reg)
  | ret (op16 : Half) (rT rF : Reg)
  | halt (op16 : Half) (rT rF : Reg)
  deriving DecidableEq, Repr

end Sys2Proof
end

