-- ==== Sys2Proof/WellFormed.lean ====
section
/-! DEFINITION. The checks on terms: `Instr.wellFormed`, the canonical form of an instruction (R93: its ignored fields are
zero, which is what the assembler writes, R262), and `Config.wellFormed`, which parameter records describe a machine. The
fields of `Instr` are bounded by their types, so every term of `Instr` can be encoded, decoded and executed (R88: a decoder
accepts any value in an ignored field); no meaning and no statement about execution asks for `Instr.wellFormed`. -/

namespace Sys2Proof

/-- The canonical encodings: every field that R88 says the instruction ignores is zero (R93). -/
def Instr.wellFormed : Instr → Bool
  | .and _ _ | .or _ _ | .xor _ _ => true
  | .not _ rF | .shl _ rF | .shr _ rF => rF == 0
  | .add _ _ | .sub _ _ | .mul _ _ | .div _ _ | .mod _ _ | .cmp _ _ => true
  | .ldr _ _ | .ldm _ _ | .ldb _ _ | .stm _ _ | .stb _ _ => true
  | .ldu _ rF _ | .ldl _ rF _ | .ori _ rF _ => rF == 0
  | .j _ rF | .jc _ rF | .jp _ rF | .jz _ rF | .js _ rF => rF == 0
  | .jnc _ rF | .jnp _ rF | .jnz _ rF | .jns _ rF => rF == 0
  | .nop op16 rT rF | .call op16 rT rF | .ret op16 rT rF | .halt op16 rT rF => op16 == 0 && rT == 0 && rF == 0

/-- Two classes never share an opcode byte (R94: the rows do not overlap). -/
def Config.opcodesDistinct (c : Config) : Bool :=
  decide (OpClass.all.map c.opcode).Nodup

/-- Two sub-operations of one class never share an `op16` value (R94). -/
def Config.subopsDistinct (c : Config) : Bool :=
  decide (SubOp.all.map fun o => (o.opClass, c.subop o)).Nodup

/-- Every byte has a 32-bit address (R51, R26: `MEM_SIZE <= 2^32`). -/
def Config.memSizeFits (c : Config) : Bool :=
  decide (c.memSize ≤ 2 ^ 32)

/-- `PARITY_WIDTH` is 32, with 8 as its alternative (R7). -/
def Config.parityWidthListed (c : Config) : Bool :=
  c.parityWidth == 32 || c.parityWidth == 8

/-- `XLEN`, `NREG` and `ILEN` have the one value R7 gives each; it names no alternative, and the 32-bit arithmetic of R8, the
nibbles of the selector byte and the four bytes of R82 rest on these values. -/
def Config.widthsListed (c : Config) : Bool :=
  c.xlen == 32 && c.nreg == 16 && c.ilen == 4

/-- The parameter records that describe a machine. -/
def Config.wellFormed (c : Config) : Bool :=
  c.opcodesDistinct && c.subopsDistinct && c.memSizeFits && c.parityWidthListed && c.widthsListed

end Sys2Proof
end

