-- ==== Sys2Proof/Decode.lean ====
section
/-! DEFINITION. The encoding tables of `30_encoding.md` (R84, R86), the parameter values this hardware takes (R7), the total
decoder, and the encoder written from the same tables (R2: "derive from the identical table"). -/

namespace Sys2Proof

/-! ### The encoding tables and the hardware's parameter values -/

/-- `OPCODE_MAP` of this hardware: the table of R84. -/
def opcodeMap : OpClass → Byte
  | .logic => 0x00
  | .arith => 0x01
  | .load => 0x02
  | .store => 0x03
  | .ldu => 0x04
  | .ldl => 0x05
  | .ori => 0x06
  | .jump => 0x07
  | .nop => 0x08
  | .call => 0x09
  | .ret => 0x0A
  | .halt => 0xFF

/-- `SUBOP_MAP` of this hardware: the table of R86. -/
def subopMap : SubOp → Half
  | .and => 0
  | .or => 1
  | .not => 2
  | .xor => 3
  | .shl => 4
  | .shr => 5
  | .add => 0
  | .sub => 1
  | .mul => 2
  | .div => 3
  | .mod => 4
  | .cmp => 5
  | .ldr => 0
  | .ldm => 1
  | .ldb => 2
  | .stm => 1
  | .stb => 2
  | .j => 0
  | .jc => 1
  | .jp => 2
  | .jz => 3
  | .js => 4
  | .jnc => 5
  | .jnp => 6
  | .jnz => 7
  | .jns => 8

/-- The parameter values this hardware takes: the value column of R7. -/
def Config.system3201 : Config where
  xlen := 32
  nreg := 16
  ilen := 4
  memSize := 0x100000
  opcode := opcodeMap
  subop := subopMap
  unknownOpPolicy := .fault
  callretPolicy := .nop
  parityWidth := 32
  orgPass1Literal := false
  asmFullSet := false

/-! ### Fields of the instruction word (R82) -/

/-- `to`: the high nibble of the register-selector byte (R82, R88). -/
def toField (sel : Byte) : Reg := ⟨sel.toNat / 16, by have := sel.isLt; omega⟩

/-- `from`: the low nibble of the register-selector byte (R82, R88). -/
def fromField (sel : Byte) : Reg := ⟨sel.toNat % 16, by omega⟩

/-- The register-selector byte `T:F`, that is `16*T + F` (R93). -/
def selByte (rT rF : Reg) : Byte := BitVec.ofNat 8 (16 * rT.val + rF.val)

/-- The low byte of an operand field (R82). -/
def loByte (v : Half) : Byte := BitVec.ofNat 8 (v.toNat % 256)

/-- The high byte of an operand field (R82). -/
def hiByte (v : Half) : Byte := BitVec.ofNat 8 (v.toNat / 256)

/-- The operand field of two bytes, little-endian: `byte1 + 256*byte2` (R53, R85). -/
def halfOfBytes (lo hi : Byte) : Half := BitVec.ofNat 16 (lo.toNat + 256 * hi.toNat)

/-! ### Decoding -/

/-- Why a word is no instruction. -/
inductive DecodeError where
  /-- Fewer than the 4 bytes of R92 are given. Never met by the engine, whose fetch reads 4 bytes or faults (R80). -/
  | truncated
  /-- An opcode byte that R84 lists as unassigned (R89). -/
  | unknownOpcode (opc : Byte) (op16 : Half)
  /-- An R-form or J-form class with an `op16` that R86 does not list (R85, R89). -/
  | unknownSubop (opc : Byte) (op16 : Half)
  deriving DecidableEq, Repr

/-- The class of an opcode byte, if it is assigned (R84). -/
def Config.classOf (c : Config) (opc : Byte) : Option OpClass :=
  OpClass.all.find? fun k => c.opcode k == opc

/-- The sub-operation of a class with the given `op16`, compared as all 16 bits (R85, R86). -/
def Config.subopOf (c : Config) (k : OpClass) (op16 : Half) : Option SubOp :=
  SubOp.all.find? fun o => o.opClass == k && c.subop o == op16

/-- The R-form or J-form instruction of a sub-operation (R86, R93). -/
def SubOp.instr (o : SubOp) (rT rF : Reg) : Instr :=
  match o with
  | .and => .and rT rF
  | .or => .or rT rF
  | .not => .not rT rF
  | .xor => .xor rT rF
  | .shl => .shl rT rF
  | .shr => .shr rT rF
  | .add => .add rT rF
  | .sub => .sub rT rF
  | .mul => .mul rT rF
  | .div => .div rT rF
  | .mod => .mod rT rF
  | .cmp => .cmp rT rF
  | .ldr => .ldr rT rF
  | .ldm => .ldm rT rF
  | .ldb => .ldb rT rF
  | .stm => .stm rT rF
  | .stb => .stb rT rF
  | .j => .j rT rF
  | .jc => .jc rT rF
  | .jp => .jp rT rF
  | .jz => .jz rT rF
  | .js => .js rT rF
  | .jnc => .jnc rT rF
  | .jnp => .jnp rT rF
  | .jnz => .jnz rT rF
  | .jns => .jns rT rF

/-- The rule for an opcode class (R84), selecting on `op16` where the class has sub-operations (R86). -/
def decodeClass (c : Config) (opc : Byte) (op16 : Half) (rT rF : Reg) : OpClass → Except DecodeError Instr
  | .ldu => .ok (.ldu rT rF op16)
  | .ldl => .ok (.ldl rT rF op16)
  | .ori => .ok (.ori rT rF op16)
  | .nop => .ok (.nop op16 rT rF)
  | .call => .ok (.call op16 rT rF)
  | .ret => .ok (.ret op16 rT rF)
  | .halt => .ok (.halt op16 rT rF)
  | .logic => decodeSubop c opc op16 rT rF .logic
  | .arith => decodeSubop c opc op16 rT rF .arith
  | .load => decodeSubop c opc op16 rT rF .load
  | .store => decodeSubop c opc op16 rT rF .store
  | .jump => decodeSubop c opc op16 rT rF .jump
where
  /-- The R-form and J-form classes: an unlisted `op16` is an unknown encoding (R89). -/
  decodeSubop (c : Config) (opc : Byte) (op16 : Half) (rT rF : Reg) (k : OpClass) : Except DecodeError Instr :=
    match c.subopOf k op16 with
    | some o => .ok (o.instr rT rF)
    | none => .error (.unknownSubop opc op16)

/-- Decode the three fetched items of R80: the opcode byte, the operand field and the register-selector byte. -/
def decodeFields (c : Config) (opc : Byte) (op16 : Half) (sel : Byte) : Except DecodeError Instr :=
  match c.classOf opc with
  | some k => decodeClass c opc op16 (toField sel) (fromField sel) k
  | none => .error (.unknownOpcode opc op16)

/-- Decode the instruction at the head of a byte list, and return the bytes after it (R82, R92). -/
def decode (c : Config) : List Byte → Except DecodeError (Instr × List Byte)
  | b0 :: b1 :: b2 :: b3 :: rest =>
    match decodeFields c b0 (halfOfBytes b1 b2) b3 with
    | .ok i => .ok (i, rest)
    | .error e => .error e
  | _ => .error .truncated

/-- Byte `k` of a word, in the little-endian order of R53. -/
def wordByte (w : Word) (k : Nat) : Byte := BitVec.ofNat 8 (w.toNat / 256 ^ k)

/-- The four bytes of a word as memory holds them, the first at the lowest address (R53). -/
def wordBytes (w : Word) : List Byte := [wordByte w 0, wordByte w 1, wordByte w 2, wordByte w 3]

/-- Decode the little-endian word `w` of R82. -/
def decodeWord (c : Config) (w : Word) : Except DecodeError Instr :=
  decodeFields c (wordByte w 0) (halfOfBytes (wordByte w 1) (wordByte w 2)) (wordByte w 3)

/-! ### Encoding -/

/-- The class whose opcode byte an instruction has (R84, R86). -/
def Instr.opClass : Instr → OpClass
  | .and _ _ | .or _ _ | .not _ _ | .xor _ _ | .shl _ _ | .shr _ _ => .logic
  | .add _ _ | .sub _ _ | .mul _ _ | .div _ _ | .mod _ _ | .cmp _ _ => .arith
  | .ldr _ _ | .ldm _ _ | .ldb _ _ => .load
  | .stm _ _ | .stb _ _ => .store
  | .ldu _ _ _ => .ldu
  | .ldl _ _ _ => .ldl
  | .ori _ _ _ => .ori
  | .j _ _ | .jc _ _ | .jp _ _ | .jz _ _ | .js _ _ | .jnc _ _ | .jnp _ _ | .jnz _ _ | .jns _ _ => .jump
  | .nop _ _ _ => .nop
  | .call _ _ _ => .call
  | .ret _ _ _ => .ret
  | .halt _ _ _ => .halt

/-- The operand field of an instruction: its sub-op (R86), its immediate (R87) or, in the N-form, the ignored field. -/
def Instr.op16Field (c : Config) : Instr → Half
  | .and _ _ => c.subop .and
  | .or _ _ => c.subop .or
  | .not _ _ => c.subop .not
  | .xor _ _ => c.subop .xor
  | .shl _ _ => c.subop .shl
  | .shr _ _ => c.subop .shr
  | .add _ _ => c.subop .add
  | .sub _ _ => c.subop .sub
  | .mul _ _ => c.subop .mul
  | .div _ _ => c.subop .div
  | .mod _ _ => c.subop .mod
  | .cmp _ _ => c.subop .cmp
  | .ldr _ _ => c.subop .ldr
  | .ldm _ _ => c.subop .ldm
  | .ldb _ _ => c.subop .ldb
  | .stm _ _ => c.subop .stm
  | .stb _ _ => c.subop .stb
  | .ldu _ _ imm => imm
  | .ldl _ _ imm => imm
  | .ori _ _ imm => imm
  | .j _ _ => c.subop .j
  | .jc _ _ => c.subop .jc
  | .jp _ _ => c.subop .jp
  | .jz _ _ => c.subop .jz
  | .js _ _ => c.subop .js
  | .jnc _ _ => c.subop .jnc
  | .jnp _ _ => c.subop .jnp
  | .jnz _ _ => c.subop .jnz
  | .jns _ _ => c.subop .jns
  | .nop op16 _ _ => op16
  | .call op16 _ _ => op16
  | .ret op16 _ _ => op16
  | .halt op16 _ _ => op16

/-- The "to" and "from" fields of an instruction (R82). -/
def Instr.regFields : Instr → Reg × Reg
  | .and rT rF | .or rT rF | .not rT rF | .xor rT rF | .shl rT rF | .shr rT rF => (rT, rF)
  | .add rT rF | .sub rT rF | .mul rT rF | .div rT rF | .mod rT rF | .cmp rT rF => (rT, rF)
  | .ldr rT rF | .ldm rT rF | .ldb rT rF | .stm rT rF | .stb rT rF => (rT, rF)
  | .ldu rT rF _ | .ldl rT rF _ | .ori rT rF _ => (rT, rF)
  | .j rT rF | .jc rT rF | .jp rT rF | .jz rT rF | .js rT rF => (rT, rF)
  | .jnc rT rF | .jnp rT rF | .jnz rT rF | .jns rT rF => (rT, rF)
  | .nop _ rT rF | .call _ rT rF | .ret _ rT rF | .halt _ rT rF => (rT, rF)

/-- The 4 bytes of an instruction: opcode, operand field low byte first, register selector (R82, R93). -/
def encode (c : Config) (i : Instr) : List Byte :=
  [c.opcode i.opClass, loByte (i.op16Field c), hiByte (i.op16Field c), selByte i.regFields.1 i.regFields.2]

/-- The little-endian word of an instruction (R82). -/
def encodeWord (c : Config) (i : Instr) : Word :=
  BitVec.ofNat 32 ((c.opcode i.opClass).toNat + 2 ^ 8 * (i.op16Field c).toNat
    + 2 ^ 24 * i.regFields.2.val + 2 ^ 28 * i.regFields.1.val)

/-- The "mask" column of `spec/opcode_table.json`: byte 0, plus bytes 1 and 2 in the R-form and J-form (R94). -/
def Instr.tableMask (i : Instr) : Word :=
  match i.opClass with
  | .logic | .arith | .load | .store | .jump => 0x00FFFFFF
  | .ldu | .ldl | .ori | .nop | .call | .ret | .halt => 0x000000FF

/-- The "match" column of `spec/opcode_table.json`, row by row (R94). -/
def Instr.tableMatch : Instr → Word
  | .and _ _ => 0x00000000
  | .or _ _ => 0x00000100
  | .not _ _ => 0x00000200
  | .xor _ _ => 0x00000300
  | .shl _ _ => 0x00000400
  | .shr _ _ => 0x00000500
  | .add _ _ => 0x00000001
  | .sub _ _ => 0x00000101
  | .mul _ _ => 0x00000201
  | .div _ _ => 0x00000301
  | .mod _ _ => 0x00000401
  | .cmp _ _ => 0x00000501
  | .ldr _ _ => 0x00000002
  | .ldm _ _ => 0x00000102
  | .ldb _ _ => 0x00000202
  | .stm _ _ => 0x00000103
  | .stb _ _ => 0x00000203
  | .ldu _ _ _ => 0x00000004
  | .ldl _ _ _ => 0x00000005
  | .ori _ _ _ => 0x00000006
  | .j _ _ => 0x00000007
  | .jc _ _ => 0x00000107
  | .jp _ _ => 0x00000207
  | .jz _ _ => 0x00000307
  | .js _ _ => 0x00000407
  | .jnc _ _ => 0x00000507
  | .jnp _ _ => 0x00000607
  | .jnz _ _ => 0x00000707
  | .jns _ _ => 0x00000807
  | .nop _ _ _ => 0x00000008
  | .call _ _ _ => 0x00000009
  | .ret _ _ _ => 0x0000000A
  | .halt _ _ _ => 0x000000FF

/-- The instruction this hardware's decoder reads from the bits `w` of a table row of `nbits` bits; the bits above `nbits`
are 0. -/
def decodeTableWord (nbits w : Nat) : Option Instr :=
  if nbits ≤ 32 then
    match decode Config.system3201 (wordBytes (BitVec.ofNat 32 (w % 2 ^ nbits))) with
    | .ok (i, _) => some i
    | .error _ => none
  else none

end Sys2Proof
end

