-- ==== Sys2Proof/Machine/State.lean ====
section
/-! DEFINITION. The state of System 3201 CORE, as plain data. The CORE block has two parts (R1): the execution engine, whose
state is the record of R37 (`x`, `flags`, `pc`, `mem`, `run`), and the assembler, whose state is the record of R240 (`asm`).
The engine's step never reads or writes `asm`, and the assembler's step never reads or writes the rest (`10_state.md`,
opening: the assembler's state is not engine state). -/

namespace Sys2Proof.Machine

/-! ### The engine's parts -/

/-- The four status flags, each one bit, 0 or 1 (R27). -/
structure Flags where
  /-- sign -/
  S : Bool
  /-- zero -/
  Z : Bool
  /-- parity -/
  P : Bool
  /-- carry -/
  C : Bool
  deriving DecidableEq, Repr

/-- What kind of access went out of bounds (R301, D39). -/
inductive AccessKind where
  | fetch | read | write
  deriving DecidableEq, Repr

/-- The halt reasons of R300, each with the information R301 records. -/
inductive HaltReason where
  /-- The normal end, by the `halt` instruction (R201). -/
  | halt
  /-- A fetch at a pc that is not a multiple of 4 (R81). -/
  | alignmentFault (pc0 : Word)
  /-- An access of `size` bytes at `addr` that is not inside memory (R52). -/
  | outOfBoundsAccess (pc0 addr : Word) (size : Nat) (kind : AccessKind)
  /-- An unknown encoding under `UNKNOWN_OP_POLICY = Fault`, or call/ret under `CALLRET_POLICY = Fault` (R89, R202, R203). -/
  | unimplementedOpcode (pc0 : Word) (opc : Byte) (op16 : Half)
  deriving DecidableEq, Repr

/-- The run state: "exactly two states, Running and Halted", Halted with its reason (R32). -/
inductive RunState where
  | running
  | halted (reason : HaltReason)
  deriving DecidableEq, Repr

/-- Memory, `Fin MEM_SIZE -> UInt8` of R37, held as a list of (address, byte) cells: addresses strictly rising, no cell equal
to what an unlisted address reads as (`Memory.wf` and `Memory.unlisted` of Sys2Proof/Machine/Ops.lean). -/
abbrev Memory := List Host.Cell

/-! ### The assembler's parts -/

/-- The assembler's errors (R268). -/
inductive AsmError where
  | malformedLabel | missingSeparator | trailingCharacters | unexpectedCharacter
  | duplicateLabel | locationCounterOverflow | misalignedOrg
  | badArgument | badRegister | badImmediate | immediateOutOfRange
  | unknownMnemonic | undefinedLabel
  deriving DecidableEq, Repr

/-- The assembler's phase (R240). -/
inductive AsmPhase where
  | pass1
  | pass2
  | done
  | failed (line : Nat) (kind : AsmError)
  deriving DecidableEq, Repr

/-- The markers of the status stream (R220, R249): "Pass 1" and "Pass 2". -/
inductive StatusMarker where
  | pass1 | pass2
  deriving DecidableEq, Repr

/-- The assembler's state (R240), with its input and its status output beside it. -/
structure AsmState where
  /-- The input: the source text, split into lines (R220, R221). -/
  lines : List (List Char)
  phase : AsmPhase
  /-- The number of the next line to process, from 1. -/
  line : Nat
  /-- The location counter; a number, since it can reach 2^32 (log 4). -/
  lc : Nat
  /-- The label table, name to address; no rule depends on the order of its entries (R240). -/
  labels : List (List Char × Nat)
  /-- The bytes emitted so far, in pass 2 only. -/
  out : List Byte
  /-- The status stream: the markers written so far, oldest first (R220, R249). -/
  status : List StatusMarker
  deriving DecidableEq, Repr

/-! ### The state -/

/-- The state of the CORE block. -/
structure State where
  /-- The general registers r0..rf (R20). -/
  x : Vector Word 16
  /-- The status flags (R27). -/
  flags : Flags
  /-- The program counter (R23). -/
  pc : Word
  /-- The byte memory (R50). -/
  mem : Memory
  /-- The run state with its halt reason (R32). -/
  run : RunState
  /-- The assembler (R240). -/
  asm : AsmState
  deriving DecidableEq, Repr

/-- There is no fault outside the state: every fault of R301 ENTERS the Halted run state, a next state that holds the reason
(R302), so no step raises one of these and the type has no constructor. -/
inductive Fault where
  deriving DecidableEq, Repr

/-- What the model declines. Neither constructor is ever an answer of `step` or of `exec`. -/
inductive Refusal where
  /-- An instruction without a meaning; raised by refused arms of `exec` only, and there is none. Safe. -/
  | notModelled (mnemonic : String)
  /-- A launch with an image longer than memory: "the launch is refused and no run starts" (R331, D28). Raised by `launchUnder`
  only. Safe: it is the spec's own outcome. -/
  | imageLongerThanMemory
  deriving DecidableEq, Repr

/-- An outcome of the machine. -/
abbrev Result := Host.Outcome State Fault Refusal

/-- The assembler before a source is given: the start state of R241 with the empty source, "Pass 1" written. -/
def AsmState.reset : AsmState where
  lines := []
  phase := .pass1
  line := 1
  lc := 0
  labels := []
  out := []
  status := [.pass1]

/-- The state after reset (R330): pc 0, Running. The registers, the flags and the memory bytes are launch inputs that the spec
leaves unconstrained; this one state takes zero for each (DESIGN CHOICE, log 1 and log 2), and `launchUnder`
(Sys2Proof/Machine/Launch.lean) takes them as inputs, with the image. -/
def State.reset : State where
  x := Vector.replicate 16 0
  flags := { S := false, Z := false, P := false, C := false }
  pc := 0
  mem := []
  run := .running
  asm := AsmState.reset

end Sys2Proof.Machine
end

