-- ==== Sys2Proof/Machine/Flags.lean ====
section
/-! DEFINITION. The flag computations of R30. -/

namespace Sys2Proof.Machine

/-- `u64(v)`: zero-extension to 64 bits (R8). -/
def u64 (v : Word) : Wide := v.zeroExtend 64

/-- `trunc32(v)`: `v mod 2^32` (R8). -/
def trunc32 (v : Wide) : Word := v.truncate 32

/-- How many of the `n` low bits of `v` are set. -/
def popcount (v : Word) : Nat → Nat
  | 0 => 0
  | n + 1 => (v.getLsbD n).toNat + popcount v n

/-- S, Z and P of a truncated result, with the carry given (R30; the right shift gives its own carry, R115). -/
def flagsOf (c : Config) (r : Word) (carry : Bool) : Flags where
  S := r.getLsbD 31
  Z := r == 0
  P := popcount r c.parityWidth % 2 == 0
  C := carry

/-- `SetFlags(r64)`: carry is the 64-bit test `r64 > 0xFFFFFFFF` (R30). -/
def flagsOf64 (c : Config) (r64 : Wide) : Flags :=
  flagsOf c (trunc32 r64) (decide (r64.toNat > 0xFFFFFFFF))

end Sys2Proof.Machine
end

