-- ==== Sys2Proof/Machine/Ops.lean ====
section
/-! DEFINITION. The named operations over memory, registers and the run state: the primitives of R9. -/

namespace Sys2Proof.Machine

/-! ### Memory as a list of cells -/

/-- What an address that no cell lists reads as: 0. A convention of the representation, not of the hardware: every byte of
memory, the reset fill of R331 too, can be listed (log 2). -/
def Memory.unlisted (_a : Nat) : Byte := 0

/-- The byte at address `a`. -/
def Memory.read : Memory → Nat → Byte
  | [], a => Memory.unlisted a
  | (k, b) :: m, a => if k = a then b else Memory.read m a

/-- Put the cell `(a, b)` before `m`, unless that is what an unlisted address reads as. -/
def Memory.cons (a : Nat) (b : Byte) (m : Memory) : Memory :=
  if b = Memory.unlisted a then m else (a, b) :: m

/-- Write byte `b` at address `a`, keeping the canonical form. -/
def Memory.write : Memory → Nat → Byte → Memory
  | [], a, b => Memory.cons a b []
  | (k, v) :: m, a, b =>
    if a < k then Memory.cons a b ((k, v) :: m)
    else if a = k then Memory.cons a b m
    else (k, v) :: Memory.write m a b

/-- The canonical form: addresses strictly rising, no cell equal to what an unlisted address reads as. -/
def Memory.wf : Memory → Bool
  | [] => true
  | (a, b) :: m => b != Memory.unlisted a && m.all (fun cell => decide (a < cell.1)) && Memory.wf m

/-- Every listed address is below `n` (R50: the addresses are 0 to `MEM_SIZE - 1`). -/
def Memory.below (m : Memory) (n : Nat) : Bool :=
  m.all fun cell => decide (cell.1 < n)

/-- The `n` bytes at `a`..`a+n-1` as a little-endian number (R9, R53). -/
def Memory.readLE (m : Memory) (a : Nat) : Nat → Nat
  | 0 => 0
  | n + 1 => (m.read a).toNat + 256 * Memory.readLE m (a + 1) n

/-- Write the low `n` bytes of `v` to `a`..`a+n-1`, little-endian (R9, R53). -/
def Memory.writeLE (m : Memory) (a : Nat) : Nat → Nat → Memory
  | 0, _ => m
  | n + 1, v => Memory.writeLE (m.write a (BitVec.ofNat 8 (v % 256))) (a + 1) n (v / 256)

/-- Lay bytes into memory from address `a` upward (R59, R331). -/
def Memory.load (m : Memory) (a : Nat) : List Byte → Memory
  | [] => m
  | b :: bs => Memory.load (m.write a b) (a + 1) bs

/-! ### The bounds-checked accesses (R9, R52) -/

/-- An `n`-byte access at `a` is in bounds iff `a + n <= MEM_SIZE`, over the integers (R52, D6). -/
def inBounds (c : Config) (a n : Nat) : Bool := decide (a + n ≤ c.memSize)

/-- `MemRead(a, n)`; `none` where it raises OutOfBoundsAccess (R9). -/
def memRead (c : Config) (m : Memory) (a n : Nat) : Option Nat :=
  if inBounds c a n then some (m.readLE a n) else none

/-- `MemWrite(a, n, v)`; `none` where it raises OutOfBoundsAccess, and then no byte is written (R9, R52). -/
def memWrite (c : Config) (m : Memory) (a n v : Nat) : Option Memory :=
  if inBounds c a n then some (m.writeLE a n v) else none

/-! ### Registers and pc -/

/-- `x[i]` (R9, R22). -/
def State.reg (s : State) (i : Reg) : Word := s.x[i]

/-- `x[i] <- v`: all 32 bits; no register is hardwired (R20, R22). -/
def State.setReg (s : State) (i : Reg) (v : Word) : State := { s with x := s.x.set i v }

/-- `pc <- t` (R9). -/
def State.setPc (s : State) (t : Word) : State := { s with pc := t }

/-- `pc0`, the address of the instruction being executed, seen from dispatch, where `pc = pc0 + 4` (R10, R24). -/
def State.pc0 (s : State) : Word := s.pc - 4

/-! ### Faults and halting -/

/-- `raise F(info)`, and the halt of R201: the run state becomes Halted with the reason, the step ends, and pc, registers,
flags and memory keep the values they have (R302, R303). There is no handler and no return (R307). -/
def State.raise (s : State) (r : HaltReason) : State := { s with run := .halted r }

/-- An unknown encoding (R89, R204), met when `pc = pc0 + 4`. -/
def unknownEncoding (c : Config) (opc : Byte) (op16 : Half) (s : State) : Result :=
  match c.unknownOpPolicy with
  | .fault => .next (s.raise (.unimplementedOpcode s.pc0 opc op16))
  | .nop => .next s

/-- The halted states. -/
def RunState.isHalted : RunState → Bool
  | .running => false
  | .halted _ => true

end Sys2Proof.Machine
end

