-- ==== Sys2Proof/Machine/Operands.lean ====
section
/-! DEFINITION. The operand forms: register results with flags, the one addressing mode (R150), the jump shape (R180). -/

namespace Sys2Proof.Machine

/-- `SetFlags(r64)` on the state (R9, R30). -/
def State.setFlags (c : Config) (s : State) (r64 : Wide) : State := { s with flags := flagsOf64 c r64 }

/-- `x[T] <- trunc32(r64); SetFlags(r64)`: the shape of every logic and arithmetic instruction but `shr` and `cmp`. -/
def State.aluResult (c : Config) (s : State) (rT : Reg) (r64 : Wide) : State :=
  (s.setReg rT (trunc32 r64)).setFlags c r64

/-- `u64(x[i])`: an arithmetic operand, zero-extended (R130). -/
def State.operand (s : State) (i : Reg) : Wide := u64 (s.reg i)

/-- The effective address: the whole value of one register, no offset, no scaling (R150). -/
def State.effectiveAddress (s : State) (i : Reg) : Word := s.reg i

/-- `a <- x[F]; v <- MemRead(a, n); x[T] <- v`, or OutOfBoundsAccess(pc0, a, n) with x[T] not written (R152, R153). -/
def State.loadInto (c : Config) (s : State) (rT rF : Reg) (n : Nat) : State :=
  match memRead c s.mem (s.effectiveAddress rF).toNat n with
  | some v => s.setReg rT (BitVec.ofNat 32 v)
  | none => s.raise (.outOfBoundsAccess s.pc0 (s.effectiveAddress rF) n .read)

/-- `a <- x[T]; MemWrite(a, n, x[F])`, or OutOfBoundsAccess(pc0, a, n) with no byte written (R154, R155). -/
def State.storeFrom (c : Config) (s : State) (rT rF : Reg) (n : Nat) : State :=
  match memWrite c s.mem (s.effectiveAddress rT).toNat n (s.reg rF).toNat with
  | some m => { s with mem := m }
  | none => s.raise (.outOfBoundsAccess s.pc0 (s.effectiveAddress rT) n .write)

/-- The shape every jump shares: `if cond: pc <- x[T]`, else pc keeps the fetch advance; the target is not checked (R180). -/
def State.jumpIf (s : State) (cond : Bool) (rT : Reg) : State :=
  if cond then s.setPc (s.reg rT) else s

end Sys2Proof.Machine
end

