-- ==== Sys2Proof/Machine/Arith.lean ====
section
/-! DEFINITION. The arithmetic instructions (`41_arithmetic.md`): unsigned, on 64-bit intermediates of zero-extended operands,
the destination the left operand (R130). -/

namespace Sys2Proof.Machine

/-- R131 -/
def addUnder (c : Config) (rT rF : Reg) (s : State) : Result :=
  .next (s.aluResult c rT (s.operand rT + s.operand rF))

/-- R131 `add T, F` -/
def execAdd (rT rF : Reg) (s : State) : Result := addUnder Config.system3201 rT rF s

/-- R132: the difference modulo 2^64 -/
def subUnder (c : Config) (rT rF : Reg) (s : State) : Result :=
  .next (s.aluResult c rT (s.operand rT - s.operand rF))

/-- R132 `sub T, F` -/
def execSub (rT rF : Reg) (s : State) : Result := subUnder Config.system3201 rT rF s

/-- R133: the full product fits 64 bits; the register gets its low half -/
def mulUnder (c : Config) (rT rF : Reg) (s : State) : Result :=
  .next (s.aluResult c rT (s.operand rT * s.operand rF))

/-- R133 `mul T, F` -/
def execMul (rT rF : Reg) (s : State) : Result := mulUnder Config.system3201 rT rF s

/-- R134: division by zero yields 0, no fault -/
def divUnder (c : Config) (rT rF : Reg) (s : State) : Result :=
  .next (s.aluResult c rT (if s.reg rF = 0 then 0 else s.operand rT / s.operand rF))

/-- R134 `div T, F` -/
def execDiv (rT rF : Reg) (s : State) : Result := divUnder Config.system3201 rT rF s

/-- R135: the remainder of a division by zero is 0, not the dividend -/
def modUnder (c : Config) (rT rF : Reg) (s : State) : Result :=
  .next (s.aluResult c rT (if s.reg rF = 0 then 0 else s.operand rT % s.operand rF))

/-- R135 `mod T, F` -/
def execMod (rT rF : Reg) (s : State) : Result := modUnder Config.system3201 rT rF s

/-- R136: the flags of `sub`, no register written -/
def cmpUnder (c : Config) (rT rF : Reg) (s : State) : Result :=
  .next (s.setFlags c (s.operand rT - s.operand rF))

/-- R136 `cmp T, F` -/
def execCmp (rT rF : Reg) (s : State) : Result := cmpUnder Config.system3201 rT rF s

end Sys2Proof.Machine
end

