-- ==== Sys2Proof/Machine/Control.lean ====
section
/-! DEFINITION. The control instructions (`45_control.md`). -/

namespace Sys2Proof.Machine

/-- R200 `nop`: nothing but the fetch advance -/
def execNop (s : State) : Result := .next s

/-- R201 `halt`: `run <- Halted(Halt)`, pc stays `pc0 + 4` -/
def execHalt (s : State) : Result := .next (s.raise .halt)

/-- The reserved instructions by `CALLRET_POLICY`: no action, or UnimplementedOpcode(pc0, opc, op16) (R202, R203). -/
def reservedUnder (c : Config) (k : OpClass) (op16 : Half) (s : State) : Result :=
  match c.callretPolicy with
  | .nop => .next s
  | .fault => .next (s.raise (.unimplementedOpcode s.pc0 (c.opcode k) op16))

/-- R202 -/
def callUnder (c : Config) (op16 : Half) (s : State) : Result := reservedUnder c .call op16 s

/-- R202 `call` -/
def execCall (op16 : Half) (s : State) : Result := callUnder Config.system3201 op16 s

/-- R203 -/
def retUnder (c : Config) (op16 : Half) (s : State) : Result := reservedUnder c .ret op16 s

/-- R203 `ret` -/
def execRet (op16 : Half) (s : State) : Result := retUnder Config.system3201 op16 s

end Sys2Proof.Machine
end

