-- ==== Sys2Proof/Machine/Immediate.lean ====
section
/-! DEFINITION. The immediate instructions (`43_immediate.md`). None writes a flag, none depends on a parameter; the immediate
is never sign-extended (R87). -/

namespace Sys2Proof.Machine

/-- R170 `ldu T, imm`: `x[T] <- imm16 << 16` -/
def execLdu (rT : Reg) (imm : Half) (s : State) : Result := .next (s.setReg rT (imm.zeroExtend 32 <<< 16))

/-- R171 `ldl T, imm`: `x[T] <- zext_32(imm16)` -/
def execLdl (rT : Reg) (imm : Half) (s : State) : Result := .next (s.setReg rT (imm.zeroExtend 32))

/-- R172 `ori T, imm`: `x[T] <- x[T] OR zext_32(imm16)` -/
def execOri (rT : Reg) (imm : Half) (s : State) : Result := .next (s.setReg rT (s.reg rT ||| imm.zeroExtend 32))

end Sys2Proof.Machine
end

