-- ==== Sys2Proof/Machine/Jump.lean ====
section
/-! DEFINITION. The jump instructions (`44_jump.md`): absolute, the target in `to`, no flag side effect, no link, no delay slot;
none depends on a parameter. -/

namespace Sys2Proof.Machine

/-- R181 `j T`: always -/
def execJ (rT : Reg) (s : State) : Result := .next (s.jumpIf true rT)

/-- R182 `jc T`: carry set -/
def execJc (rT : Reg) (s : State) : Result := .next (s.jumpIf s.flags.C rT)

/-- R183 `jp T`: parity set -/
def execJp (rT : Reg) (s : State) : Result := .next (s.jumpIf s.flags.P rT)

/-- R184 `jz T`: zero set -/
def execJz (rT : Reg) (s : State) : Result := .next (s.jumpIf s.flags.Z rT)

/-- R185 `js T`: sign set -/
def execJs (rT : Reg) (s : State) : Result := .next (s.jumpIf s.flags.S rT)

/-- R186 `jnc T`: carry clear -/
def execJnc (rT : Reg) (s : State) : Result := .next (s.jumpIf (!s.flags.C) rT)

/-- R187 `jnp T`: parity clear -/
def execJnp (rT : Reg) (s : State) : Result := .next (s.jumpIf (!s.flags.P) rT)

/-- R188 `jnz T`: zero clear -/
def execJnz (rT : Reg) (s : State) : Result := .next (s.jumpIf (!s.flags.Z) rT)

/-- R189 `jns T`: sign clear -/
def execJns (rT : Reg) (s : State) : Result := .next (s.jumpIf (!s.flags.S) rT)

end Sys2Proof.Machine
end

