-- ==== Sys2Proof/Machine/LoadStore.lean ====
section
/-! DEFINITION. The load and store instructions (`42_load_store.md`): loads take the address from `from`, stores from `to`
(R150). None writes a flag. -/

namespace Sys2Proof.Machine

/-- R151 `ldr T, F` -/
def ldrUnder (_c : Config) (rT rF : Reg) (s : State) : Result := .next (s.setReg rT (s.reg rF))

/-- R151 `ldr T, F` -/
def execLdr (rT rF : Reg) (s : State) : Result := ldrUnder Config.system3201 rT rF s

/-- R152 -/
def ldmUnder (c : Config) (rT rF : Reg) (s : State) : Result := .next (s.loadInto c rT rF 4)

/-- R152 `ldm T, F` -/
def execLdm (rT rF : Reg) (s : State) : Result := ldmUnder Config.system3201 rT rF s

/-- R153: zero-extended -/
def ldbUnder (c : Config) (rT rF : Reg) (s : State) : Result := .next (s.loadInto c rT rF 1)

/-- R153 `ldb T, F` -/
def execLdb (rT rF : Reg) (s : State) : Result := ldbUnder Config.system3201 rT rF s

/-- R154 -/
def stmUnder (c : Config) (rT rF : Reg) (s : State) : Result := .next (s.storeFrom c rT rF 4)

/-- R154 `stm T, F` -/
def execStm (rT rF : Reg) (s : State) : Result := stmUnder Config.system3201 rT rF s

/-- R155: the low byte of x[F] -/
def stbUnder (c : Config) (rT rF : Reg) (s : State) : Result := .next (s.storeFrom c rT rF 1)

/-- R155 `stb T, F` -/
def execStb (rT rF : Reg) (s : State) : Result := stbUnder Config.system3201 rT rF s

end Sys2Proof.Machine
end

