-- ==== Sys2Proof/Machine/Logic.lean ====
section
/-! DEFINITION. The logic instructions (`40_logic.md`), each under every parameter record and, for the dispatch, under this
hardware's. -/

namespace Sys2Proof.Machine

/-- R110 -/
def andUnder (c : Config) (rT rF : Reg) (s : State) : Result :=
  .next (s.aluResult c rT (u64 (s.reg rT &&& s.reg rF)))

/-- R110 `and T, F` -/
def execAnd (rT rF : Reg) (s : State) : Result := andUnder Config.system3201 rT rF s

/-- R111 -/
def orUnder (c : Config) (rT rF : Reg) (s : State) : Result :=
  .next (s.aluResult c rT (u64 (s.reg rT ||| s.reg rF)))

/-- R111 `or T, F` -/
def execOr (rT rF : Reg) (s : State) : Result := orUnder Config.system3201 rT rF s

/-- R112: over 32 bits; `from` is ignored -/
def notUnder (c : Config) (rT : Reg) (s : State) : Result :=
  .next (s.aluResult c rT (u64 (~~~ s.reg rT)))

/-- R112 `not T` -/
def execNot (rT : Reg) (s : State) : Result := notUnder Config.system3201 rT s

/-- R113 -/
def xorUnder (c : Config) (rT rF : Reg) (s : State) : Result :=
  .next (s.aluResult c rT (u64 (s.reg rT ^^^ s.reg rF)))

/-- R113 `xor T, F` -/
def execXor (rT rF : Reg) (s : State) : Result := xorUnder Config.system3201 rT rF s

/-- R114: the bit shifted out of bit 31 is bit 32 of the 64-bit intermediate -/
def shlUnder (c : Config) (rT : Reg) (s : State) : Result :=
  .next (s.aluResult c rT (s.operand rT <<< 1))

/-- R114 `shl T` -/
def execShl (rT : Reg) (s : State) : Result := shlUnder Config.system3201 rT s

/-- R115: a logical shift whose carry is the old bit 0, not the 64-bit test -/
def shrUnder (c : Config) (rT : Reg) (s : State) : Result :=
  .next { s.setReg rT (s.reg rT >>> 1) with flags := flagsOf c (s.reg rT >>> 1) ((s.reg rT).getLsbD 0) }

/-- R115 `shr T` -/
def execShr (rT : Reg) (s : State) : Result := shrUnder Config.system3201 rT s

end Sys2Proof.Machine
end

