-- ==== Sys2Proof/Machine/Dispatch.lean ====
section
/-! DEFINITION. `execute` of R80: one meaning per instruction, under this hardware's parameter values. -/

namespace Sys2Proof.Machine

def exec (i : Instr) (s : State) : Host.Outcome State Fault Refusal :=
  match i with
  | .and rT rF => Sys2Proof.Machine.execAnd rT rF s
  | .or rT rF => Sys2Proof.Machine.execOr rT rF s
  | .not rT _ => Sys2Proof.Machine.execNot rT s
  | .xor rT rF => Sys2Proof.Machine.execXor rT rF s
  | .shl rT _ => Sys2Proof.Machine.execShl rT s
  | .shr rT _ => Sys2Proof.Machine.execShr rT s
  | .add rT rF => Sys2Proof.Machine.execAdd rT rF s
  | .sub rT rF => Sys2Proof.Machine.execSub rT rF s
  | .mul rT rF => Sys2Proof.Machine.execMul rT rF s
  | .div rT rF => Sys2Proof.Machine.execDiv rT rF s
  | .mod rT rF => Sys2Proof.Machine.execMod rT rF s
  | .cmp rT rF => Sys2Proof.Machine.execCmp rT rF s
  | .ldr rT rF => Sys2Proof.Machine.execLdr rT rF s
  | .ldm rT rF => Sys2Proof.Machine.execLdm rT rF s
  | .ldb rT rF => Sys2Proof.Machine.execLdb rT rF s
  | .stm rT rF => Sys2Proof.Machine.execStm rT rF s
  | .stb rT rF => Sys2Proof.Machine.execStb rT rF s
  | .ldu rT _ imm => Sys2Proof.Machine.execLdu rT imm s
  | .ldl rT _ imm => Sys2Proof.Machine.execLdl rT imm s
  | .ori rT _ imm => Sys2Proof.Machine.execOri rT imm s
  | .j rT _ => Sys2Proof.Machine.execJ rT s
  | .jc rT _ => Sys2Proof.Machine.execJc rT s
  | .jp rT _ => Sys2Proof.Machine.execJp rT s
  | .jz rT _ => Sys2Proof.Machine.execJz rT s
  | .js rT _ => Sys2Proof.Machine.execJs rT s
  | .jnc rT _ => Sys2Proof.Machine.execJnc rT s
  | .jnp rT _ => Sys2Proof.Machine.execJnp rT s
  | .jnz rT _ => Sys2Proof.Machine.execJnz rT s
  | .jns rT _ => Sys2Proof.Machine.execJns rT s
  | .nop _ _ _ => Sys2Proof.Machine.execNop s
  | .call op16 _ _ => Sys2Proof.Machine.execCall op16 s
  | .ret op16 _ _ => Sys2Proof.Machine.execRet op16 s
  | .halt _ _ _ => Sys2Proof.Machine.execHalt s

end Sys2Proof.Machine
end

