-- ==== Sys2Proof/Machine/Fetch.lean ====
section
/-! DEFINITION. The step of R80, as a function of the parameters and of the rule `execute`: the fetch with its checks in
order, the decode, the dispatch. -/

namespace Sys2Proof.Machine

/-- What the fetch of a step gives. -/
inductive Fetched where
  /-- A check failed: the step ends in this state. -/
  | stopped (s : State)
  /-- The opcode byte, the operand field and the selector byte, with `pc = pc0 + 4`. -/
  | word (opc : Byte) (op16 : Half) (sel : Byte) (s : State)

/-- Items 1 to 4 of R80 (R55): opcode byte, alignment guard, operand field, selector byte; pc moves by 1, 2 and 1 (R24). -/
def fetch (c : Config) (s : State) : Fetched :=
  match memRead c s.mem s.pc.toNat 1 with
  | none => .stopped (s.raise (.outOfBoundsAccess s.pc s.pc 1 .fetch))
  | some opc =>
    if s.pc.toNat % 4 ≠ 0 then
      .stopped ((s.setPc (s.pc + 1)).raise (.alignmentFault s.pc))
    else
      match memRead c s.mem (s.pc.toNat + 1) 2 with
      | none => .stopped ((s.setPc (s.pc + 1)).raise (.outOfBoundsAccess s.pc (s.pc + 1) 2 .fetch))
      | some op16 =>
        match memRead c s.mem (s.pc.toNat + 3) 1 with
        | none => .stopped ((s.setPc (s.pc + 3)).raise (.outOfBoundsAccess s.pc (s.pc + 3) 1 .fetch))
        | some sel =>
          .word (BitVec.ofNat 8 opc) (BitVec.ofNat 16 op16) (BitVec.ofNat 8 sel) (s.setPc (s.pc + 4))

/-- The step of R80: nothing in Halted (R33); in Running a fetch, and then the instruction's rule or R89's for an unknown
encoding. -/
def stepWith (c : Config) (execute : Instr → State → Result) (s : State) : Result :=
  match s.run with
  | .halted _ => .next s
  | .running =>
    match fetch c s with
    | .stopped s' => .next s'
    | .word opc op16 sel s' =>
      match decodeFields c opc op16 sel with
      | .ok i => execute i s'
      | .error _ => unknownEncoding c opc op16 s'

/-- `execute` of R80 under any parameter record (R7). `exec` of Sys2Proof/Machine/Dispatch.lean is this under
`Config.system3201`. -/
def execUnder (c : Config) (i : Instr) (s : State) : Result :=
  match i with
  | .and rT rF => andUnder c rT rF s
  | .or rT rF => orUnder c rT rF s
  | .not rT _ => notUnder c rT s
  | .xor rT rF => xorUnder c rT rF s
  | .shl rT _ => shlUnder c rT s
  | .shr rT _ => shrUnder c rT s
  | .add rT rF => addUnder c rT rF s
  | .sub rT rF => subUnder c rT rF s
  | .mul rT rF => mulUnder c rT rF s
  | .div rT rF => divUnder c rT rF s
  | .mod rT rF => modUnder c rT rF s
  | .cmp rT rF => cmpUnder c rT rF s
  | .ldr rT rF => ldrUnder c rT rF s
  | .ldm rT rF => ldmUnder c rT rF s
  | .ldb rT rF => ldbUnder c rT rF s
  | .stm rT rF => stmUnder c rT rF s
  | .stb rT rF => stbUnder c rT rF s
  | .ldu rT _ imm => execLdu rT imm s
  | .ldl rT _ imm => execLdl rT imm s
  | .ori rT _ imm => execOri rT imm s
  | .j rT _ => execJ rT s
  | .jc rT _ => execJc rT s
  | .jp rT _ => execJp rT s
  | .jz rT _ => execJz rT s
  | .js rT _ => execJs rT s
  | .jnc rT _ => execJnc rT s
  | .jnp rT _ => execJnp rT s
  | .jnz rT _ => execJnz rT s
  | .jns rT _ => execJns rT s
  | .nop _ _ _ => execNop s
  | .call op16 _ _ => callUnder c op16 s
  | .ret op16 _ _ => retUnder c op16 s
  | .halt _ _ _ => execHalt s

/-- The step under any parameter record. -/
def stepUnder (c : Config) (s : State) : Result := stepWith c (execUnder c) s

/-- Place the word `w` where the next step of a machine with these parameters fetches: its 4 bytes at pc, run state Running.
Where the 4 bytes at pc are not inside memory nothing is placed, since no fetch reads an instruction there (R55). -/
def placeWord (c : Config) (s : State) (w : Word) : State :=
  match memWrite c s.mem s.pc.toNat 4 w.toNat with
  | some m => { s with mem := m, run := .running }
  | none => s

end Sys2Proof.Machine
end

