-- ==== Sys2Proof/Machine/Step.lean ====
section
/-! DEFINITION. One step of the engine (R80) under this hardware's parameter values, and the host's way to place an
instruction. -/

namespace Sys2Proof.Machine

/-- One step of the engine. -/
def step (s : State) : Host.Outcome State Fault Refusal := stepWith Config.system3201 exec s

/-- `s` with the instruction of `nbits` table bits `w` where the next step fetches; the bits above `nbits` are 0. -/
def State.withFetchWord (s : State) (nbits w : Nat) : State :=
  placeWord Config.system3201 s (BitVec.ofNat 32 (w % 2 ^ nbits))

end Sys2Proof.Machine
end

