-- ==== Sys2Proof/Machine/Tokenizer.lean ====
section
/-! DEFINITION. The assembler's tokenizer (`48_assembler.md` R221 to R229): a pure function of one line's text. A line is the
characters between newlines, so the end of the list is END. -/

namespace Sys2Proof.Machine

/-! ### Lines and character classes -/

/-- The source text split at each newline; the text after the last newline is a line if it is not empty (R221). -/
def splitLines : List Char → List (List Char)
  | [] => []
  | ch :: cs =>
    if ch = '\n' then [] :: splitLines cs
    else
      match splitLines cs with
      | [] => [[ch]]
      | l :: ls => (ch :: l) :: ls

/-- *whitespace*: space, horizontal tab, carriage return (R222). -/
def isSpaceChar (ch : Char) : Bool := ch == ' ' || ch == '\t' || ch == '\r'

/-- *letter* (R222). -/
def isLetter (ch : Char) : Bool := ('A' ≤ ch && ch ≤ 'Z') || ('a' ≤ ch && ch ≤ 'z')

/-- *digit* (R222). -/
def isDigitChar (ch : Char) : Bool := '0' ≤ ch && ch ≤ '9'

/-- A character that continues a mnemonic (R225). -/
def isMnemonicChar (ch : Char) : Bool := isLetter ch || isDigitChar ch

/-- *labelchar* (R222). -/
def isLabelChar (ch : Char) : Bool := isLetter ch || isDigitChar ch || ch == '_' || ch == '.'

/-- *argchar* (R222). -/
def isArgChar (ch : Char) : Bool := isLabelChar ch || ch == '$'

/-- Skip a run of whitespace (R223). -/
def skipSpace (cs : List Char) : List Char := cs.dropWhile isSpaceChar

/-- END or the start of a comment: nothing more is read from the line (R223). -/
def atLineEnd : List Char → Bool
  | [] => true
  | ch :: _ => ch == ';'

/-! ### Tokens -/

/-- The argument token: one item, or two joined by a comma (R226). -/
inductive Argument where
  | one (item : List Char)
  | two (item₁ item₂ : List Char)
  deriving DecidableEq, Repr

/-- The tokens of a line; the comment has no content (R223). -/
structure Tokens where
  /-- The label's name, with its leading `.` and without the `:` (R224). -/
  label : Option (List Char)
  mnemonic : Option (List Char)
  argument : Option Argument
  deriving DecidableEq, Repr

/-- The rest of an argument after its first item: END, a comment, or a comma and a second item; anything else is
TrailingCharacters (R226). -/
def tokenizeItems (item : List Char) (rest : List Char) : Except AsmError Argument :=
  match skipSpace rest with
  | [] => .ok (.one item)
  | ch :: cs =>
    if ch = ';' then .ok (.one item)
    else if ch = ',' then
      if (skipSpace cs).takeWhile isArgChar = [] then .error .trailingCharacters
      else if atLineEnd (skipSpace ((skipSpace cs).dropWhile isArgChar)) then
        .ok (.two item ((skipSpace cs).takeWhile isArgChar))
      else .error .trailingCharacters
    else .error .trailingCharacters

/-- The argument after the separator, if there is one: it begins at an argchar (R226). -/
def tokenizeArgument (cs : List Char) : Except AsmError (Option Argument) :=
  if atLineEnd (skipSpace cs) then .ok none
  else if (skipSpace cs).takeWhile isArgChar = [] then .error .trailingCharacters
  else
    match tokenizeItems ((skipSpace cs).takeWhile isArgChar) ((skipSpace cs).dropWhile isArgChar) with
    | .ok arg => .ok (some arg)
    | .error e => .error e

/-- What follows a mnemonic: END or a comment, the separator and perhaps an argument, or MissingSeparator (R225). -/
def tokenizeAfterMnemonic : List Char → Except AsmError (Option Argument)
  | [] => .ok none
  | ch :: cs =>
    if ch = ';' then .ok none
    else if isSpaceChar ch then tokenizeArgument cs
    else .error .missingSeparator

/-- The part of a line after its optional label (R223, R225, R227). -/
def tokenizeRest (label : Option (List Char)) (cs : List Char) : Except AsmError Tokens :=
  match skipSpace cs with
  | [] => .ok { label := label, mnemonic := none, argument := none }
  | ch :: rest =>
    if ch = ';' then .ok { label := label, mnemonic := none, argument := none }
    else if isLetter ch then
      match tokenizeAfterMnemonic (rest.dropWhile isMnemonicChar) with
      | .ok arg => .ok { label := label, mnemonic := some (ch :: rest.takeWhile isMnemonicChar), argument := arg }
      | .error e => .error e
    else .error .unexpectedCharacter

/-- Tokenize one line (R223): a label begins only at `.`, needs a character after the `.` and a `:` after its name (R224). -/
def tokenize (line : List Char) : Except AsmError Tokens :=
  match skipSpace line with
  | [] => tokenizeRest none []
  | ch :: cs =>
    if ch = '.' then
      match cs.dropWhile isLabelChar with
      | [] => .error .malformedLabel
      | after :: rest =>
        if after = ':' ∧ cs.takeWhile isLabelChar ≠ [] then tokenizeRest (some ('.' :: cs.takeWhile isLabelChar)) rest
        else .error .malformedLabel
    else tokenizeRest none (ch :: cs)

/-- The errors the tokenizer finds (R228, R268). -/
def AsmError.isParseError : AsmError → Bool
  | .malformedLabel | .missingSeparator | .trailingCharacters | .unexpectedCharacter => true
  | .duplicateLabel | .locationCounterOverflow | .misalignedOrg | .badArgument | .badRegister | .badImmediate
  | .immediateOutOfRange | .unknownMnemonic | .undefinedLabel => false

end Sys2Proof.Machine
end

