-- ==== Sys2Proof/Machine/Assembler.lean ====
section
/-! DEFINITION. The two-pass assembler (`48_assembler.md` R220, R240 to R271) as a state machine: one step processes one line, or
ends a pass. The encodings come from the engine's own table, through `encode` (R2). -/

namespace Sys2Proof.Machine

/-! ### Items (R263 to R265) -/

/-- The value of a digit `0`-`9`. -/
def decimalDigit (ch : Char) : Option Nat := if isDigitChar ch then some (ch.toNat - 48) else none

/-- The value of a hexadecimal digit `0`-`9` or `a`-`f`. -/
def lowerHexDigit (ch : Char) : Option Nat :=
  if isDigitChar ch then some (ch.toNat - 48) else if 'a' ≤ ch ∧ ch ≤ 'f' then some (ch.toNat - 87) else none

/-- The value of a hexadecimal digit in either case (R264, D19). -/
def hexDigit (ch : Char) : Option Nat :=
  if 'A' ≤ ch ∧ ch ≤ 'F' then some (ch.toNat - 55) else lowerHexDigit ch

/-- A register item: exactly `r` and one hexadecimal digit `0`-`9` or `a`-`f` (R263). -/
def parseRegister : List Char → Option Reg
  | [r, d] =>
    if r = 'r' then
      match lowerHexDigit d with
      | some n => some (Fin.ofNat 16 n)
      | none => none
    else none
  | _ => none

/-- The exact value of digits in a base, continuing from `acc`; `none` at a character that is no digit. -/
def digitsValue (base : Nat) (digit : Char → Option Nat) (acc : Nat) : List Char → Option Nat
  | [] => some acc
  | ch :: cs =>
    match digit ch with
    | some d => digitsValue base digit (acc * base + d) cs
    | none => none

/-- An immediate item: decimal digits, or `$` and hexadecimal digits, at least one digit (R264). -/
def parseImmediate : List Char → Option Nat
  | [] => none
  | ch :: cs =>
    if ch = '$' then if cs = [] then none else digitsValue 16 hexDigit 0 cs
    else digitsValue 10 decimalDigit 0 (ch :: cs)

/-- An item that is a valid label name (R265, R224). -/
def isLabelName : List Char → Bool
  | [] => false
  | ch :: cs => ch == '.' && cs != [] && cs.all isLabelChar

/-- The value of a label in the table. -/
def lookupLabel (labels : List (List Char × Nat)) (name : List Char) : Option Nat :=
  match labels with
  | [] => none
  | (n, v) :: rest => if n = name then some v else lookupLabel rest name

/-! ### Mnemonics and forms (R260 to R262) -/

/-- The argument form of a mnemonic, with the instruction it makes; every ignored field is 0 (R261, R262). -/
inductive AsmForm where
  | oneReg (mk : Reg → Instr)
  | twoReg (mk : Reg → Reg → Instr)
  | regImm (mk : Reg → Half → Instr)
  | noArg (i : Instr)

/-- The mnemonic of the pseudo-instruction (R243). -/
def orgName : List Char := "org".toList

/-- The mnemonic table of R260 and R262, less `org`. -/
def defaultMnemonics : List (List Char × AsmForm) :=
  [("add".toList, .twoReg fun X Y => .add X Y),
   ("sub".toList, .twoReg fun X Y => .sub X Y),
   ("xor".toList, .twoReg fun X Y => .xor X Y),
   ("j".toList, .oneReg fun X => .j X 0),
   ("jc".toList, .oneReg fun X => .jc X 0),
   ("ldr".toList, .twoReg fun X Y => .ldr X Y),
   ("ldu".toList, .regImm fun X v => .ldu X 0 v),
   ("ldl".toList, .regImm fun X v => .ldl X 0 v),
   ("ldm".toList, .twoReg fun X Y => .ldm X Y),
   ("stm".toList, .twoReg fun X Y => .stm X Y),
   ("stb".toList, .twoReg fun X Y => .stb X Y)]

/-- The other spellings of R93, accepted when `ASM_FULL_SET` is true (R260). -/
def extraMnemonics : List (List Char × AsmForm) :=
  [("and".toList, .twoReg fun X Y => .and X Y),
   ("or".toList, .twoReg fun X Y => .or X Y),
   ("not".toList, .oneReg fun X => .not X 0),
   ("shl".toList, .oneReg fun X => .shl X 0),
   ("shr".toList, .oneReg fun X => .shr X 0),
   ("mul".toList, .twoReg fun X Y => .mul X Y),
   ("div".toList, .twoReg fun X Y => .div X Y),
   ("mod".toList, .twoReg fun X Y => .mod X Y),
   ("cmp".toList, .twoReg fun X Y => .cmp X Y),
   ("ldb".toList, .twoReg fun X Y => .ldb X Y),
   ("ori".toList, .regImm fun X v => .ori X 0 v)] ++
  [("jp".toList, .oneReg fun X => .jp X 0),
   ("jz".toList, .oneReg fun X => .jz X 0),
   ("js".toList, .oneReg fun X => .js X 0),
   ("jnc".toList, .oneReg fun X => .jnc X 0),
   ("jnp".toList, .oneReg fun X => .jnp X 0),
   ("jnz".toList, .oneReg fun X => .jnz X 0),
   ("jns".toList, .oneReg fun X => .jns X 0),
   ("nop".toList, .noArg (.nop 0 0 0)),
   ("call".toList, .noArg (.call 0 0 0)),
   ("ret".toList, .noArg (.ret 0 0 0)),
   ("halt".toList, .noArg (.halt 0 0 0))]

/-- The form of a name in a mnemonic table. -/
def lookupForm (table : List (List Char × AsmForm)) (name : List Char) : Option AsmForm :=
  match table with
  | [] => none
  | (n, f) :: rest => if n = name then some f else lookupForm rest name

/-- The form of an accepted mnemonic other than `org` (R260). -/
def acceptedForm (c : Config) (name : List Char) : Option AsmForm :=
  match lookupForm defaultMnemonics name with
  | some f => some f
  | none => if c.asmFullSet then lookupForm extraMnemonics name else none

/-- The value of a REG_IMM argument: a label reference or an immediate, at most 0xFFFF (R264, R265). -/
def parseValue (labels : List (List Char × Nat)) (item : List Char) : Except AsmError Half :=
  if isLabelName item then
    match lookupLabel labels item with
    | none => .error .undefinedLabel
    | some v => if v ≤ 0xFFFF then .ok (BitVec.ofNat 16 v) else .error .immediateOutOfRange
  else
    match parseImmediate item with
    | none => .error .badImmediate
    | some v => if v ≤ 0xFFFF then .ok (BitVec.ofNat 16 v) else .error .immediateOutOfRange

/-- The instruction of an accepted line: the argument's form is checked, then its items from left to right (R261, R262). -/
def assembleForm (labels : List (List Char × Nat)) (f : AsmForm) (arg : Option Argument) : Except AsmError Instr :=
  match f, arg with
  | .oneReg mk, some (.one item) =>
    match parseRegister item with
    | some X => .ok (mk X)
    | none => .error .badRegister
  | .twoReg mk, some (.two item₁ item₂) =>
    match parseRegister item₁ with
    | none => .error .badRegister
    | some X =>
      match parseRegister item₂ with
      | none => .error .badRegister
      | some Y => .ok (mk X Y)
  | .regImm mk, some (.two item₁ item₂) =>
    match parseRegister item₁ with
    | none => .error .badRegister
    | some X =>
      match parseValue labels item₂ with
      | .ok v => .ok (mk X v)
      | .error e => .error e
  | .noArg i, none => .ok i
  | _, _ => .error .badArgument

/-- `apply_org`: the new location counter (R243). -/
def applyOrg (arg : Option Argument) : Except AsmError Nat :=
  match arg with
  | some (.one item) =>
    match parseImmediate item with
    | none => .error .badImmediate
    | some v =>
      if v > 0xFFFFFFFF then .error .immediateOutOfRange
      else if v % 4 ≠ 0 then .error .misalignedOrg
      else .ok v
  | _ => .error .badArgument

/-! ### The state machine -/

/-- The start state for a source text; "Pass 1" is written (R241). -/
def AsmState.start (source : List Char) : AsmState where
  lines := splitLines source
  phase := .pass1
  line := 1
  lc := 0
  labels := []
  out := []
  status := [.pass1]

/-- `Failed(n, kind)` for the line being processed (R242, R247). -/
def AsmState.fail (a : AsmState) (kind : AsmError) : AsmState := { a with phase := .failed a.line kind }

/-- Record a line's label at the counter's value from before the advance; a name is unique (R242, R250). -/
def AsmState.defineLabel (a : AsmState) : Option (List Char) → Except AsmError AsmState
  | none => .ok a
  | some name =>
    if (lookupLabel a.labels name).isSome then .error .duplicateLabel
    else .ok { a with labels := (name, a.lc) :: a.labels }

/-- The counter after a line of pass 1: `org` redirects it unless `ORG_PASS1_LITERAL`, any other mnemonic advances it by 4
(R242, R271). -/
def pass1Counter (c : Config) (lc : Nat) (tok : Tokens) : Except AsmError Nat :=
  match tok.mnemonic with
  | none => .ok lc
  | some name =>
    if name = orgName ∧ c.orgPass1Literal = false then applyOrg tok.argument
    else if lc + 4 > 2 ^ 32 then .error .locationCounterOverflow
    else .ok (lc + 4)

/-- A pass-1 step on one line (R242). -/
def AsmState.pass1Line (c : Config) (a : AsmState) (text : List Char) : AsmState :=
  match tokenize text with
  | .error e => a.fail e
  | .ok tok =>
    match a.defineLabel tok.label with
    | .error e => a.fail e
    | .ok a₁ =>
      match pass1Counter c a₁.lc tok with
      | .error e => a₁.fail e
      | .ok lc => { a₁ with lc := lc, line := a₁.line + 1 }

/-- A pass-2 step on one line (R245). -/
def AsmState.pass2Line (c : Config) (a : AsmState) (text : List Char) : AsmState :=
  match tokenize text with
  | .error e => a.fail e
  | .ok tok =>
    match tok.mnemonic with
    | none => { a with line := a.line + 1 }
    | some name =>
      if name = orgName then
        match applyOrg tok.argument with
        | .error e => a.fail e
        | .ok lc => { a with lc := lc, line := a.line + 1 }
      else
        match acceptedForm c name with
        | none => a.fail .unknownMnemonic
        | some f =>
          match assembleForm a.labels f tok.argument with
          | .error e => a.fail e
          | .ok i => { a with out := a.out ++ encode c i, lc := a.lc + 4, line := a.line + 1 }

/-- The end of pass 1: pass 2 begins with the labels kept, and "Pass 2" is written (R244). -/
def AsmState.beginPass2 (a : AsmState) : AsmState :=
  { a with phase := .pass2, line := 1, lc := 0, out := [], status := a.status ++ [.pass2] }

/-- One step of the assembler: a line of the current pass, or the end of the pass; Done and Failed are terminal (R242 to
R248). -/
def AsmState.step (c : Config) (a : AsmState) : AsmState :=
  match a.phase with
  | .pass1 =>
    match a.lines[a.line - 1]? with
    | some text => a.pass1Line c text
    | none => a.beginPass2
  | .pass2 =>
    match a.lines[a.line - 1]? with
    | some text => a.pass2Line c text
    | none => { a with phase := .done }
  | .done => a
  | .failed _ _ => a

/-- `n` steps of the assembler. -/
def AsmState.steps (c : Config) : Nat → AsmState → AsmState
  | 0, a => a
  | n + 1, a => AsmState.steps c n (a.step c)

/-- What an assembly gives (R220): the image, or one error with its line. -/
inductive AsmResult where
  | image (bytes : List Byte)
  | error (line : Nat) (kind : AsmError)
  deriving DecidableEq, Repr

/-- The result of a finished assembly; none while a pass is running. On failure no byte is output (R220, R247). -/
def AsmState.result (a : AsmState) : Option AsmResult :=
  match a.phase with
  | .pass1 => none
  | .pass2 => none
  | .done => some (.image a.out)
  | .failed line kind => some (.error line kind)

/-- The exit codes a result may have: 0 on success, some non-zero value, which the spec does not give, on any error (R269,
I18). -/
def AsmResult.exitCodeMayBe (r : AsmResult) (code : Nat) : Prop :=
  match r with
  | .image _ => code = 0
  | .error _ _ => code ≠ 0

/-- `assemble(sourceText)`: from the start state, one step a line and one at each pass's end (R220). -/
def assemble (c : Config) (source : List Char) : AsmState :=
  AsmState.steps c (2 * (splitLines source).length + 2) (AsmState.start source)

/-! ### The assembler inside the state -/

/-- Give the assembler of this hardware a source text. -/
def State.asmStart (s : State) (source : List Char) : State := { s with asm := AsmState.start source }

/-- One step of the assembler of this hardware. -/
def State.asmStep (s : State) : State := { s with asm := s.asm.step Config.system3201 }

end Sys2Proof.Machine
end

