-- ==== Sys2Proof/Machine/HostView.lean ====
section
/-! DEFINITION. What the host sees of the engine (R300, R320, R321, R333, R342): the trace port, halt codes and exit codes, the
result of a step, and a run under a step budget. None of it can change the state. -/

namespace Sys2Proof.Machine

/-- What the trace port shows (R320): 16 registers, 4 flags, pc, and the 4 raw bytes at pc. R302 says that the halt reason and
its information are visible to the host by R320 and R321, and the list of R320 does not name them: the model shows the run
state here (DESIGN CHOICE, log 12). -/
structure Trace where
  x : Vector Word 16
  flags : Flags
  pc : Word
  raw : List (Option Byte)
  run : RunState
  deriving DecidableEq, Repr

/-- The byte shown for address `a`: showing is not an access and does not fault (R320). For a byte outside memory nothing is
shown, `none` (DESIGN CHOICE, log 13). -/
def shownByte (c : Config) (m : Memory) (a : Nat) : Option Byte :=
  if a < c.memSize then some (m.read a) else none

/-- The trace port in a state (R320). -/
def traceUnder (c : Config) (s : State) : Trace where
  x := s.x
  flags := s.flags
  pc := s.pc
  raw := (List.range 4).map fun k => shownByte c s.mem (s.pc.toNat + k)
  run := s.run

/-- The trace port of this hardware (R320). -/
def State.trace (s : State) : Trace := traceUnder Config.system3201 s

/-- The numeric code of a halt reason (R300). -/
def HaltReason.code : HaltReason → Nat
  | .halt => 0
  | .alignmentFault _ => 1
  | .outOfBoundsAccess _ _ _ _ => 2
  | .unimplementedOpcode _ _ _ => 3

/-- The emulator's exit code: the halt code; a run that has not halted has none (R321). -/
def RunState.exitCode : RunState → Option Nat
  | .running => none
  | .halted r => some r.code

/-- What a step returns (R33, R80). -/
inductive Signal where
  | goOn | halt
  deriving DecidableEq, Repr

/-- `(run is Halted) ? halt : continue`, read from the state after the step (R80). -/
def State.signal (s : State) : Signal := if s.run.isHalted then .halt else .goOn

/-- How a run under a step budget ends (R333, R342). -/
inductive RunEnd where
  /-- The first step that left the engine Halted, with the final state. -/
  | halted (s : State)
  /-- The budget ran out: not a halt, the engine stays as it is (D36). -/
  | outOfFuel (s : State)
  deriving DecidableEq, Repr

/-- A run of at most `fuel` steps (R333). A fault or a refusal of `step` never occurs; if it did the run would stop there. -/
def runFor : Nat → State → RunEnd
  | 0, s => .outOfFuel s
  | fuel + 1, s =>
    match step s with
    | .next t => if t.run.isHalted then .halted t else runFor fuel t
    | .fault _ => .outOfFuel s
    | .refused _ => .outOfFuel s

end Sys2Proof.Machine
end

