-- ==== Sys2Proof/Machine/Launch.lean ====
section
/-! DEFINITION. Reset with its launch inputs (R330, R331): the image and the three unconstrained inputs of D15. -/

namespace Sys2Proof.Machine

/-- What a launch is given from outside. -/
structure Launch where
  /-- The raw binary image, no header (R331). -/
  image : List Byte
  /-- `RESET_REGS` (R330). -/
  regs : Vector Word 16
  /-- `RESET_FLAGS` (R31, R330). -/
  flags : Flags
  /-- `RESET_MEM_FILL`, as a memory: byte `i` of it is `RESET_MEM_FILL(i)` (R331); `Memory.ofBytes` gives every fill. -/
  fill : Memory

/-- The memory whose byte `i` is `f i` for `i < n` (a fill `RESET_MEM_FILL` over the whole of memory, R331). -/
def Memory.ofBytes (f : Nat → Byte) : Nat → Memory
  | 0 => []
  | n + 1 => Memory.write (Memory.ofBytes f n) n (f n)

/-- "full external re-initialization" of the engine (R330): pc 0, Running, registers and flags as given, memory the image at 0
upward over the fill. An image longer than memory is refused (R331, D28). The assembler is not part of the engine. -/
def launchUnder (c : Config) (l : Launch) (s : State) : Result :=
  if l.image.length ≤ c.memSize then
    .next { x := l.regs, flags := l.flags, pc := 0, mem := l.fill.load 0 l.image, run := .running, asm := s.asm }
  else .refused .imageLongerThanMemory

/-- A launch of this hardware. -/
def launch (l : Launch) (s : State) : Result := launchUnder Config.system3201 l s

end Sys2Proof.Machine
end

