-- ==== Sys2Proof/Machine/Spelling.lean ====
section
/-! DEFINITION. The spelling of each engine instruction in assembler text (R93): the column `spelling` of its table, an
immediate written as `$` and four hexadecimal digits. An ignored field has no spelling. -/

namespace Sys2Proof.Machine

/-- The hexadecimal digit of a number below 16. -/
def hexChar (n : Nat) : Char := if n < 10 then Char.ofNat (48 + n) else Char.ofNat (87 + n)

/-- `r0`..`r9`, `ra`..`rf` (R20). -/
def regName (r : Reg) : List Char := ['r', hexChar r.val]

/-- A 16-bit value as `$` and four hexadecimal digits (R264). -/
def immText (v : Half) : List Char :=
  ['$', hexChar (v.toNat / 4096), hexChar (v.toNat / 256 % 16), hexChar (v.toNat / 16 % 16), hexChar (v.toNat % 16)]

/-- `name T`. -/
def spellOne (name : List Char) (rT : Reg) : List Char := name ++ ' ' :: regName rT

/-- `name T, F`. -/
def spellTwo (name : List Char) (rT rF : Reg) : List Char := name ++ ' ' :: regName rT ++ ',' :: ' ' :: regName rF

/-- `name T, imm`. -/
def spellImm (name : List Char) (rT : Reg) (imm : Half) : List Char := name ++ ' ' :: regName rT ++ ',' :: ' ' :: immText imm

/-- The spelling of an instruction (R93). -/
def spelling : Instr → List Char
  | .and rT rF => spellTwo "and".toList rT rF
  | .or rT rF => spellTwo "or".toList rT rF
  | .not rT _ => spellOne "not".toList rT
  | .xor rT rF => spellTwo "xor".toList rT rF
  | .shl rT _ => spellOne "shl".toList rT
  | .shr rT _ => spellOne "shr".toList rT
  | .add rT rF => spellTwo "add".toList rT rF
  | .sub rT rF => spellTwo "sub".toList rT rF
  | .mul rT rF => spellTwo "mul".toList rT rF
  | .div rT rF => spellTwo "div".toList rT rF
  | .mod rT rF => spellTwo "mod".toList rT rF
  | .cmp rT rF => spellTwo "cmp".toList rT rF
  | .ldr rT rF => spellTwo "ldr".toList rT rF
  | .ldm rT rF => spellTwo "ldm".toList rT rF
  | .ldb rT rF => spellTwo "ldb".toList rT rF
  | .stm rT rF => spellTwo "stm".toList rT rF
  | .stb rT rF => spellTwo "stb".toList rT rF
  | .ldu rT _ imm => spellImm "ldu".toList rT imm
  | .ldl rT _ imm => spellImm "ldl".toList rT imm
  | .ori rT _ imm => spellImm "ori".toList rT imm
  | .j rT _ => spellOne "j".toList rT
  | .jc rT _ => spellOne "jc".toList rT
  | .jp rT _ => spellOne "jp".toList rT
  | .jz rT _ => spellOne "jz".toList rT
  | .js rT _ => spellOne "js".toList rT
  | .jnc rT _ => spellOne "jnc".toList rT
  | .jnp rT _ => spellOne "jnp".toList rT
  | .jnz rT _ => spellOne "jnz".toList rT
  | .jns rT _ => spellOne "jns".toList rT
  | .nop _ _ _ => "nop".toList
  | .call _ _ _ => "call".toList
  | .ret _ _ _ => "ret".toList
  | .halt _ _ _ => "halt".toList

end Sys2Proof.Machine
end

