-- ==== Sys2Proof/Safety.lean ====
section
/-! DEFINITION. What counts as a safe state and a safe run, in the terms the claims use. -/

namespace Sys2Proof.Machine

/-- The reason is one of the three faults of R300, not the normal end. -/
def HaltReason.isFault : HaltReason → Bool
  | .halt => false
  | .alignmentFault _ => true
  | .outOfBoundsAccess _ _ _ _ => true
  | .unimplementedOpcode _ _ _ => true

/-- The engine has stopped with a fault (R301). -/
def State.faulted (s : State) : Bool :=
  match s.run with
  | .running => false
  | .halted r => r.isFault

/-- Memory is in its canonical form and lists no address outside memory (R50). -/
def State.memoryOk (s : State) : Bool :=
  s.mem.wf && s.mem.below Config.system3201.memSize

/-- pc is the address after an instruction the engine can have fetched: `pc0 + 4` with `pc0` aligned and its 4 bytes inside
memory (R24, R55). -/
def afterFetch (pc0 pc : Word) : Bool :=
  pc0.toNat % 4 == 0 && decide (pc0.toNat + 4 ≤ Config.system3201.memSize) && pc == pc0 + 4

/-- The pc left by a halt and the information recorded with it belong together (R301, R303, the table of R303; a fetch goes
out of bounds only on the opcode byte, since `MEM_SIZE` is a multiple of 4, R55). -/
def State.haltRecordOk (s : State) : Bool :=
  match s.run with
  | .running => true
  | .halted .halt => afterFetch s.pc0 s.pc
  | .halted (.alignmentFault pc0) =>
    pc0.toNat % 4 != 0 && decide (pc0.toNat < Config.system3201.memSize) && s.pc == pc0 + 1
  | .halted (.outOfBoundsAccess pc0 addr size .fetch) =>
    addr == pc0 && size == 1 && decide (Config.system3201.memSize ≤ pc0.toNat) && s.pc == pc0
  | .halted (.outOfBoundsAccess pc0 addr size _) =>
    (size == 1 || size == 4) && decide (Config.system3201.memSize < addr.toNat + size) && afterFetch pc0 s.pc
  | .halted (.unimplementedOpcode pc0 opc op16) =>
    (match decodeFields Config.system3201 opc op16 0 with
      | .ok _ => false
      | .error _ => true) && afterFetch pc0 s.pc

/-- The invariant of the engine's state. -/
def State.inv (s : State) : Bool := s.memoryOk && s.haltRecordOk

/-- A run of at most `fuel` steps from `s` meets no fault (R301). -/
def safeFor (fuel : Nat) (s : State) : Bool :=
  match runFor fuel s with
  | .halted t => !t.faulted
  | .outOfFuel t => !t.faulted

/-- The names of a label table are unique (R250). -/
def AsmState.labelsUnique (a : AsmState) : Bool := decide (a.labels.map Prod.fst).Nodup

end Sys2Proof.Machine
end

