-- ==== Sys2Proof/Certificates/Slice0/Obligations.lean ====
section
/-! DEFINITION. The statements for the provers, and the predicates they are written in. In every statement about `exec i s`,
`s` is the state at dispatch, so `s.pc` is `pc0 + 4` (R24) and `s.pc - 4` is `pc0`. The values of results and flags are
written in ordinary arithmetic on natural numbers, not with the model's own functions. -/

namespace Sys2Proof.Claims

open Sys2Proof.Machine

/-- The parameter values of this hardware (R7). -/
abbrev hw : Config := Config.system3201

/-! ### Predicates the statements are written in -/

/-- Every byte of memory reads the same in both states. -/
def SameMemory (s t : State) : Prop := ∀ a : Nat, t.mem.read a = s.mem.read a

/-- Every byte outside the `n` bytes at `a` reads the same in both states. -/
def SameMemoryOutside (a n : Nat) (s t : State) : Prop := ∀ b : Nat, b < a ∨ a + n ≤ b → t.mem.read b = s.mem.read b

/-- Every register reads the same in both states. -/
def SameRegisters (s t : State) : Prop := ∀ r : Reg, t.reg r = s.reg r

/-- Every register but `rT` reads the same in both states. -/
def SameRegistersBut (rT : Reg) (s t : State) : Prop := ∀ r : Reg, r ≠ rT → t.reg r = s.reg r

/-- pc, run state and the assembler are the same in both states. -/
def SameControl (s t : State) : Prop := t.pc = s.pc ∧ t.run = s.run ∧ t.asm = s.asm

/-- The frame of an instruction that writes one register and the flags. -/
def OnlyRegisterAndFlags (rT : Reg) (s t : State) : Prop :=
  SameRegistersBut rT s t ∧ SameMemory s t ∧ SameControl s t

/-- The frame of an instruction that writes one register. -/
def OnlyRegister (rT : Reg) (s t : State) : Prop :=
  SameRegistersBut rT s t ∧ t.flags = s.flags ∧ SameMemory s t ∧ SameControl s t

/-- The frame of an instruction that writes the flags only. -/
def OnlyFlags (s t : State) : Prop := SameRegisters s t ∧ SameMemory s t ∧ SameControl s t

/-- The frame of a step or instruction that halts with reason `r`: nothing but the run state is written (R302). -/
def OnlyHalts (r : HaltReason) (s t : State) : Prop :=
  SameRegisters s t ∧ t.flags = s.flags ∧ SameMemory s t ∧ t.pc = s.pc ∧ t.run = .halted r ∧ t.asm = s.asm

/-- The number of set bits among the `n` low bits of `r` is even. -/
def EvenOnes (n r : Nat) : Prop := ((List.range n).filter fun k => r.testBit k).length % 2 = 0

/-- The flags of a 32-bit result `r` with the given carry, on this hardware (R30, `PARITY_WIDTH` 32). -/
def FlagsOfResult (f : Flags) (r : Nat) (carry : Prop) : Prop :=
  (f.S = true ↔ 2 ^ 31 ≤ r) ∧ (f.Z = true ↔ r = 0) ∧ (f.P = true ↔ EvenOnes 32 r) ∧ (f.C = true ↔ carry)

/-- The bytes `b0 b1 b2 T:F` decode to `mk T F` for all 256 register pairs. -/
def EncodedAs (b0 b1 b2 : Byte) (mk : Reg → Reg → Instr) : Prop :=
  ∀ (rT rF : Reg) (rest : List Byte),
    decode hw (b0 :: b1 :: b2 :: BitVec.ofNat 8 (16 * rT.val + rF.val) :: rest) = .ok (mk rT rF, rest)

/-- The bytes `b0 lo hi T:F` decode to `mk T F imm` for every immediate `lo + 256*hi` and all 256 register pairs. -/
def EncodedWithImmediate (b0 : Byte) (mk : Reg → Reg → Half → Instr) : Prop :=
  ∀ (rT rF : Reg) (lo hi : Byte) (rest : List Byte),
    decode hw (b0 :: lo :: hi :: BitVec.ofNat 8 (16 * rT.val + rF.val) :: rest)
      = .ok (mk rT rF (BitVec.ofNat 16 (lo.toNat + 256 * hi.toNat)), rest)

/-- The bytes `b0 x x x`, whatever the last three, decode to an instruction with their fields. -/
def EncodedByOpcode (b0 : Byte) (mk : Half → Reg → Reg → Instr) : Prop :=
  ∀ (b1 b2 b3 : Byte) (rest : List Byte), ∃ (op16 : Half) (rT rF : Reg),
    op16.toNat = b1.toNat + 256 * b2.toNat ∧ b3.toNat = 16 * rT.val + rF.val ∧
    decode hw (b0 :: b1 :: b2 :: b3 :: rest) = .ok (mk op16 rT rF, rest)

/-- The default assembler accepts the mnemonic (R260). -/
abbrev Accepted (name : List Char) : Prop := (acceptedForm hw name).isSome = true

/-- Only the assembler with `ASM_FULL_SET` accepts the mnemonic (R260). -/
abbrev AcceptedOnlyInFullSet (name : List Char) : Prop :=
  (acceptedForm hw name).isNone = true ∧ (acceptedForm { hw with asmFullSet := true } name).isSome = true

/-- The four bytes a step fetches at pc (R80). -/
def bytesAtPc (s : State) : List Byte :=
  [s.mem.read s.pc.toNat, s.mem.read (s.pc.toNat + 1), s.mem.read (s.pc.toNat + 2), s.mem.read (s.pc.toNat + 3)]

/-- The fetch of a step succeeds: Running, pc aligned, its 4 bytes inside memory (R55). -/
def CanFetch (s : State) : Prop := s.run = .running ∧ s.pc.toNat % 4 = 0 ∧ s.pc.toNat + 4 ≤ 0x100000

/-- The opcode byte and the operand field are an unknown encoding: the opcodes R84 lists as unassigned and the sub-ops R86
does not list, written out (R89, R116, R137, R156, R190, R204). -/
def UnknownEncoding (opc op16 : Nat) : Prop :=
  (0x0B ≤ opc ∧ opc ≤ 0xFE) ∨ (opc = 0x00 ∧ 6 ≤ op16) ∨ (opc = 0x01 ∧ 6 ≤ op16) ∨ (opc = 0x02 ∧ 3 ≤ op16)
    ∨ (opc = 0x03 ∧ (op16 = 0 ∨ 3 ≤ op16)) ∨ (opc = 0x07 ∧ 9 ≤ op16)

/-- The jump is taken with these flags; false for every other instruction (R181 to R189). -/
def takenJump : Instr → Flags → Bool
  | .j _ _, _ => true
  | .jc _ _, f => f.C
  | .jp _ _, f => f.P
  | .jz _ _, f => f.Z
  | .js _ _, f => f.S
  | .jnc _ _, f => !f.C
  | .jnp _ _, f => !f.P
  | .jnz _ _, f => !f.Z
  | .jns _ _, f => !f.S
  | .and _ _, _ | .or _ _, _ | .not _ _, _ | .xor _ _, _ | .shl _ _, _ | .shr _ _, _ => false
  | .add _ _, _ | .sub _ _, _ | .mul _ _, _ | .div _ _, _ | .mod _ _, _ | .cmp _ _, _ => false
  | .ldr _ _, _ | .ldm _ _, _ | .ldb _ _, _ | .stm _ _, _ | .stb _ _, _ => false
  | .ldu _ _ _, _ | .ldl _ _ _, _ | .ori _ _ _, _ => false
  | .nop _ _ _, _ | .call _ _ _, _ | .ret _ _ _, _ | .halt _ _ _, _ => false

/-- The register an instruction writes, if it writes one. -/
def destination : Instr → Option Reg
  | .and rT _ | .or rT _ | .not rT _ | .xor rT _ | .shl rT _ | .shr rT _ => some rT
  | .add rT _ | .sub rT _ | .mul rT _ | .div rT _ | .mod rT _ => some rT
  | .ldr rT _ | .ldm rT _ | .ldb rT _ => some rT
  | .ldu rT _ _ | .ldl rT _ _ | .ori rT _ _ => some rT
  | .cmp _ _ | .stm _ _ | .stb _ _ => none
  | .j _ _ | .jc _ _ | .jp _ _ | .jz _ _ | .js _ _ | .jnc _ _ | .jnp _ _ | .jnz _ _ | .jns _ _ => none
  | .nop _ _ _ | .call _ _ _ | .ret _ _ _ | .halt _ _ _ => none

/-- The address register and the size of a store; none for an instruction that stores nothing (R150, R154, R155). -/
def storeTo : Instr → Option (Reg × Nat)
  | .stm rT _ => some (rT, 4)
  | .stb rT _ => some (rT, 1)
  | .and _ _ | .or _ _ | .not _ _ | .xor _ _ | .shl _ _ | .shr _ _ => none
  | .add _ _ | .sub _ _ | .mul _ _ | .div _ _ | .mod _ _ | .cmp _ _ => none
  | .ldr _ _ | .ldm _ _ | .ldb _ _ | .ldu _ _ _ | .ldl _ _ _ | .ori _ _ _ => none
  | .j _ _ | .jc _ _ | .jp _ _ | .jz _ _ | .js _ _ | .jnc _ _ | .jnp _ _ | .jnz _ _ | .jns _ _ => none
  | .nop _ _ _ | .call _ _ _ | .ret _ _ _ | .halt _ _ _ => none

/-- The instruction is of the LOGIC or the ARITH class. -/
def IsLogicOrArithmetic (i : Instr) : Prop := i.opClass = .logic ∨ i.opClass = .arith

/-- The fault of a data access that is out of bounds in the state, for an instruction that makes one (R152 to R155, R301). -/
def badAccess (i : Instr) (s : State) : Option HaltReason :=
  match i with
  | .ldm _ rF =>
    if 0x100000 < (s.reg rF).toNat + 4 then some (.outOfBoundsAccess (s.pc - 4) (s.reg rF) 4 .read) else none
  | .ldb _ rF =>
    if 0x100000 < (s.reg rF).toNat + 1 then some (.outOfBoundsAccess (s.pc - 4) (s.reg rF) 1 .read) else none
  | .stm rT _ =>
    if 0x100000 < (s.reg rT).toNat + 4 then some (.outOfBoundsAccess (s.pc - 4) (s.reg rT) 4 .write) else none
  | .stb rT _ =>
    if 0x100000 < (s.reg rT).toNat + 1 then some (.outOfBoundsAccess (s.pc - 4) (s.reg rT) 1 .write) else none
  | .and _ _ | .or _ _ | .not _ _ | .xor _ _ | .shl _ _ | .shr _ _ => none
  | .add _ _ | .sub _ _ | .mul _ _ | .div _ _ | .mod _ _ | .cmp _ _ => none
  | .ldr _ _ | .ldu _ _ _ | .ldl _ _ _ | .ori _ _ _ => none
  | .j _ _ | .jc _ _ | .jp _ _ | .jz _ _ | .js _ _ | .jnc _ _ | .jnp _ _ | .jnz _ _ | .jns _ _ => none
  | .nop _ _ _ | .call _ _ _ | .ret _ _ _ | .halt _ _ _ => none

/-- A line of source that counts as an instruction of the image: it has a mnemonic, and that is not `org` (R266). -/
def emitsInstruction (line : List Char) : Bool :=
  match tokenize line with
  | .ok tok => match tok.mnemonic with
    | some name => name != "org".toList
    | none => false
  | .error _ => false

/-- The line's mnemonic is accepted and the line assembles to the instruction under the label table (R245, R262). -/
def AssemblesTo (c : Config) (labels : List (List Char × Nat)) (line : List Char) (i : Instr) : Prop :=
  ∃ tok name f, tokenize line = .ok tok ∧ tok.mnemonic = some name ∧ acceptedForm c name = some f
    ∧ assembleForm labels f tok.argument = .ok i

/-- The assembler is in the phase and the line it processes next tokenizes to `tok` (R242, R245). -/
def Processes (a : AsmState) (phase : AsmPhase) (tok : Tokens) : Prop :=
  a.phase = phase ∧ ∃ text, a.lines[a.line - 1]? = some text ∧ tokenize text = .ok tok

/-- The line has no label, or one that the label table does not hold (R242). -/
def LabelIsNew (a : AsmState) (tok : Tokens) : Prop :=
  ∀ name, tok.label = some name → ∀ v, (name, v) ∉ a.labels

/-- The line is done, with `lc` as the counter after it and `bytes` appended to the output (R242, R245). -/
def LineDone (a b : AsmState) (lc : Nat) (bytes : List Byte) : Prop :=
  b.phase = a.phase ∧ b.line = a.line + 1 ∧ b.lc = lc ∧ b.out = a.out ++ bytes

/-- A label's name: `.` and one or more letters, digits, `_` or `.` (R222, R224). -/
def IsLabelItem (item : List Char) : Prop :=
  ∃ cs, item = '.' :: cs ∧ cs ≠ [] ∧ ∀ ch ∈ cs, ch.isAlphanum = true ∨ ch = '_' ∨ ch = '.'

/-- The digits of base 10 and their values (R264). -/
def decimalDigits : List (Char × Nat) :=
  [('0', 0), ('1', 1), ('2', 2), ('3', 3), ('4', 4), ('5', 5), ('6', 6), ('7', 7), ('8', 8), ('9', 9)]

/-- The digits of base 16, in either case, and their values (R264). -/
def hexadecimalDigits : List (Char × Nat) :=
  decimalDigits ++ [('a', 10), ('b', 11), ('c', 12), ('d', 13), ('e', 14), ('f', 15)]
    ++ [('A', 10), ('B', 11), ('C', 12), ('D', 13), ('E', 14), ('F', 15)]

/-- The text is a row of one or more of the digits, and its value in the base is `v` (R264). -/
def IsNumeral (base : Nat) (digits : List (Char × Nat)) (text : List Char) (v : Nat) : Prop :=
  ∃ ds : List (Char × Nat), ds ≠ [] ∧ (∀ d ∈ ds, d ∈ digits) ∧ text = ds.map Prod.fst
    ∧ v = ds.foldl (fun acc d => base * acc + d.2) 0

/-- The mnemonics that take a register and a value, with the instruction each makes; `ori` only with `ASM_FULL_SET` (R260,
R262, R265). -/
def TakesAValue (c : Config) (name : List Char) (mk : Reg → Half → Instr) : Prop :=
  (name = "ldl".toList ∧ mk = fun X v => .ldl X 0 v) ∨ (name = "ldu".toList ∧ mk = fun X v => .ldu X 0 v)
    ∨ (name = "ori".toList ∧ c.asmFullSet = true ∧ mk = fun X v => .ori X 0 v)

/-- No line of the source has the mnemonic `org`. -/
def HasNoOrg (source : List Char) : Prop :=
  ∀ line ∈ splitLines source, ∀ tok, tokenize line = .ok tok → tok.mnemonic ≠ some "org".toList

/-- The mnemonics of the default assembler that name an engine instruction (R260). -/
def inDefaultSet : Instr → Bool
  | .add _ _ | .sub _ _ | .xor _ _ | .j _ _ | .jc _ _ | .ldr _ _ | .ldu _ _ _ | .ldl _ _ _ | .ldm _ _ | .stm _ _
  | .stb _ _ => true
  | .and _ _ | .or _ _ | .not _ _ | .shl _ _ | .shr _ _ | .mul _ _ | .div _ _ | .mod _ _ | .cmp _ _ | .ldb _ _ => false
  | .ori _ _ _ | .jp _ _ | .jz _ _ | .js _ _ | .jnc _ _ | .jnp _ _ | .jnz _ _ | .jns _ _ => false
  | .nop _ _ _ | .call _ _ _ | .ret _ _ _ | .halt _ _ _ => false

end Sys2Proof.Claims

open Sys2Proof Sys2Proof.Machine Sys2Proof.Claims

/-! ### Encoding -/

/-- Words written out from the byte column of R93 decode to the instructions R93 names, one or more of each of the twelve
classes of R84. -/
def Obligations.SpecWordsDecodeToTheirInstructions : Prop :=
  decodeWord hw 0x12000000 = .ok (.and 1 2) ∧ decodeWord hw 0x37000200 = .ok (.not 3 7)
    ∧ decodeWord hw 0x12000501 = .ok (.cmp 1 2) ∧ decodeWord hw 0xAF000101 = .ok (.sub 10 15)
    ∧ decodeWord hw 0x12000102 = .ok (.ldm 1 2) ∧ decodeWord hw 0x9A000203 = .ok (.stb 9 10)
    ∧ decodeWord hw 0x10123404 = .ok (.ldu 1 0 0x1234) ∧ decodeWord hw 0x00002A05 = .ok (.ldl 0 0 0x2A)
    ∧ decodeWord hw 0x10567806 = .ok (.ori 1 0 0x5678) ∧ decodeWord hw 0x1F000807 = .ok (.jns 1 15)
    ∧ decodeWord hw 0xCCBBAA08 = .ok (.nop 0xBBAA 12 12) ∧ decodeWord hw 0xCCBBAA09 = .ok (.call 0xBBAA 12 12)
    ∧ decodeWord hw 0x0302010A = .ok (.ret 0x0201 0 3) ∧ decodeWord hw 0x563412FF = .ok (.halt 0x3412 5 6)

/-- Decoding the encoding of any instruction gives it back and leaves the bytes after it, under every well-formed parameter
record, so under every `OPCODE_MAP` and `SUBOP_MAP` whose entries are distinct (R2, R7). -/
def Obligations.DecodingAnEncodingGivesItBack : Prop :=
  ∀ (c : Config), c.wellFormed = true → ∀ (i : Instr) (rest : List Byte), decode c (encode c i ++ rest) = .ok (i, rest)

/-- Decoding loses no bit: the encoding of what was decoded is the four bytes decoded, the ignored fields included, under
every parameter record. -/
def Obligations.EncodingADecodingGivesTheBytes : Prop :=
  ∀ (c : Config) (bytes : List Byte) (i : Instr) (rest : List Byte),
    decode c bytes = .ok (i, rest) → encode c i ++ rest = bytes

/-- What the spec says of its opcode table (R94, which it marks as its own inference from R82, R84 and R86): a word decodes to
an instruction exactly if it selects that instruction's row of the opcode table and its fields are
the instruction's; two rows that one word selects are one row; a word that selects no row is unknown. -/
def Obligations.DecoderFollowsTheOpcodeTable : Prop :=
  (∀ (w : Word) (i : Instr), decodeWord hw w = .ok i ↔
    (w &&& i.tableMask = i.tableMatch ∧ (i.op16Field hw).toNat = w.toNat / 2 ^ 8 % 2 ^ 16
      ∧ i.regFields.1.val = w.toNat / 2 ^ 28 ∧ i.regFields.2.val = w.toNat / 2 ^ 24 % 2 ^ 4))
  ∧ (∀ (w : Word) (i k : Instr), w &&& i.tableMask = i.tableMatch → w &&& k.tableMask = k.tableMatch →
      i.tableMask = k.tableMask ∧ i.tableMatch = k.tableMatch)
  ∧ (∀ w : Word, (∀ i : Instr, w &&& i.tableMask ≠ i.tableMatch) ↔ ∃ e, decodeWord hw w = .error e)

/-- The unknown encodings are exactly the unassigned opcodes 0x0B to 0xFE and the unlisted sub-ops of the five classes that
have sub-ops; every other opcode byte and operand field decodes, whatever the selector byte. -/
def Obligations.UnknownEncodingsAreExactlyThoseListed : Prop :=
  ∀ (opc : Byte) (op16 : Half) (sel : Byte),
    (∃ e, decodeFields hw opc op16 sel = .error e) ↔ UnknownEncoding opc.toNat op16.toNat

/-- A field that an instruction ignores has no effect on what it does: `from` in the I-form, the J-form and in `not`, `shl`,
`shr`; every field in the N-form. -/
def Obligations.IgnoredFieldsHaveNoEffect : Prop :=
  ∀ (s : State) (rT a b c d : Reg) (imm u v : Half),
    exec (.not rT a) s = exec (.not rT b) s ∧ exec (.shl rT a) s = exec (.shl rT b) s
    ∧ exec (.shr rT a) s = exec (.shr rT b) s
    ∧ exec (.ldu rT a imm) s = exec (.ldu rT b imm) s ∧ exec (.ldl rT a imm) s = exec (.ldl rT b imm) s
    ∧ exec (.ori rT a imm) s = exec (.ori rT b imm) s
    ∧ exec (.j rT a) s = exec (.j rT b) s ∧ exec (.jc rT a) s = exec (.jc rT b) s ∧ exec (.jp rT a) s = exec (.jp rT b) s
    ∧ exec (.jz rT a) s = exec (.jz rT b) s ∧ exec (.js rT a) s = exec (.js rT b) s
    ∧ exec (.jnc rT a) s = exec (.jnc rT b) s ∧ exec (.jnp rT a) s = exec (.jnp rT b) s
    ∧ exec (.jnz rT a) s = exec (.jnz rT b) s ∧ exec (.jns rT a) s = exec (.jns rT b) s
    ∧ exec (.nop u a b) s = exec (.nop v c d) s ∧ exec (.call u a b) s = exec (.call v c d) s
    ∧ exec (.ret u a b) s = exec (.ret v c d) s ∧ exec (.halt u a b) s = exec (.halt v c d) s

/-! ### The step -/

/-- A step runs the decoded instruction: where the fetch succeeds and the four bytes at pc decode to `i`, the step is `exec i`
with pc moved past the instruction, and nothing else before it. -/
def Obligations.StepRunsTheDecodedInstruction : Prop :=
  ∀ (s : State) (i : Instr), CanFetch s → decode hw (bytesAtPc s) = .ok (i, []) →
    step s = exec i { s with pc := s.pc + 4 }

/-- R33: a step in Halted changes nothing and returns halt; a step in Running returns halt exactly if it entered Halted. -/
def Obligations.AHaltedStepChangesNothing : Prop :=
  (∀ (s : State) (r : HaltReason), s.run = .halted r → step s = .next s ∧ s.signal = .halt)
  ∧ (∀ (s t : State), s.run = .running → step s = .next t →
      (t.signal = .halt ↔ ∃ r, t.run = .halted r) ∧ (t.signal = .goOn ↔ t.run = .running))

/-- The checks of the fetch in the order of R80 and R55, for every `MEM_SIZE` below 2^32, with the information each records
(R301; size and kind are the spec's decision D39) and the pc each leaves (the order of R80, as the table of R303 reads it,
decision D37); with `MEM_SIZE` a multiple of 4 the operand field and the selector byte never fault. At `MEM_SIZE` = 2^32, left
out here, the sums on pc wrap by the model's choice (log 11). -/
def Obligations.FetchChecksInOrder : Prop :=
  ∀ (c : Config) (s : State), c.memSize < 2 ^ 32 → s.run = .running →
    (c.memSize < s.pc.toNat + 1 →
      stepUnder c s = .next { s with run := .halted (.outOfBoundsAccess s.pc s.pc 1 .fetch) })
    ∧ (s.pc.toNat + 1 ≤ c.memSize → s.pc.toNat % 4 ≠ 0 →
      stepUnder c s = .next { s with pc := s.pc + 1, run := .halted (.alignmentFault s.pc) })
    ∧ (s.pc.toNat + 1 ≤ c.memSize → s.pc.toNat % 4 = 0 → c.memSize < s.pc.toNat + 3 →
      stepUnder c s = .next { s with pc := s.pc + 1, run := .halted (.outOfBoundsAccess s.pc (s.pc + 1) 2 .fetch) })
    ∧ (s.pc.toNat % 4 = 0 → c.memSize = s.pc.toNat + 3 →
      stepUnder c s = .next { s with pc := s.pc + 3, run := .halted (.outOfBoundsAccess s.pc (s.pc + 3) 1 .fetch) })
    ∧ (s.pc.toNat % 4 = 0 → s.pc.toNat + 4 ≤ c.memSize → ∀ i, decode c (bytesAtPc s) = .ok (i, []) →
      stepUnder c s = execUnder c i { s with pc := s.pc + 4 })
    ∧ (c.memSize % 4 = 0 → s.pc.toNat % 4 = 0 → s.pc.toNat + 1 ≤ c.memSize → s.pc.toNat + 4 ≤ c.memSize)

/-- R89, R204 and the family rules: on an unknown encoding the step raises UnimplementedOpcode(pc0, opc, op16) with pc at
`pc0 + 4`; under `UNKNOWN_OP_POLICY = Nop` it only moves pc; nothing else changes under either policy. -/
def Obligations.UnknownEncodingsRaiseUnimplementedOpcode : Prop :=
  ∀ (s : State) (opc lo hi sel : Byte), CanFetch s → bytesAtPc s = [opc, lo, hi, sel] →
    UnknownEncoding opc.toNat (lo.toNat + 256 * hi.toNat) →
    step s = .next { s with
      pc := s.pc + 4
      run := .halted (.unimplementedOpcode s.pc opc (BitVec.ofNat 16 (lo.toNat + 256 * hi.toNat))) }
    ∧ stepUnder { hw with unknownOpPolicy := .nop } s = .next { s with pc := s.pc + 4 }

/-- Every step of the machine answers a next state: a fault enters the Halted state and no instruction is refused. -/
def Obligations.EveryStepAnswersANextState : Prop :=
  ∀ s : State, ∃ t : State, step s = .next t

/-- Faults are precise (R304, marked as an inference from R302 and R80): a step that halts, by a fault or by `halt`, writes
no register, no flag and no memory byte: only pc and the run state differ; and no later instruction begins. -/
def Obligations.FaultsArePrecise : Prop :=
  ∀ (s t : State) (r : HaltReason), s.run = .running → step s = .next t → t.run = .halted r →
    t = { s with pc := t.pc, run := .halted r } ∧ step t = .next t

/-- Memory keeps its canonical form and lists no address outside memory, whatever step is taken. -/
def Obligations.EveryStepKeepsMemoryCanonical : Prop :=
  ∀ s t : State, s.memoryOk = true → step s = .next t → t.memoryOk = true

/-- The table of R303 as an invariant (the spec marks the table as its reading of R80, decision D37): the pc left in Halted
and the recorded information agree with the table of R303, the address recorded is out of bounds, and the recorded encoding
of an UnimplementedOpcode is an unknown one. -/
def Obligations.EveryStepKeepsTheHaltRecordConsistent : Prop :=
  ∀ s t : State, s.haltRecordOk = true → step s = .next t → t.haltRecordOk = true

/-- The reset state meets both invariants. Its registers, flags and memory bytes are the model's choice (log 1, log 2); the
same is stated of every launch in LaunchMeetsTheInvariants. -/
def Obligations.ResetMeetsTheInvariants : Prop :=
  State.reset.inv = true

/-- R25: after an instruction pc is `x[to]` for a taken jump, and `pc0 + 4` (the pc at dispatch) for every other instruction,
`halt` and a jump not taken included. -/
def Obligations.OnlyTakenJumpsMovePc : Prop :=
  ∀ (i : Instr) (s t : State), exec i s = .next t →
    t.pc = if takenJump i s.flags then s.reg i.regFields.1 else s.pc

/-- R28 and R29: the logic and the arithmetic instructions write all four flags, whatever they were, and read none; every
other instruction leaves them alone; only the conditional jumps read them. -/
def Obligations.OnlyLogicAndArithmeticWriteFlags : Prop :=
  ∀ (i : Instr) (s t : State), exec i s = .next t →
    (IsLogicOrArithmetic i → ∀ f, exec i { s with flags := f } = .next t)
    ∧ (¬ IsLogicOrArithmetic i → t.flags = s.flags)
    ∧ (¬ IsLogicOrArithmetic i → i.opClass ≠ .jump → ∀ f, exec i { s with flags := f } = .next { t with flags := f })
    ∧ (∀ rT rF f, i = .j rT rF → exec i { s with flags := f } = .next { t with flags := f })

/-- No instruction writes a register but its destination, and an instruction without one writes none. -/
def Obligations.OnlyTheDestinationIsWritten : Prop :=
  ∀ (i : Instr) (s t : State), exec i s = .next t → ∀ r : Reg, destination i ≠ some r → t.reg r = s.reg r

/-- Only `stm` and `stb` write memory, and only the bytes at the effective address; every other byte reads as before. -/
def Obligations.OnlyStoredBytesChange : Prop :=
  ∀ (i : Instr) (s t : State), s.mem.wf = true → exec i s = .next t →
    (storeTo i = none → SameMemory s t)
    ∧ (∀ rT n, storeTo i = some (rT, n) → SameMemoryOutside (s.effectiveAddress rT).toNat n s t)

/-- Only `halt` and an out-of-bounds data access change the run state while an instruction executes: `halt` to Halted(Halt),
the access to Halted(OutOfBoundsAccess) with its pc0, address, size and kind. -/
def Obligations.OnlyHaltAndBadAccessesStopTheEngine : Prop :=
  ∀ (i : Instr) (s t : State), exec i s = .next t →
    t.run = if i.opClass = .halt then .halted .halt else
      match badAccess i s with
      | some r => .halted r
      | none => s.run

/-- The machine of the dispatch is the parametric machine at this hardware's parameter values, the values are those of R7, and
in every well-formed parameter record `XLEN`, `NREG` and `ILEN` are the width of a word, the number of registers and the
length of every encoding (log 5). -/
def Obligations.TheHardwareIsTheParametricMachineAtItsValues : Prop :=
  (∀ (i : Instr) (s : State), exec i s = execUnder hw i s) ∧ (∀ s : State, step s = stepUnder hw s)
  ∧ (hw.xlen = 32 ∧ hw.nreg = 16 ∧ hw.ilen = 4 ∧ hw.memSize = 0x100000 ∧ hw.unknownOpPolicy = .fault
    ∧ hw.callretPolicy = .nop ∧ hw.parityWidth = 32 ∧ hw.orgPass1Literal = false ∧ hw.asmFullSet = false)
  ∧ ∀ c : Config, c.wellFormed = true →
    Word = BitVec c.xlen ∧ Reg = Fin c.nreg ∧ ∀ i : Instr, (encode c i).length = c.ilen

/-- The engine and the assembler do not touch each other's state: a step of the engine keeps the assembler's, and takes the
same engine state to the same engine state whatever the assembler's is; a step of the assembler keeps the engine's, and takes
the same assembler state to the same assembler state whatever the engine's is; a launch keeps the assembler's. That both parts
stand in one State, and that a launch keeps the assembler's, are the model's choices (log 6). -/
def Obligations.EngineAndAssemblerAreSeparate : Prop :=
  (∀ s t : State, step s = .next t → t.asm = s.asm)
  ∧ (∀ (s t : State) (a : AsmState), step s = .next t → step { s with asm := a } = .next { t with asm := a })
  ∧ (∀ s : State, s.asmStep = { s with asm := s.asmStep.asm })
  ∧ (∀ s u : State, s.asm = u.asm → s.asmStep.asm = u.asmStep.asm)
  ∧ ∀ (l : Launch) (s t : State), launch l s = .next t → t.asm = s.asm

/-! ### Flags -/

/-- R30, for every value of `PARITY_WIDTH`, 32 and 8 among them: SetFlags of a 64-bit intermediate writes all four flags so,
and nothing else; the right shift is the one exception, with the bit shifted out as its carry. -/
def Obligations.SetFlagsIsTheRuleOfTheSpec : Prop :=
  ∀ (c : Config) (s : State) (r64 : Wide),
    s.setFlags c r64 = { s with flags := (s.setFlags c r64).flags }
    ∧ ((s.setFlags c r64).flags.S = true ↔ 2 ^ 31 ≤ r64.toNat % 2 ^ 32)
    ∧ ((s.setFlags c r64).flags.Z = true ↔ r64.toNat % 2 ^ 32 = 0)
    ∧ ((s.setFlags c r64).flags.P = true ↔ EvenOnes c.parityWidth (r64.toNat % 2 ^ 32))
    ∧ ((s.setFlags c r64).flags.C = true ↔ 0xFFFFFFFF < r64.toNat)
    ∧ ∀ rT rF : Reg, ∃ t, execUnder c (.shr rT rF) s = .next t ∧ (t.flags.C = true ↔ (s.reg rT).toNat % 2 = 1)

/-! ### Logic -/

/-- R110, R111, R113: `and`, `or` and `xor`, bit by bit, with their encodings, flags and frame. -/
def Obligations.BitwiseInstructionsComplete : Prop :=
  EncodedAs 0x00 0x00 0x00 .and ∧ EncodedAs 0x00 0x01 0x00 .or ∧ EncodedAs 0x00 0x03 0x00 .xor
  ∧ Accepted "xor".toList
  ∧ ∀ (rT rF : Reg) (s : State),
    (∃ t, exec (.and rT rF) s = .next t
      ∧ (∀ k, k < 32 → (t.reg rT).getLsbD k = ((s.reg rT).getLsbD k && (s.reg rF).getLsbD k))
      ∧ FlagsOfResult t.flags (t.reg rT).toNat False ∧ OnlyRegisterAndFlags rT s t)
    ∧ (∃ t, exec (.or rT rF) s = .next t
      ∧ (∀ k, k < 32 → (t.reg rT).getLsbD k = ((s.reg rT).getLsbD k || (s.reg rF).getLsbD k))
      ∧ FlagsOfResult t.flags (t.reg rT).toNat False ∧ OnlyRegisterAndFlags rT s t)
    ∧ (∃ t, exec (.xor rT rF) s = .next t
      ∧ (∀ k, k < 32 → (t.reg rT).getLsbD k = ((s.reg rT).getLsbD k != (s.reg rF).getLsbD k))
      ∧ FlagsOfResult t.flags (t.reg rT).toNat False ∧ OnlyRegisterAndFlags rT s t)

/-- R112: `not`, the complement over 32 bits, whatever the from field. -/
def Obligations.NotCompletes : Prop :=
  EncodedAs 0x00 0x02 0x00 .not
  ∧ ∀ (rT rF : Reg) (s : State), ∃ t, exec (.not rT rF) s = .next t
    ∧ (t.reg rT).toNat = 2 ^ 32 - 1 - (s.reg rT).toNat
    ∧ FlagsOfResult t.flags (t.reg rT).toNat False ∧ OnlyRegisterAndFlags rT s t

/-- R114 and R115: the shifts by one, with the bit that fell off the shifted end as the carry. -/
def Obligations.ShiftsComplete : Prop :=
  EncodedAs 0x00 0x04 0x00 .shl ∧ EncodedAs 0x00 0x05 0x00 .shr
  ∧ ∀ (rT rF : Reg) (s : State),
    (∃ t, exec (.shl rT rF) s = .next t ∧ (t.reg rT).toNat = 2 * (s.reg rT).toNat % 2 ^ 32
      ∧ FlagsOfResult t.flags (t.reg rT).toNat (2 ^ 31 ≤ (s.reg rT).toNat) ∧ OnlyRegisterAndFlags rT s t)
    ∧ (∃ t, exec (.shr rT rF) s = .next t ∧ (t.reg rT).toNat = (s.reg rT).toNat / 2
      ∧ FlagsOfResult t.flags (t.reg rT).toNat ((s.reg rT).toNat % 2 = 1) ∧ OnlyRegisterAndFlags rT s t)

/-! ### Arithmetic -/

/-- R131, R132, R133: `add`, `sub` and `mul` modulo 2^32, carry exactly when the mathematical result leaves [0, 2^32). -/
def Obligations.AddSubMulComplete : Prop :=
  EncodedAs 0x01 0x00 0x00 .add ∧ EncodedAs 0x01 0x01 0x00 .sub ∧ EncodedAs 0x01 0x02 0x00 .mul
  ∧ Accepted "add".toList ∧ Accepted "sub".toList
  ∧ ∀ (rT rF : Reg) (s : State),
    (∃ t, exec (.add rT rF) s = .next t
      ∧ (t.reg rT).toNat = ((s.reg rT).toNat + (s.reg rF).toNat) % 2 ^ 32
      ∧ FlagsOfResult t.flags (t.reg rT).toNat (2 ^ 32 ≤ (s.reg rT).toNat + (s.reg rF).toNat)
      ∧ OnlyRegisterAndFlags rT s t)
    ∧ (∃ t, exec (.sub rT rF) s = .next t
      ∧ ((t.reg rT).toNat : Int) = ((s.reg rT).toNat - (s.reg rF).toNat : Int) % 2 ^ 32
      ∧ FlagsOfResult t.flags (t.reg rT).toNat ((s.reg rT).toNat < (s.reg rF).toNat)
      ∧ OnlyRegisterAndFlags rT s t)
    ∧ (∃ t, exec (.mul rT rF) s = .next t
      ∧ (t.reg rT).toNat = (s.reg rT).toNat * (s.reg rF).toNat % 2 ^ 32
      ∧ FlagsOfResult t.flags (t.reg rT).toNat (2 ^ 32 ≤ (s.reg rT).toNat * (s.reg rF).toNat)
      ∧ OnlyRegisterAndFlags rT s t)

/-- R134 and R135: unsigned division and remainder; by zero both yield 0, and nothing faults. -/
def Obligations.DivModComplete : Prop :=
  EncodedAs 0x01 0x03 0x00 .div ∧ EncodedAs 0x01 0x04 0x00 .mod
  ∧ ∀ (rT rF : Reg) (s : State),
    (∃ t, exec (.div rT rF) s = .next t
      ∧ (t.reg rT).toNat = (if (s.reg rF).toNat = 0 then 0 else (s.reg rT).toNat / (s.reg rF).toNat)
      ∧ FlagsOfResult t.flags (t.reg rT).toNat False ∧ OnlyRegisterAndFlags rT s t)
    ∧ (∃ t, exec (.mod rT rF) s = .next t
      ∧ (t.reg rT).toNat = (if (s.reg rF).toNat = 0 then 0 else (s.reg rT).toNat % (s.reg rF).toNat)
      ∧ FlagsOfResult t.flags (t.reg rT).toNat False ∧ OnlyRegisterAndFlags rT s t)

/-- R136: `cmp` writes no register and sets the flags of the difference, which are the flags `sub` sets from the same values.
-/
def Obligations.CmpCompletes : Prop :=
  EncodedAs 0x01 0x05 0x00 .cmp
  ∧ ∀ (rT rF : Reg) (s : State), ∃ t, exec (.cmp rT rF) s = .next t ∧ OnlyFlags s t
    ∧ FlagsOfResult t.flags ((2 ^ 32 + (s.reg rT).toNat - (s.reg rF).toNat) % 2 ^ 32) ((s.reg rT).toNat < (s.reg rF).toNat)
    ∧ ∀ u, exec (.sub rT rF) s = .next u → t.flags = u.flags

/-! ### Load and store -/

/-- R151: `ldr` copies a register. -/
def Obligations.LdrCompletes : Prop :=
  EncodedAs 0x02 0x00 0x00 .ldr ∧ Accepted "ldr".toList
  ∧ ∀ (rT rF : Reg) (s : State), ∃ t, exec (.ldr rT rF) s = .next t ∧ t.reg rT = s.reg rF ∧ OnlyRegister rT s t

/-- R152 and R153: `ldm` and `ldb`, little-endian and zero-extended, at any alignment; out of bounds, OutOfBoundsAccess and no
register written. -/
def Obligations.LoadsComplete : Prop :=
  EncodedAs 0x02 0x01 0x00 .ldm ∧ EncodedAs 0x02 0x02 0x00 .ldb ∧ Accepted "ldm".toList ∧ AcceptedOnlyInFullSet "ldb".toList
  ∧ ∀ (rT rF : Reg) (s : State),
    (∃ t, exec (.ldm rT rF) s = .next t
      ∧ if (s.reg rF).toNat + 4 ≤ 0x100000 then
          (t.reg rT).toNat = (s.mem.read (s.reg rF).toNat).toNat + 2 ^ 8 * (s.mem.read ((s.reg rF).toNat + 1)).toNat
            + 2 ^ 16 * (s.mem.read ((s.reg rF).toNat + 2)).toNat + 2 ^ 24 * (s.mem.read ((s.reg rF).toNat + 3)).toNat
          ∧ OnlyRegister rT s t
        else OnlyHalts (.outOfBoundsAccess (s.pc - 4) (s.reg rF) 4 .read) s t)
    ∧ (∃ t, exec (.ldb rT rF) s = .next t
      ∧ if (s.reg rF).toNat < 0x100000 then
          (t.reg rT).toNat = (s.mem.read (s.reg rF).toNat).toNat ∧ OnlyRegister rT s t
        else OnlyHalts (.outOfBoundsAccess (s.pc - 4) (s.reg rF) 1 .read) s t)

/-- R154 and R155: `stm` and `stb` store the bytes of `x[F]` little-endian at the effective address `x[T]` and change nothing
else; out of bounds, OutOfBoundsAccess and no byte written. -/
def Obligations.StoresComplete : Prop :=
  EncodedAs 0x03 0x01 0x00 .stm ∧ EncodedAs 0x03 0x02 0x00 .stb ∧ Accepted "stm".toList ∧ Accepted "stb".toList
  ∧ ∀ (rT rF : Reg) (s : State), s.mem.wf = true →
    s.effectiveAddress rT = s.reg rT
    ∧ (∃ t, exec (.stm rT rF) s = .next t
      ∧ if (s.effectiveAddress rT).toNat + 4 ≤ 0x100000 then
          (∀ k, k < 4 → (t.mem.read ((s.effectiveAddress rT).toNat + k)).toNat = (s.reg rF).toNat / 256 ^ k % 256)
          ∧ SameMemoryOutside (s.effectiveAddress rT).toNat 4 s t
          ∧ SameRegisters s t ∧ t.flags = s.flags ∧ SameControl s t
        else OnlyHalts (.outOfBoundsAccess (s.pc - 4) (s.reg rT) 4 .write) s t)
    ∧ (∃ t, exec (.stb rT rF) s = .next t
      ∧ if (s.effectiveAddress rT).toNat < 0x100000 then
          (t.mem.read (s.effectiveAddress rT).toNat).toNat = (s.reg rF).toNat % 256
          ∧ SameMemoryOutside (s.effectiveAddress rT).toNat 1 s t
          ∧ SameRegisters s t ∧ t.flags = s.flags ∧ SameControl s t
        else OnlyHalts (.outOfBoundsAccess (s.pc - 4) (s.reg rT) 1 .write) s t)

/-- Mixed widths see one byte array (R54, which the spec marks as its inference from R50 and R53): a byte read at `a+k` of a
word written at `a` is byte `k` of the word, and a byte written into a word changes only that byte of a later word read. -/
def Obligations.MixedWidthAccessesSeeOneByteArray : Prop :=
  (∀ (m : Memory) (a v k : Nat), m.wf = true → k < 4 →
    ((m.writeLE a 4 v).readLE (a + k) 1) = v / 256 ^ k % 256)
  ∧ (∀ (m : Memory) (a v k j : Nat), m.wf = true → k < 4 → j < 4 →
    (m.writeLE (a + k) 1 v).readLE a 4 / 256 ^ j % 256 = if j = k then v % 256 else m.readLE a 4 / 256 ^ j % 256)

/-- A store is seen by the next step's fetch: after `stm` to the address of the next instruction, the next step runs the word
just stored. -/
def Obligations.AStoredWordIsTheNextInstruction : Prop :=
  ∀ (rT rF : Reg) (s t : State) (i : Instr), CanFetch s → s.mem.wf = true → s.reg rT = s.pc →
    exec (.stm rT rF) s = .next t → decodeWord hw (s.reg rF) = .ok i →
    step t = exec i { t with pc := t.pc + 4 }

/-! ### Immediates -/

/-- R170, R171, R172: `ldu`, `ldl` and `ori`; no flag is written. -/
def Obligations.ImmediatesComplete : Prop :=
  EncodedWithImmediate 0x04 .ldu ∧ EncodedWithImmediate 0x05 .ldl ∧ EncodedWithImmediate 0x06 .ori
  ∧ Accepted "ldu".toList ∧ Accepted "ldl".toList ∧ AcceptedOnlyInFullSet "ori".toList
  ∧ ∀ (rT rF : Reg) (imm : Half) (s : State),
    (∃ t, exec (.ldu rT rF imm) s = .next t ∧ (t.reg rT).toNat = 2 ^ 16 * imm.toNat ∧ OnlyRegister rT s t)
    ∧ (∃ t, exec (.ldl rT rF imm) s = .next t ∧ (t.reg rT).toNat = imm.toNat ∧ OnlyRegister rT s t)
    ∧ (∃ t, exec (.ori rT rF imm) s = .next t
      ∧ (∀ k, k < 32 → (t.reg rT).getLsbD k = ((s.reg rT).getLsbD k || imm.getLsbD k)) ∧ OnlyRegister rT s t)

/-- The source's first testable property (R173, marked as an inference from R170 and R172): `ldu` and then `ori` on one
register build the 32-bit constant of the two immediates and leave the flags alone. -/
def Obligations.LduThenOriBuildsAConstant : Prop :=
  ∀ (rT a b : Reg) (hi lo : Half) (s t u : State), exec (.ldu rT a hi) s = .next t → exec (.ori rT b lo) t = .next u →
    (u.reg rT).toNat = 2 ^ 16 * hi.toNat + lo.toNat ∧ u.flags = s.flags ∧ SameRegistersBut rT s u

/-! ### Jumps -/

/-- R181 to R189: each jump's encoding and condition; taken, pc is the whole of `x[T]`, else pc keeps the fetch advance; no
register, flag or memory byte is written. -/
def Obligations.JumpsComplete : Prop :=
  EncodedAs 0x07 0x00 0x00 .j ∧ EncodedAs 0x07 0x01 0x00 .jc ∧ EncodedAs 0x07 0x02 0x00 .jp ∧ EncodedAs 0x07 0x03 0x00 .jz
  ∧ EncodedAs 0x07 0x04 0x00 .js ∧ EncodedAs 0x07 0x05 0x00 .jnc ∧ EncodedAs 0x07 0x06 0x00 .jnp
  ∧ EncodedAs 0x07 0x07 0x00 .jnz ∧ EncodedAs 0x07 0x08 0x00 .jns ∧ Accepted "j".toList ∧ Accepted "jc".toList
  ∧ ∀ (rT rF : Reg) (s : State),
    exec (.j rT rF) s = .next { s with pc := s.reg rT }
    ∧ exec (.jc rT rF) s = .next { s with pc := if s.flags.C = true then s.reg rT else s.pc }
    ∧ exec (.jp rT rF) s = .next { s with pc := if s.flags.P = true then s.reg rT else s.pc }
    ∧ exec (.jz rT rF) s = .next { s with pc := if s.flags.Z = true then s.reg rT else s.pc }
    ∧ exec (.js rT rF) s = .next { s with pc := if s.flags.S = true then s.reg rT else s.pc }
    ∧ exec (.jnc rT rF) s = .next { s with pc := if s.flags.C = false then s.reg rT else s.pc }
    ∧ exec (.jnp rT rF) s = .next { s with pc := if s.flags.P = false then s.reg rT else s.pc }
    ∧ exec (.jnz rT rF) s = .next { s with pc := if s.flags.Z = false then s.reg rT else s.pc }
    ∧ exec (.jns rT rF) s = .next { s with pc := if s.flags.S = false then s.reg rT else s.pc }

/-- What R180 says of targets (marked as an inference from the jump shape and R80): a jump does not check its target; a
target outside memory gives OutOfBoundsAccess at the next step's fetch, a misaligned one inside memory AlignmentFault with pc
at the target plus 1. -/
def Obligations.ABadJumpTargetFaultsAtTheNextFetch : Prop :=
  ∀ (i : Instr) (s t : State), s.run = .running → takenJump i s.flags = true → exec i s = .next t →
    t.run = .running
    ∧ (0x100000 ≤ (s.reg i.regFields.1).toNat →
      step t = .next { t with run := .halted (.outOfBoundsAccess t.pc t.pc 1 .fetch) })
    ∧ ((s.reg i.regFields.1).toNat < 0x100000 → (s.reg i.regFields.1).toNat % 4 ≠ 0 →
      step t = .next { t with pc := s.reg i.regFields.1 + 1, run := .halted (.alignmentFault (s.reg i.regFields.1)) })

/-! ### Control -/

/-- R200 and R201: `nop` changes nothing; `halt` enters Halted(Halt) and changes nothing else; the bytes after either opcode
are not checked. -/
def Obligations.NopAndHaltComplete : Prop :=
  EncodedByOpcode 0x08 .nop ∧ EncodedByOpcode 0xFF .halt ∧ AcceptedOnlyInFullSet "nop".toList
  ∧ ∀ (op16 : Half) (rT rF : Reg) (s : State),
    exec (.nop op16 rT rF) s = .next s
    ∧ exec (.halt op16 rT rF) s = .next { s with run := .halted .halt }
    ∧ step { s with run := .halted .halt } = .next { s with run := .halted .halt }
    ∧ RunState.exitCode (.halted .halt) = some 0

/-- R202 and R203: the reserved `call` and `ret` do nothing under this hardware's `CALLRET_POLICY`, Nop, and raise
UnimplementedOpcode under `Fault`; under neither do they push, write a register or jump. -/
def Obligations.CallAndRetComplete : Prop :=
  EncodedByOpcode 0x09 .call ∧ EncodedByOpcode 0x0A .ret
  ∧ ∀ (op16 : Half) (rT rF : Reg) (s : State),
    exec (.call op16 rT rF) s = .next s ∧ exec (.ret op16 rT rF) s = .next s
    ∧ execUnder { hw with callretPolicy := .fault } (.call op16 rT rF) s
        = .next { s with run := .halted (.unimplementedOpcode (s.pc - 4) 0x09 op16) }
    ∧ execUnder { hw with callretPolicy := .fault } (.ret op16 rT rF) s
        = .next { s with run := .halted (.unimplementedOpcode (s.pc - 4) 0x0A op16) }

/-! ### Launch, run, host -/

/-- R330 to R332: a launch leaves pc 0, Running, the registers and flags it is given, and memory the image over the fill;
every fill is a memory; an image longer than memory is refused. -/
def Obligations.LaunchIsTheResetOfTheSpec : Prop :=
  (∀ (l : Launch) (s : State), l.fill.wf = true → l.image.length ≤ 0x100000 →
    ∃ t, launch l s = .next t ∧ t.pc = 0 ∧ t.run = .running ∧ t.x = l.regs ∧ t.flags = l.flags
      ∧ (∀ i, (h : i < l.image.length) → t.mem.read i = l.image[i])
      ∧ (∀ i, l.image.length ≤ i → t.mem.read i = l.fill.read i))
  ∧ (∀ (l : Launch) (s : State), 0x100000 < l.image.length → launch l s = .refused .imageLongerThanMemory)
  ∧ (∀ (f : Nat → Byte), ∃ m : Memory, m.wf = true ∧ m.below 0x100000 = true ∧ ∀ i, i < 0x100000 → m.read i = f i)

/-- Every launch that is not refused starts the engine in a state that meets both invariants. -/
def Obligations.LaunchMeetsTheInvariants : Prop :=
  ∀ (l : Launch) (s t : State), l.fill.wf = true → l.fill.below 0x100000 = true → launch l s = .next t → t.inv = true

/-- R333 and R342: a run ends at the first step that leaves the engine Halted, and that state is the final one; a run that
uses up its budget leaves the engine Running, with no halt reason. -/
def Obligations.ARunEndsAtTheFirstHalt : Prop :=
  ∀ (n : Nat) (s : State), s.run = .running →
    (∀ t, runFor n s = .halted t ↔
      ∃ k u, k < n ∧ core.run k s = .next u ∧ u.run = .running ∧ step u = .next t ∧ t.run.isHalted = true)
    ∧ (∀ t, runFor n s = .outOfFuel t ↔ core.run n s = .next t ∧ t.run = .running)

/-- What the trace port shows (R320), and the exit codes of the halt reasons (R321). That the trace shows the run state, which
R302 says the host sees by R320 and R321 but the list of R320 does not name, is the model's choice (log 12), and so is `none`
for a byte outside memory, where R320 says only that showing it is no access and does not fault (log 13). -/
def Obligations.HostSeesTheStateAndTheExitCode : Prop :=
  (∀ s : State, s.trace.x = s.x ∧ s.trace.flags = s.flags ∧ s.trace.pc = s.pc ∧ s.trace.run = s.run
    ∧ s.trace.raw.length = 4
    ∧ ∀ k, (h : k < s.trace.raw.length) →
      s.trace.raw[k] = if s.pc.toNat + k < 0x100000 then some (s.mem.read (s.pc.toNat + k)) else none)
  ∧ RunState.exitCode .running = none ∧ RunState.exitCode (.halted .halt) = some 0
  ∧ (∀ p, RunState.exitCode (.halted (.alignmentFault p)) = some 1)
  ∧ (∀ p a n k, RunState.exitCode (.halted (.outOfBoundsAccess p a n k)) = some 2)
  ∧ (∀ p o v, RunState.exitCode (.halted (.unimplementedOpcode p o v)) = some 3)

/-! ### The assembler -/

/-- Every source text is assembled to an end: after one step a line and one at each pass's end, the assembler is Done or
Failed, and no later step changes it (R246 to R248). -/
def Obligations.EveryAssemblyFinishes : Prop :=
  ∀ (c : Config) (source : List Char),
    (assemble c source).result ≠ none ∧ ∀ n, AsmState.steps c n (assemble c source) = assemble c source

/-- R266: the image of a successful assembly is the concatenation, in line order, of the 4-byte encodings of the instructions
its lines with a mnemonic other than `org` assemble to under the final label table, with no padding. -/
def Obligations.TheImageIsItsInstructions : Prop :=
  ∀ (c : Config) (source : List Char) (bytes : List Byte), (assemble c source).result = some (.image bytes) →
    ∃ is : List Instr, bytes = is.flatMap (encode c)
      ∧ List.Forall₂ (AssemblesTo c (assemble c source).labels) ((splitLines source).filter emitsInstruction) is
      ∧ bytes.length = 4 * ((splitLines source).filter emitsInstruction).length
      ∧ ∀ i ∈ is, i.wellFormed = true

/-- What R245 says of the counter (marked as an inference from R242 and R243): without `ORG_PASS1_LITERAL`, the location
counter at each line of pass 2 is its value at that line of pass 1. -/
def Obligations.TheCounterAgreesInBothPasses : Prop :=
  ∀ (c : Config) (source : List Char) (n : Nat), c.orgPass1Literal = false → n ≤ (splitLines source).length →
    (AsmState.steps c ((splitLines source).length + 1 + n) (AsmState.start source)).phase = .pass2 →
    (AsmState.steps c ((splitLines source).length + 1 + n) (AsmState.start source)).lc
      = (AsmState.steps c n (AsmState.start source)).lc

/-- R228: a source with a line that does not tokenize fails in pass 1, at that line or before it, at that line with the
tokenizer's error, and "Pass 2" is never written; a parse error that an assembly ends with is that of the first line that does
not tokenize. -/
def Obligations.ParseErrorsAreFoundInPassOne : Prop :=
  (∀ (c : Config) (source : List Char) (j : Nat) (text : List Char) (e : AsmError),
    (splitLines source)[j]? = some text → tokenize text = .error e →
    ∃ n kind, (assemble c source).result = some (.error n kind) ∧ n ≤ j + 1 ∧ (n = j + 1 → kind = e)
      ∧ (assemble c source).status = [.pass1])
  ∧ (∀ (c : Config) (source : List Char) (n : Nat) (kind : AsmError),
    (assemble c source).result = some (.error n kind) → kind.isParseError = true →
    (∃ text, (splitLines source)[n - 1]? = some text ∧ tokenize text = .error kind)
      ∧ ∀ m text, m + 1 < n → (splitLines source)[m]? = some text → ∃ tok, tokenize text = .ok tok)

/-- R250: a source that defines one label on two lines fails in pass 1, at the second definition or before it, so before any
byte is emitted. That the output is then read as the empty list the pass started with is the model's choice (log 8). -/
def Obligations.DuplicateLabelsAreRejected : Prop :=
  ∀ (c : Config) (source : List Char) (j k : Nat) (text₁ text₂ : List Char) (tok₁ tok₂ : Tokens) (name : List Char),
    j < k → (splitLines source)[j]? = some text₁ → (splitLines source)[k]? = some text₂ →
    tokenize text₁ = .ok tok₁ → tokenize text₂ = .ok tok₂ → tok₁.label = some name → tok₂.label = some name →
    ∃ n kind, (assemble c source).result = some (.error n kind) ∧ n ≤ k + 1 ∧ (n = k + 1 → kind = .duplicateLabel)
      ∧ (assemble c source).status = [.pass1] ∧ (assemble c source).out = []

/-- The names of the label table stay unique, in every step of the assembler from any state in which they are. -/
def Obligations.EveryAssemblerStepKeepsLabelsUnique : Prop :=
  ∀ (c : Config) (a : AsmState), a.labelsUnique = true → (a.step c).labelsUnique = true

/-- The label table is built in pass 1 and read-only in pass 2, and no step changes the source lines. -/
def Obligations.PassTwoOnlyReadsTheLabels : Prop :=
  ∀ (c : Config) (a : AsmState), (a.step c).lines = a.lines ∧ (a.phase ≠ .pass1 → (a.step c).labels = a.labels)

/-- The location counter never passes 2^32 in pass 1, whichever way `org` is read: a line with a mnemonic that advances it
advances it by 4, and is LocationCounterOverflow if that takes it past 2^32. A counter of exactly 2^32, which R240's UInt32
does not hold and R242's check allows, is the model's reading (log 4). -/
def Obligations.TheCounterStaysInTheAddressSpace : Prop :=
  (∀ (c : Config) (a : AsmState), a.phase = .pass1 → a.lc ≤ 2 ^ 32 → (a.step c).lc ≤ 2 ^ 32)
  ∧ ∀ (c : Config) (a : AsmState) (tok : Tokens) (name : List Char),
    Processes a .pass1 tok → LabelIsNew a tok → tok.mnemonic = some name →
    (name ≠ "org".toList ∨ c.orgPass1Literal = true) →
    (2 ^ 32 < a.lc + 4 → (a.step c).phase = .failed a.line .locationCounterOverflow)
    ∧ (a.lc + 4 ≤ 2 ^ 32 → LineDone a (a.step c) (a.lc + 4) [])

/-- R247: Done and Failed are terminal, and a failure gives no image. -/
def Obligations.DoneAndFailedAreTerminal : Prop :=
  ∀ (c : Config) (a : AsmState), (a.phase = .done → a.step c = a)
    ∧ ∀ n kind, a.phase = .failed n kind → a.step c = a ∧ a.result = some (.error n kind)

/-- R243 and R271: when `org` is accepted, with what counter, and which error each bad argument gives; an `org` line sets the
counter to that value and emits no bytes, in pass 2 and, without `ORG_PASS1_LITERAL`, in pass 1; with `ORG_PASS1_LITERAL` pass
1 does not look at the argument and advances the counter by 4. That this advance may reach a counter of exactly 2^32 is the
model's reading (log 4). -/
def Obligations.OrgFollowsItsRule : Prop :=
  (∀ (arg : Option Argument) (v : Nat), applyOrg arg = .ok v ↔
    ∃ item, arg = some (.one item) ∧ parseImmediate item = some v ∧ v ≤ 0xFFFFFFFF ∧ v % 4 = 0)
  ∧ (∀ arg, (∀ item, arg ≠ some (.one item)) → applyOrg arg = .error .badArgument)
  ∧ (∀ item, parseImmediate item = none → applyOrg (some (.one item)) = .error .badImmediate)
  ∧ (∀ item v, parseImmediate item = some v → 0xFFFFFFFF < v → applyOrg (some (.one item)) = .error .immediateOutOfRange)
  ∧ (∀ item v, parseImmediate item = some v → v ≤ 0xFFFFFFFF → v % 4 ≠ 0 →
      applyOrg (some (.one item)) = .error .misalignedOrg)
  ∧ ∀ (c : Config) (a : AsmState) (tok : Tokens), tok.mnemonic = some "org".toList →
    (Processes a .pass1 tok → LabelIsNew a tok →
      (c.orgPass1Literal = false →
        (∀ v, applyOrg tok.argument = .ok v → LineDone a (a.step c) v [])
        ∧ ∀ e, applyOrg tok.argument = .error e → (a.step c).phase = .failed a.line e)
      ∧ (c.orgPass1Literal = true → a.lc + 4 ≤ 2 ^ 32 → LineDone a (a.step c) (a.lc + 4) []))
    ∧ (Processes a .pass2 tok →
      (∀ v, applyOrg tok.argument = .ok v → LineDone a (a.step c) v [])
      ∧ ∀ e, applyOrg tok.argument = .error e → (a.step c).phase = .failed a.line e)

/-- R264: an immediate item is one or more of the digits 0-9, or `$` and one or more of the digits 0-9, a-f, A-F, with the
exact value in base 10 or 16; any other item is none. -/
def Obligations.ImmediateItemsHaveTheirValue : Prop :=
  ∀ (item : List Char) (v : Nat), parseImmediate item = some v ↔
    IsNumeral 10 decimalDigits item v ∨ ∃ text, item = '$' :: text ∧ IsNumeral 16 hexadecimalDigits text v

/-- R263: a register item is exactly the register's name. -/
def Obligations.RegisterItemsAreTheRegisterNames : Prop :=
  ∀ (item : List Char) (r : Reg), parseRegister item = some r ↔ item = regName r

/-- The assembler and the engine share one table: assembling the spelling of any canonical instruction with `ASM_FULL_SET` gives
its four bytes, which decode to it (R2, R93, R262). -/
def Obligations.AssemblingASpellingGivesItsBytes : Prop :=
  ∀ i : Instr, i.wellFormed = true →
    (assemble { hw with asmFullSet := true } (spelling i)).result = some (.image (encode hw i))
    ∧ decode hw (encode hw i) = .ok (i, [])

/-- R260: the names accepted by default and with `ASM_FULL_SET`, besides `org`; by default the spelling of an instruction
outside the table is UnknownMnemonic. -/
def Obligations.TheDefaultAssemblerAcceptsItsTable : Prop :=
  (∀ name : List Char, Accepted name ↔
    name ∈ ["add", "sub", "xor", "j", "jc", "ldr", "ldu", "ldl", "ldm", "stm", "stb"].map String.toList)
  ∧ (∀ name : List Char, AcceptedOnlyInFullSet name ↔
    name ∈ ["and", "or", "not", "shl", "shr", "mul", "div", "mod", "cmp", "ldb", "ori", "jp", "jz", "js", "jnc", "jnp", "jnz",
      "jns", "nop", "call", "ret", "halt"].map String.toList)
  ∧ ∀ i : Instr, i.wellFormed = true → (assemble hw (spelling i)).result =
    if inDefaultSet i then some (.image (encode hw i)) else some (.error 1 .unknownMnemonic)

/-- What R251 and R267 say of a label's value (both marked as inferences, from R242, R265 and R266): a label gets the
counter's value at its line, before the line's mnemonic advances it; in a successful assembly that is the pass-1 counter there,
and with no `org` line it is 4 for every line before it that emits an instruction, so the byte offset in the image of the
instruction that follows the label. That the label is recorded also where the line's own counter or `org` check then fails is
the model's choice (log 8), and that a label may have the value 2^32, or in states no run
reaches one above it, is its reading of the counter (log 4). -/
def Obligations.LabelsHaveTheCounterOfTheirLine : Prop :=
  (∀ (c : Config) (a : AsmState) (tok : Tokens) (name : List Char),
    Processes a .pass1 tok → LabelIsNew a tok → tok.label = some name →
    ∀ n v, (n, v) ∈ (a.step c).labels ↔ (n, v) ∈ a.labels ∨ (n = name ∧ v = a.lc))
  ∧ ∀ (c : Config) (source : List Char) (bytes : List Byte) (j : Nat) (text : List Char) (tok : Tokens) (name : List Char),
    (assemble c source).result = some (.image bytes) → (splitLines source)[j]? = some text →
    tokenize text = .ok tok → tok.label = some name → ∀ v,
    ((name, v) ∈ (assemble c source).labels ↔ v = (AsmState.steps c j (AsmState.start source)).lc)
    ∧ (HasNoOrg source →
      ((name, v) ∈ (assemble c source).labels ↔ v = 4 * (((splitLines source).take j).filter emitsInstruction).length))

/-- R265: in `ldl`, `ldu` and `ori` an item that is a label's name stands for the label's value: a name the table does not hold
is UndefinedLabel, a value above 0xFFFF is ImmediateOutOfRange, and any other is the immediate of the instruction emitted; a
label's name is neither a register nor an immediate, so no other argument accepts it. That the counter after the line is
`lc + 4` without a wrap, at 2^32 and above too, is the model's reading (log 4). -/
def Obligations.LabelReferencesGiveTheLabelsValue : Prop :=
  (∀ (c : Config) (a : AsmState) (tok : Tokens) (name : List Char) (mk : Reg → Half → Instr) (X : Reg) (item : List Char),
    Processes a .pass2 tok → tok.mnemonic = some name → TakesAValue c name mk →
    tok.argument = some (.two (regName X) item) → IsLabelItem item →
    ((∀ v, (item, v) ∉ a.labels) → (a.step c).phase = .failed a.line .undefinedLabel)
    ∧ ∀ v, a.labelsUnique = true → (item, v) ∈ a.labels →
      (0xFFFF < v → (a.step c).phase = .failed a.line .immediateOutOfRange)
      ∧ (v ≤ 0xFFFF → LineDone a (a.step c) (a.lc + 4) (encode c (mk X (BitVec.ofNat 16 v)))))
  ∧ ∀ item : List Char, IsLabelItem item → parseRegister item = none ∧ parseImmediate item = none
end

