-- ==== Sys2Proof/Laws/Assembler.lean ====
section
/-! SUPPORT. What each piece of the assembler can do, said once; later proofs cite these and do not unfold it. -/

namespace Sys2Proof.Machine

/-! ### `fail` and `beginPass2`, field by field -/

@[simp] theorem fail_phase (a : AsmState) (e : AsmError) : (a.fail e).phase = .failed a.line e := rfl
@[simp] theorem fail_lines (a : AsmState) (e : AsmError) : (a.fail e).lines = a.lines := rfl
@[simp] theorem fail_line (a : AsmState) (e : AsmError) : (a.fail e).line = a.line := rfl
@[simp] theorem fail_lc (a : AsmState) (e : AsmError) : (a.fail e).lc = a.lc := rfl
@[simp] theorem fail_labels (a : AsmState) (e : AsmError) : (a.fail e).labels = a.labels := rfl
@[simp] theorem fail_out (a : AsmState) (e : AsmError) : (a.fail e).out = a.out := rfl
@[simp] theorem fail_status (a : AsmState) (e : AsmError) : (a.fail e).status = a.status := rfl

@[simp] theorem beginPass2_phase (a : AsmState) : a.beginPass2.phase = .pass2 := rfl
@[simp] theorem beginPass2_lines (a : AsmState) : a.beginPass2.lines = a.lines := rfl
@[simp] theorem beginPass2_line (a : AsmState) : a.beginPass2.line = 1 := rfl
@[simp] theorem beginPass2_lc (a : AsmState) : a.beginPass2.lc = 0 := rfl
@[simp] theorem beginPass2_labels (a : AsmState) : a.beginPass2.labels = a.labels := rfl
@[simp] theorem beginPass2_out (a : AsmState) : a.beginPass2.out = [] := rfl
@[simp] theorem beginPass2_status (a : AsmState) : a.beginPass2.status = a.status ++ [.pass2] := rfl

/-! ### Several steps -/

theorem steps_add (c : Config) (m : Nat) : ∀ (n : Nat) (a : AsmState),
    AsmState.steps c (n + m) a = AsmState.steps c m (AsmState.steps c n a)
  | 0, a => by simp [AsmState.steps]
  | n + 1, a => by
    rw [Nat.succ_add]
    exact steps_add c m n (a.step c)

theorem steps_succ (c : Config) (n : Nat) (a : AsmState) :
    AsmState.steps c (n + 1) a = (AsmState.steps c n a).step c :=
  steps_add c 1 n a

/-! ### The label table -/

/-- A name looks up to nothing exactly if the table has no entry for it. -/
theorem lookupLabel_eq_none_iff {T : List (List Char × Nat)} {name : List Char} :
    lookupLabel T name = none ↔ ∀ v, (name, v) ∉ T := by
  induction T with
  | nil => simp [lookupLabel]
  | cons p T ih =>
    obtain ⟨n, w⟩ := p
    by_cases hn : n = name
    · subst hn
      exact iff_of_false (by simp [lookupLabel]) fun h => h w List.mem_cons_self
    · simp [lookupLabel, hn, ih, Ne.symm hn]

/-- Where the names are unique, a name looks up to its entry's value, wherever the entry stands (R240: no rule depends on the
order of the entries). -/
theorem lookupLabel_of_mem {T : List (List Char × Nat)} {name : List Char} {v : Nat} (hu : (T.map Prod.fst).Nodup)
    (h : (name, v) ∈ T) : lookupLabel T name = some v := by
  induction T with
  | nil => cases h
  | cons p T ih =>
    obtain ⟨n, w⟩ := p
    simp only [List.map_cons, List.nodup_cons] at hu
    rcases List.mem_cons.1 h with e | e
    · cases e
      simp [lookupLabel]
    · have hn : n ≠ name := by
        rintro rfl
        exact hu.1 (List.mem_map.2 ⟨_, e, rfl⟩)
      simp [lookupLabel, hn, ih hu.2 e]

/-! ### The two kinds of line -/

/-- A label is recorded once, at the counter's value, or there is none. -/
theorem defineLabel_cases {a b : AsmState} {label : Option (List Char)} (h : a.defineLabel label = .ok b) :
    (label = none ∧ b = a)
    ∨ ∃ name, label = some name ∧ lookupLabel a.labels name = none ∧ b = { a with labels := (name, a.lc) :: a.labels } := by
  unfold AsmState.defineLabel at h
  split at h
  · cases h
    exact .inl ⟨rfl, rfl⟩
  · rename_i name
    split at h
    · cases h
    · rename_i hn
      cases h
      exact .inr ⟨name, rfl, by simpa using hn, rfl⟩

/-- A pass-1 line fails with one error, or records its label and moves on with a new counter. -/
theorem pass1Line_cases (c : Config) (a : AsmState) (text : List Char) :
    (∃ e b, a.pass1Line c text = AsmState.fail b e ∧ (b = a ∨ ∃ name, b = { a with labels := (name, a.lc) :: a.labels })
        ∧ ∀ e', tokenize text = .error e' → e = e' ∧ b = a)
    ∨ ∃ tok b lc, tokenize text = .ok tok ∧ a.defineLabel tok.label = .ok b ∧ pass1Counter c b.lc tok = .ok lc
        ∧ a.pass1Line c text = { b with lc := lc, line := b.line + 1 } := by
  unfold AsmState.pass1Line
  rcases ht : tokenize text with e | tok
  · exact .inl ⟨e, a, rfl, .inl rfl, fun _ h => ⟨Except.error.inj h, rfl⟩⟩
  · simp only
    rcases hd : a.defineLabel tok.label with e | b
    · exact .inl ⟨e, a, rfl, .inl rfl, fun _ h => by cases h⟩
    · simp only
      rcases hp : pass1Counter c b.lc tok with e | lc
      · refine .inl ⟨e, b, rfl, ?_, fun _ h => by cases h⟩
        rcases defineLabel_cases hd with ⟨_, hb⟩ | ⟨name, _, _, hb⟩
        · exact .inl hb
        · exact .inr ⟨name, hb⟩
      · exact .inr ⟨tok, b, lc, rfl, hd, hp, rfl⟩

/-- A pass-2 line fails with one error, or it has no mnemonic, or it is an `org`, or it emits one instruction. -/
theorem pass2Line_cases (c : Config) (a : AsmState) (text : List Char) :
    (∃ e, a.pass2Line c text = a.fail e)
    ∨ ∃ tok, tokenize text = .ok tok ∧
      ((tok.mnemonic = none ∧ a.pass2Line c text = { a with line := a.line + 1 })
      ∨ (∃ lc, tok.mnemonic = some orgName ∧ applyOrg tok.argument = .ok lc
          ∧ a.pass2Line c text = { a with lc := lc, line := a.line + 1 })
      ∨ ∃ name f i, tok.mnemonic = some name ∧ name ≠ orgName ∧ acceptedForm c name = some f
          ∧ assembleForm a.labels f tok.argument = .ok i
          ∧ a.pass2Line c text = { a with out := a.out ++ encode c i, lc := a.lc + 4, line := a.line + 1 }) := by
  unfold AsmState.pass2Line
  rcases tokenize text with e | tok
  · exact .inl ⟨e, rfl⟩
  · simp only
    rcases hm : tok.mnemonic with _ | name
    · exact .inr ⟨tok, rfl, .inl ⟨hm, rfl⟩⟩
    · simp only
      by_cases hn : name = orgName
      · rw [if_pos hn]
        rcases ho : applyOrg tok.argument with e | lc
        · exact .inl ⟨e, rfl⟩
        · exact .inr ⟨tok, rfl, .inr (.inl ⟨lc, by rw [hm, hn], ho, rfl⟩)⟩
      · rw [if_neg hn]
        rcases hf : acceptedForm c name with _ | f
        · exact .inl ⟨_, rfl⟩
        · simp only
          rcases ha : assembleForm a.labels f tok.argument with e | i
          · exact .inl ⟨e, rfl⟩
          · exact .inr ⟨tok, rfl, .inr (.inr ⟨name, f, i, hm, hn, hf, ha, rfl⟩)⟩

/-- One step of the assembler: a line of pass 1, the end of pass 1, a line of pass 2, the end of pass 2, or nothing. -/
theorem asm_step_cases (c : Config) (a : AsmState) :
    (a.phase = .pass1 ∧ ((∃ text, a.lines[a.line - 1]? = some text ∧ a.step c = a.pass1Line c text)
      ∨ (a.lines[a.line - 1]? = none ∧ a.step c = a.beginPass2)))
    ∨ (a.phase = .pass2 ∧ ((∃ text, a.lines[a.line - 1]? = some text ∧ a.step c = a.pass2Line c text)
      ∨ (a.lines[a.line - 1]? = none ∧ a.step c = { a with phase := .done })))
    ∨ (a.phase ≠ .pass1 ∧ a.phase ≠ .pass2 ∧ a.step c = a) := by
  unfold AsmState.step
  rcases hp : a.phase with _ | _ | _ | ⟨n, e⟩
  · left
    cases h : a.lines[a.line - 1]? <;> simp
  · right
    left
    cases h : a.lines[a.line - 1]? <;> simp
  · simp
  · simp

end Sys2Proof.Machine
end

