-- ==== Sys2Proof/Laws/Decode.lean ====
section
/-! SUPPORT. The small laws of the encoding: fields and bytes are inverse to each other, the two encoding maps are inverse to
the two look-ups, the widths of a well-formed record are those of the types, and a masked word is a remainder. -/

namespace Sys2Proof

/-! ### Fields and bytes -/

@[simp] theorem halfOfBytes_lo_hi (v : Half) : halfOfBytes (loByte v) (hiByte v) = v := by
  have := v.isLt
  apply BitVec.eq_of_toNat_eq
  simp [halfOfBytes, loByte, hiByte]
  omega

@[simp] theorem loByte_halfOfBytes (a b : Byte) : loByte (halfOfBytes a b) = a := by
  have := a.isLt
  have := b.isLt
  apply BitVec.eq_of_toNat_eq
  simp [halfOfBytes, loByte]
  omega

@[simp] theorem hiByte_halfOfBytes (a b : Byte) : hiByte (halfOfBytes a b) = b := by
  have := a.isLt
  have := b.isLt
  apply BitVec.eq_of_toNat_eq
  simp [halfOfBytes, hiByte]
  omega

theorem toNat_halfOfBytes (a b : Byte) : (halfOfBytes a b).toNat = a.toNat + 256 * b.toNat := by
  have := a.isLt
  have := b.isLt
  simp [halfOfBytes]
  omega

@[simp] theorem toField_selByte (rT rF : Reg) : toField (selByte rT rF) = rT := by
  apply Fin.ext
  simp [toField, selByte]
  omega

@[simp] theorem fromField_selByte (rT rF : Reg) : fromField (selByte rT rF) = rF := by
  apply Fin.ext
  simp [fromField, selByte]

@[simp] theorem selByte_fields (b : Byte) : selByte (toField b) (fromField b) = b := by
  have := b.isLt
  apply BitVec.eq_of_toNat_eq
  simp [selByte, toField, fromField]
  omega

/-! ### The maps and their look-ups -/

theorem OpClass.mem_all (k : OpClass) : k ∈ OpClass.all := by
  cases k <;> decide

theorem SubOp.mem_all (o : SubOp) : o ∈ SubOp.all := by
  cases o <;> decide

/-- Where the opcodes are distinct, the opcode byte of a class is read as that class. -/
theorem classOf_opcode {c : Config} (h : c.opcodesDistinct = true) (k : OpClass) : c.classOf (c.opcode k) = some k := by
  have hn : (OpClass.all.map c.opcode).Nodup := by simpa [Config.opcodesDistinct] using h
  unfold Config.classOf
  rcases hf : OpClass.all.find? (fun k' => c.opcode k' == c.opcode k) with _ | k'
  · simpa using List.find?_eq_none.1 hf k k.mem_all
  · have he : c.opcode k' = c.opcode k := by simpa using List.find?_some hf
    rw [List.inj_on_of_nodup_map hn k'.mem_all k.mem_all he]

/-- A class read from an opcode byte has that opcode byte. -/
theorem opcode_of_classOf {c : Config} {opc : Byte} {k : OpClass} (h : c.classOf opc = some k) : c.opcode k = opc := by
  simpa using List.find?_some h

/-- Where the sub-ops of each class are distinct, the `op16` of a sub-operation is read as that sub-operation. -/
theorem subopOf_subop {c : Config} (h : c.subopsDistinct = true) (o : SubOp) :
    c.subopOf o.opClass (c.subop o) = some o := by
  have hn : (SubOp.all.map fun o => (o.opClass, c.subop o)).Nodup := by
    simpa only [Config.subopsDistinct, decide_eq_true_eq] using h
  unfold Config.subopOf
  generalize hf : SubOp.all.find? (fun o' => o'.opClass == o.opClass && c.subop o' == c.subop o) = res
  rcases res with _ | o'
  · simpa using List.find?_eq_none.1 hf o o.mem_all
  · have he : o'.opClass = o.opClass ∧ c.subop o' = c.subop o := by simpa using List.find?_some hf
    rw [List.inj_on_of_nodup_map hn o'.mem_all o.mem_all (by rw [he.1, he.2])]

/-- A sub-operation read from a class and an `op16` has both. -/
theorem subop_of_subopOf {c : Config} {k : OpClass} {op16 : Half} {o : SubOp} (h : c.subopOf k op16 = some o) :
    o.opClass = k ∧ c.subop o = op16 := by
  simpa using List.find?_some h

@[simp] theorem SubOp.instr_opClass (o : SubOp) (rT rF : Reg) : (o.instr rT rF).opClass = o.opClass := by
  cases o <;> rfl

@[simp] theorem SubOp.instr_op16Field (c : Config) (o : SubOp) (rT rF : Reg) :
    (o.instr rT rF).op16Field c = c.subop o := by
  cases o <;> rfl

@[simp] theorem SubOp.instr_regFields (o : SubOp) (rT rF : Reg) : (o.instr rT rF).regFields = (rT, rF) := by
  cases o <;> rfl

/-- The two things `decode` can do with four bytes. -/
theorem decode_four (c : Config) (b0 b1 b2 b3 : Byte) (rest : List Byte) :
    decode c (b0 :: b1 :: b2 :: b3 :: rest) = (decodeFields c b0 (halfOfBytes b1 b2) b3).map fun i => (i, rest) := by
  simp only [decode]
  cases decodeFields c b0 (halfOfBytes b1 b2) b3 <;> rfl

/-! ### The widths of R7 -/

/-- In a well-formed record the three widths are those the types are built on. -/
theorem Config.widths_of_wellFormed {c : Config} (h : c.wellFormed = true) : c.xlen = 32 ∧ c.nreg = 16 ∧ c.ilen = 4 := by
  simp only [Config.wellFormed, Config.widthsListed, Bool.and_eq_true, beq_iff_eq] at h
  exact ⟨h.2.1.1, h.2.1.2, h.2.2⟩

/-- An instruction is encoded in four bytes (R92). -/
@[simp] theorem length_encode (c : Config) (i : Instr) : (encode c i).length = 4 := rfl

/-! ### Masks -/

/-- The mask of an R-form or J-form row keeps bytes 0, 1 and 2. -/
theorem and_mask_three (w n : Word) : w &&& 0x00FFFFFF = n ↔ w.toNat % 2 ^ 24 = n.toNat := by
  rw [← BitVec.toNat_inj, BitVec.toNat_and, show (0x00FFFFFF : Word).toNat = 2 ^ 24 - 1 from rfl,
    Nat.and_two_pow_sub_one_eq_mod]

/-- The mask of an I-form or N-form row keeps byte 0. -/
theorem and_mask_one (w n : Word) : w &&& 0x000000FF = n ↔ w.toNat % 2 ^ 8 = n.toNat := by
  rw [← BitVec.toNat_inj, BitVec.toNat_and, show (0x000000FF : Word).toNat = 2 ^ 8 - 1 from rfl,
    Nat.and_two_pow_sub_one_eq_mod]

end Sys2Proof
end

