-- ==== Sys2Proof/Laws/Memory.lean ====
section
/-! SUPPORT. The laws of memory: read after write, and that every operation keeps the canonical form and the address bound. -/

namespace Sys2Proof.Machine

/-! ### Read after write -/

theorem Memory.read_cons (a : Nat) (b : Byte) (m : Memory) (x : Nat)
    (h : Memory.read m a = Memory.unlisted a) :
    (Memory.cons a b m).read x = if a = x then b else m.read x := by
  unfold Memory.cons
  split
  · split <;> simp_all
  · simp [Memory.read]

/-- An address below every listed one is unlisted. -/
theorem Memory.read_of_all_lt : ∀ (m : Memory) (a : Nat), m.all (fun cell => decide (a < cell.1)) = true →
    m.read a = Memory.unlisted a
  | [], _, _ => rfl
  | (k, v) :: m, a, h => by
    simp only [List.all_cons, Bool.and_eq_true, decide_eq_true_eq] at h
    have hk : k ≠ a := by omega
    simp [Memory.read, hk, Memory.read_of_all_lt m a h.2]

theorem Memory.all_lt_trans {m : Memory} {a k : Nat} (h : a ≤ k)
    (hm : m.all (fun cell => decide (k < cell.1)) = true) : m.all (fun cell => decide (a < cell.1)) = true := by
  simp only [List.all_eq_true, decide_eq_true_eq] at hm ⊢
  intro cell hc
  have := hm cell hc
  omega

theorem Memory.wf_cons {k : Nat} {v : Byte} {m : Memory} :
    Memory.wf ((k, v) :: m) = true ↔
      v ≠ Memory.unlisted k ∧ m.all (fun cell => decide (k < cell.1)) = true ∧ Memory.wf m = true := by
  simp [Memory.wf, and_assoc]

/-- A write is read back, and leaves every other address alone (R61). -/
theorem Memory.read_write : ∀ (m : Memory) (a : Nat) (b : Byte) (x : Nat), m.wf = true →
    (m.write a b).read x = if a = x then b else m.read x
  | [], a, b, x, _ => by
    simpa [Memory.write] using Memory.read_cons a b [] x rfl
  | (k, v) :: m, a, b, x, h => by
    obtain ⟨hv, hk, hm⟩ := Memory.wf_cons.1 h
    unfold Memory.write
    split
    · rename_i hlt
      refine Memory.read_cons a b _ x (Memory.read_of_all_lt _ a ?_)
      simp only [List.all_cons, Bool.and_eq_true, decide_eq_true_eq]
      exact ⟨hlt, Memory.all_lt_trans hlt.le hk⟩
    · split
      · rename_i _ e
        subst e
        rw [Memory.read_cons a b m x (Memory.read_of_all_lt m a hk)]
        simp only [Memory.read]
        split <;> rfl
      · rename_i _ hne
        simp only [Memory.read, Memory.read_write m a b x hm]
        by_cases hkx : k = x
        · have : a ≠ x := by omega
          simp [hkx, this]
        · simp [hkx]

/-! ### The canonical form -/

theorem Memory.wf_cons' {a : Nat} {b : Byte} {m : Memory} (hm : m.wf = true)
    (h : m.all (fun cell => decide (a < cell.1)) = true) : (Memory.cons a b m).wf = true := by
  unfold Memory.cons
  split
  · exact hm
  · exact Memory.wf_cons.2 ⟨‹_›, h, hm⟩

theorem Memory.mem_cons {a : Nat} {b : Byte} {m : Memory} {cell : Host.Cell} (h : cell ∈ Memory.cons a b m) :
    cell.1 = a ∨ cell ∈ m := by
  unfold Memory.cons at h
  split at h
  · exact .inr h
  · rcases List.mem_cons.1 h with rfl | h
    · exact .inl rfl
    · exact .inr h

/-- A write lists no address but the one written and those listed before. -/
theorem Memory.mem_write : ∀ (m : Memory) (a : Nat) (b : Byte) (cell : Host.Cell), cell ∈ m.write a b →
    cell.1 = a ∨ cell ∈ m
  | [], _, _, _, h => Memory.mem_cons h
  | (k, v) :: m, a, b, cell, h => by
    unfold Memory.write at h
    split at h
    · exact Memory.mem_cons h
    · split at h
      · exact (Memory.mem_cons h).imp_right (List.mem_cons_of_mem _)
      · rcases List.mem_cons.1 h with rfl | h
        · exact .inr List.mem_cons_self
        · exact (Memory.mem_write m a b cell h).imp_right (List.mem_cons_of_mem _)

/-- A write keeps the canonical form. -/
theorem Memory.wf_write : ∀ (m : Memory) (a : Nat) (b : Byte), m.wf = true → (m.write a b).wf = true
  | [], a, b, _ => Memory.wf_cons' rfl rfl
  | (k, _) :: m, a, b, h => by
    obtain ⟨hv, hk, hm⟩ := Memory.wf_cons.1 h
    unfold Memory.write
    split
    · rename_i hlt
      refine Memory.wf_cons' h ?_
      simp only [List.all_cons, Bool.and_eq_true, decide_eq_true_eq]
      exact ⟨hlt, Memory.all_lt_trans hlt.le hk⟩
    · split
      · rename_i _ e
        exact Memory.wf_cons' hm (e ▸ hk)
      · rename_i hge hne
        refine Memory.wf_cons.2 ⟨hv, ?_, Memory.wf_write m a b hm⟩
        simp only [List.all_eq_true, decide_eq_true_eq] at hk ⊢
        intro cell hc
        rcases Memory.mem_write m a b cell hc with e | hc
        · omega
        · exact hk cell hc

/-- A write inside memory keeps every listed address inside memory. -/
theorem Memory.below_write {m : Memory} {a n : Nat} {b : Byte} (h : m.below n = true) (ha : a < n) :
    (m.write a b).below n = true := by
  simp only [Memory.below, List.all_eq_true, decide_eq_true_eq] at h ⊢
  intro cell hc
  rcases Memory.mem_write m a b cell hc with e | hc
  · omega
  · exact h cell hc

theorem Memory.wf_writeLE : ∀ (n : Nat) (m : Memory) (a v : Nat), m.wf = true → (m.writeLE a n v).wf = true
  | 0, _, _, _, h => h
  | n + 1, m, a, _, h => Memory.wf_writeLE n _ _ _ (Memory.wf_write m a _ h)

theorem Memory.below_writeLE : ∀ (n : Nat) (m : Memory) (a v N : Nat), m.below N = true → a + n ≤ N →
    (m.writeLE a n v).below N = true
  | 0, _, _, _, _, h, _ => h
  | n + 1, m, a, v, N, h, hN =>
    Memory.below_writeLE n _ _ _ N (Memory.below_write h (by omega)) (by omega)

theorem Memory.wf_load : ∀ (bs : List Byte) (m : Memory) (a : Nat), m.wf = true → (m.load a bs).wf = true
  | [], _, _, h => h
  | _ :: bs, m, a, h => Memory.wf_load bs _ _ (Memory.wf_write m a _ h)

theorem Memory.below_load : ∀ (bs : List Byte) (m : Memory) (a N : Nat), m.below N = true → a + bs.length ≤ N →
    (m.load a bs).below N = true
  | [], _, _, _, h, _ => h
  | b :: bs, m, a, N, h, hN => by
    simp only [List.length_cons] at hN
    exact Memory.below_load bs _ _ N (Memory.below_write h (by omega)) (by omega)

/-- A store keeps the canonical form and the address bound: with `Memory.wf_write`, `Memory.wf_load` and `Memory.wf_ofBytes`
this is every memory operation. -/
theorem memWrite_keeps {c : Config} {m m' : Memory} {a n v : Nat} (h : memWrite c m a n v = some m') :
    (m.wf = true → m'.wf = true) ∧ (m.below c.memSize = true → m'.below c.memSize = true) := by
  unfold memWrite inBounds at h
  split at h
  · rename_i hb
    obtain rfl : m.writeLE a n v = m' := by simpa using h
    exact ⟨Memory.wf_writeLE n m a v, fun hm => Memory.below_writeLE n m a v _ hm (by simpa using hb)⟩
  · exact absurd h (by simp)

theorem Memory.wf_ofBytes (f : Nat → Byte) : ∀ n, (Memory.ofBytes f n).wf = true
  | 0 => rfl
  | n + 1 => Memory.wf_write _ _ _ (Memory.wf_ofBytes f n)

theorem Memory.below_ofBytes (f : Nat → Byte) (N : Nat) : ∀ n, n ≤ N → (Memory.ofBytes f n).below N = true
  | 0, _ => rfl
  | n + 1, h => Memory.below_write (Memory.below_ofBytes f N n (by omega)) (by omega)

/-! ### What the multi-byte operations read -/

/-- Outside the `n` bytes written, every byte reads as before. -/
theorem Memory.read_writeLE_outside : ∀ (n : Nat) (m : Memory) (a v x : Nat), m.wf = true → x < a ∨ a + n ≤ x →
    (m.writeLE a n v).read x = m.read x
  | 0, _, _, _, _, _, _ => rfl
  | n + 1, m, a, v, x, hm, hx => by
    have hne : a ≠ x := by omega
    rw [Memory.writeLE, Memory.read_writeLE_outside n _ _ _ x (Memory.wf_write m a _ hm) (by omega),
      Memory.read_write m a _ x hm, if_neg hne]

/-- Byte `k` of the `n` bytes written is byte `k` of the value, little-endian (R53). -/
theorem Memory.read_writeLE_inside : ∀ (n : Nat) (m : Memory) (a v k : Nat), m.wf = true → k < n →
    (m.writeLE a n v).read (a + k) = BitVec.ofNat 8 (v / 256 ^ k % 256)
  | 0, _, _, _, _, _, h => absurd h (Nat.not_lt_zero _)
  | n + 1, m, a, v, 0, hm, _ => by
    rw [Memory.writeLE, Memory.read_writeLE_outside n _ _ _ _ (Memory.wf_write m a _ hm) (by omega),
      Memory.read_write m a _ _ hm]
    simp
  | n + 1, m, a, v, k + 1, hm, h => by
    rw [Memory.writeLE, show a + (k + 1) = a + 1 + k by omega,
      Memory.read_writeLE_inside n _ _ _ k (Memory.wf_write m a _ hm) (by omega), Nat.div_div_eq_div_mul, pow_succ']

/-- Reading the bytes just written gives the value's low bytes back. -/
theorem Memory.readLE_congr : ∀ (n : Nat) (m m' : Memory) (a : Nat), (∀ k, k < n → m.read (a + k) = m'.read (a + k)) →
    m.readLE a n = m'.readLE a n
  | 0, _, _, _, _ => rfl
  | n + 1, m, m', a, h => by
    have h0 : m.read a = m'.read a := by simpa using h 0 (by omega)
    have ih := Memory.readLE_congr n m m' (a + 1) fun k hk => by
      have := h (k + 1) (by omega)
      rwa [show a + (k + 1) = a + 1 + k by omega] at this
    simp [Memory.readLE, h0, ih]

/-- A multi-byte read is below the power of 256. -/
theorem Memory.readLE_lt (m : Memory) : ∀ (n a : Nat), m.readLE a n < 256 ^ n
  | 0, _ => by simp [Memory.readLE]
  | n + 1, a => by
    have h := Memory.readLE_lt m n (a + 1)
    have hb := (m.read a).isLt
    rw [Memory.readLE, pow_succ]
    omega

/-- The bytes laid in by a load, and the rest as before (R331). -/
theorem Memory.read_load : ∀ (bs : List Byte) (m : Memory) (a x : Nat), m.wf = true →
    (m.load a bs).read x = if a ≤ x then (bs[x - a]?).getD (m.read x) else m.read x
  | [], m, a, x, _ => by simp [Memory.load]
  | b :: bs, m, a, x, h => by
    rw [Memory.load, Memory.read_load bs _ _ x (Memory.wf_write m a b h), Memory.read_write m a b x h]
    by_cases h1 : a + 1 ≤ x
    · have h2 : a ≤ x := by omega
      have h3 : a ≠ x := by omega
      have h4 : x - a = x - (a + 1) + 1 := by omega
      simp [h1, h2, h3, h4]
    · by_cases h2 : a = x
      · subst h2; simp
      · have h3 : ¬ a ≤ x := by omega
        simp [h1, h2, h3]

/-- `Memory.ofBytes f n` reads as `f` below `n`: every fill of R331 is a memory. -/
theorem Memory.read_ofBytes (f : Nat → Byte) : ∀ (n x : Nat), x < n → (Memory.ofBytes f n).read x = f x
  | 0, _, h => absurd h (Nat.not_lt_zero _)
  | n + 1, x, h => by
    rw [Memory.ofBytes, Memory.read_write _ _ _ _ (Memory.wf_ofBytes f n)]
    by_cases e : n = x
    · simp [e]
    · simp [e, Memory.read_ofBytes f n x (by omega)]

end Sys2Proof.Machine
end

