-- ==== Sys2Proof/Laws/State.lean ====
section
/-! SUPPORT. One lemma per field per update, so that no proof unfolds a record update, and the register file's read-after-write
laws. -/

namespace Sys2Proof.Machine

/-! ### `setReg` -/

@[simp] theorem setReg_flags (s : State) (i : Reg) (v : Word) : (s.setReg i v).flags = s.flags := rfl
@[simp] theorem setReg_pc (s : State) (i : Reg) (v : Word) : (s.setReg i v).pc = s.pc := rfl
@[simp] theorem setReg_mem (s : State) (i : Reg) (v : Word) : (s.setReg i v).mem = s.mem := rfl
@[simp] theorem setReg_run (s : State) (i : Reg) (v : Word) : (s.setReg i v).run = s.run := rfl
@[simp] theorem setReg_asm (s : State) (i : Reg) (v : Word) : (s.setReg i v).asm = s.asm := rfl

/-- A register read returns the last value written (R22). -/
@[simp] theorem reg_setReg_same (s : State) (i : Reg) (v : Word) : (s.setReg i v).reg i = v := by
  simp [State.setReg, State.reg]

/-- A register write leaves every other register alone (R22). -/
theorem reg_setReg_other (s : State) {i r : Reg} (v : Word) (h : r ≠ i) : (s.setReg i v).reg r = s.reg r := by
  have h' : i.val ≠ r.val := fun e => h (Fin.ext e.symm)
  simp [State.setReg, State.reg, h']

theorem reg_setReg (s : State) (i r : Reg) (v : Word) : (s.setReg i v).reg r = if r = i then v else s.reg r := by
  by_cases h : r = i
  · subst h; simp
  · simp [h, reg_setReg_other s v h]

/-! ### `setPc` -/

@[simp] theorem setPc_x (s : State) (t : Word) : (s.setPc t).x = s.x := rfl
@[simp] theorem setPc_flags (s : State) (t : Word) : (s.setPc t).flags = s.flags := rfl
@[simp] theorem setPc_pc (s : State) (t : Word) : (s.setPc t).pc = t := rfl
@[simp] theorem setPc_mem (s : State) (t : Word) : (s.setPc t).mem = s.mem := rfl
@[simp] theorem setPc_run (s : State) (t : Word) : (s.setPc t).run = s.run := rfl
@[simp] theorem setPc_asm (s : State) (t : Word) : (s.setPc t).asm = s.asm := rfl
@[simp] theorem setPc_reg (s : State) (t : Word) (r : Reg) : (s.setPc t).reg r = s.reg r := rfl

/-! ### `raise` -/

@[simp] theorem raise_x (s : State) (r : HaltReason) : (s.raise r).x = s.x := rfl
@[simp] theorem raise_flags (s : State) (r : HaltReason) : (s.raise r).flags = s.flags := rfl
@[simp] theorem raise_pc (s : State) (r : HaltReason) : (s.raise r).pc = s.pc := rfl
@[simp] theorem raise_mem (s : State) (r : HaltReason) : (s.raise r).mem = s.mem := rfl
@[simp] theorem raise_run (s : State) (r : HaltReason) : (s.raise r).run = .halted r := rfl
@[simp] theorem raise_asm (s : State) (r : HaltReason) : (s.raise r).asm = s.asm := rfl
@[simp] theorem raise_reg (s : State) (h : HaltReason) (r : Reg) : (s.raise h).reg r = s.reg r := rfl

/-! ### `setFlags` and `aluResult` -/

@[simp] theorem setFlags_x (c : Config) (s : State) (v : Wide) : (s.setFlags c v).x = s.x := rfl
@[simp] theorem setFlags_flags (c : Config) (s : State) (v : Wide) : (s.setFlags c v).flags = flagsOf64 c v := rfl
@[simp] theorem setFlags_pc (c : Config) (s : State) (v : Wide) : (s.setFlags c v).pc = s.pc := rfl
@[simp] theorem setFlags_mem (c : Config) (s : State) (v : Wide) : (s.setFlags c v).mem = s.mem := rfl
@[simp] theorem setFlags_run (c : Config) (s : State) (v : Wide) : (s.setFlags c v).run = s.run := rfl
@[simp] theorem setFlags_asm (c : Config) (s : State) (v : Wide) : (s.setFlags c v).asm = s.asm := rfl
@[simp] theorem setFlags_reg (c : Config) (s : State) (v : Wide) (r : Reg) : (s.setFlags c v).reg r = s.reg r := rfl

@[simp] theorem aluResult_flags (c : Config) (s : State) (i : Reg) (v : Wide) : (s.aluResult c i v).flags = flagsOf64 c v := rfl
@[simp] theorem aluResult_pc (c : Config) (s : State) (i : Reg) (v : Wide) : (s.aluResult c i v).pc = s.pc := rfl
@[simp] theorem aluResult_mem (c : Config) (s : State) (i : Reg) (v : Wide) : (s.aluResult c i v).mem = s.mem := rfl
@[simp] theorem aluResult_run (c : Config) (s : State) (i : Reg) (v : Wide) : (s.aluResult c i v).run = s.run := rfl
@[simp] theorem aluResult_asm (c : Config) (s : State) (i : Reg) (v : Wide) : (s.aluResult c i v).asm = s.asm := rfl
@[simp] theorem aluResult_reg_same (c : Config) (s : State) (i : Reg) (v : Wide) :
    (s.aluResult c i v).reg i = trunc32 v := by
  simp [State.aluResult]

theorem aluResult_reg_other (c : Config) (s : State) {i r : Reg} (v : Wide) (h : r ≠ i) :
    (s.aluResult c i v).reg r = s.reg r := by
  simp [State.aluResult, reg_setReg_other s _ h]

/-! ### `asmStart` and `asmStep` -/

@[simp] theorem asmStep_x (s : State) : s.asmStep.x = s.x := rfl
@[simp] theorem asmStep_flags (s : State) : s.asmStep.flags = s.flags := rfl
@[simp] theorem asmStep_pc (s : State) : s.asmStep.pc = s.pc := rfl
@[simp] theorem asmStep_mem (s : State) : s.asmStep.mem = s.mem := rfl
@[simp] theorem asmStep_run (s : State) : s.asmStep.run = s.run := rfl
@[simp] theorem asmStep_asm (s : State) : s.asmStep.asm = s.asm.step Config.system3201 := rfl
@[simp] theorem asmStart_asm (s : State) (src : List Char) : (s.asmStart src).asm = AsmState.start src := rfl

end Sys2Proof.Machine
end

