-- ==== Sys2Proof/Laws/Ops.lean ====
section
/-! SUPPORT. One lemma for each shared operation that says everything it can do; later proofs cite these. -/

namespace Sys2Proof.Machine

/-! ### The bounds-checked accesses -/

theorem memRead_some {c : Config} {m : Memory} {a n : Nat} (h : a + n ≤ c.memSize) :
    memRead c m a n = some (m.readLE a n) := by
  simp [memRead, inBounds, h]

theorem memRead_none {c : Config} {m : Memory} {a n : Nat} (h : c.memSize < a + n) : memRead c m a n = none := by
  simp [memRead, inBounds, Nat.not_le.2 h]

theorem memWrite_some {c : Config} {m : Memory} {a n v : Nat} (h : a + n ≤ c.memSize) :
    memWrite c m a n v = some (m.writeLE a n v) := by
  simp [memWrite, inBounds, h]

theorem memWrite_none {c : Config} {m : Memory} {a n v : Nat} (h : c.memSize < a + n) : memWrite c m a n v = none := by
  simp [memWrite, inBounds, Nat.not_le.2 h]

/-! ### Flags -/

@[simp] theorem toNat_u64 (v : Word) : (u64 v).toNat = v.toNat := by
  have := v.isLt
  simp only [u64, BitVec.truncate_eq_setWidth, BitVec.toNat_setWidth]
  omega

@[simp] theorem toNat_trunc32 (v : Wide) : (trunc32 v).toNat = v.toNat % 2 ^ 32 := by
  simp [trunc32]

@[simp] theorem trunc32_u64 (v : Word) : trunc32 (u64 v) = v := by
  apply BitVec.eq_of_toNat_eq
  rw [toNat_trunc32, toNat_u64, Nat.mod_eq_of_lt v.isLt]

/-- `popcount v n` is the number of set bits among the `n` low bits. -/
theorem popcount_eq (v : Word) : ∀ n, popcount v n = ((List.range n).filter fun k => v.toNat.testBit k).length
  | 0 => rfl
  | n + 1 => by
    rw [popcount, popcount_eq v n, List.range_succ, List.filter_append, List.length_append, Nat.add_comm]
    congr 1
    cases h : v.toNat.testBit n <;> simp [BitVec.getLsbD, h]

/-! ### Loads, stores, jumps -/

/-- A load writes its destination register with the value read, or halts with OutOfBoundsAccess; nothing else. -/
theorem loadInto_cases (c : Config) (s : State) (rT rF : Reg) (n : Nat) :
    ((s.reg rF).toNat + n ≤ c.memSize
      ∧ s.loadInto c rT rF n = s.setReg rT (BitVec.ofNat 32 (s.mem.readLE (s.reg rF).toNat n)))
    ∨ (c.memSize < (s.reg rF).toNat + n
      ∧ s.loadInto c rT rF n = s.raise (.outOfBoundsAccess s.pc0 (s.reg rF) n .read)) := by
  rcases Nat.lt_or_ge c.memSize ((s.reg rF).toNat + n) with h | h
  · exact .inr ⟨h, by simp [State.loadInto, State.effectiveAddress, memRead_none h]⟩
  · exact .inl ⟨h, by simp [State.loadInto, State.effectiveAddress, memRead_some h]⟩

/-- A store writes its bytes, or halts with OutOfBoundsAccess; nothing else. -/
theorem storeFrom_cases (c : Config) (s : State) (rT rF : Reg) (n : Nat) :
    ((s.reg rT).toNat + n ≤ c.memSize
      ∧ s.storeFrom c rT rF n = { s with mem := s.mem.writeLE (s.reg rT).toNat n (s.reg rF).toNat })
    ∨ (c.memSize < (s.reg rT).toNat + n
      ∧ s.storeFrom c rT rF n = s.raise (.outOfBoundsAccess s.pc0 (s.reg rT) n .write)) := by
  rcases Nat.lt_or_ge c.memSize ((s.reg rT).toNat + n) with h | h
  · exact .inr ⟨h, by simp [State.storeFrom, State.effectiveAddress, memWrite_none h]⟩
  · exact .inl ⟨h, by simp [State.storeFrom, State.effectiveAddress, memWrite_some h]⟩

/-- A jump writes pc only. -/
theorem jumpIf_eq (s : State) (cond : Bool) (rT : Reg) :
    s.jumpIf cond rT = { s with pc := if cond = true then s.reg rT else s.pc } := by
  cases cond <;> rfl

/-- An unknown encoding raises UnimplementedOpcode or changes nothing, by the policy. -/
theorem unknownEncoding_cases (c : Config) (opc : Byte) (op16 : Half) (s : State) :
    (c.unknownOpPolicy = .fault ∧ unknownEncoding c opc op16 s = .next (s.raise (.unimplementedOpcode s.pc0 opc op16)))
    ∨ (c.unknownOpPolicy = .nop ∧ unknownEncoding c opc op16 s = .next s) := by
  cases h : c.unknownOpPolicy <;> simp [unknownEncoding, h]

/-! ### Fetch -/

/-- A fetch succeeds where pc is aligned and its 4 bytes are inside memory (R55). -/
theorem fetch_word {c : Config} {s : State} (ha : s.pc.toNat % 4 = 0) (hb : s.pc.toNat + 4 ≤ c.memSize) :
    fetch c s = .word (BitVec.ofNat 8 (s.mem.readLE s.pc.toNat 1)) (BitVec.ofNat 16 (s.mem.readLE (s.pc.toNat + 1) 2))
      (BitVec.ofNat 8 (s.mem.readLE (s.pc.toNat + 3) 1)) (s.setPc (s.pc + 4)) := by
  unfold fetch
  rw [memRead_some (by omega), memRead_some (by omega), memRead_some (by omega)]
  simp [ha]

theorem fetch_opcode_out_of_bounds {c : Config} {s : State} (h : c.memSize < s.pc.toNat + 1) :
    fetch c s = .stopped (s.raise (.outOfBoundsAccess s.pc s.pc 1 .fetch)) := by
  unfold fetch
  rw [memRead_none h]

theorem fetch_misaligned {c : Config} {s : State} (h : s.pc.toNat + 1 ≤ c.memSize) (ha : s.pc.toNat % 4 ≠ 0) :
    fetch c s = .stopped ((s.setPc (s.pc + 1)).raise (.alignmentFault s.pc)) := by
  unfold fetch
  rw [memRead_some h]
  simp [ha]

theorem fetch_operand_out_of_bounds {c : Config} {s : State} (h : s.pc.toNat + 1 ≤ c.memSize) (ha : s.pc.toNat % 4 = 0)
    (hb : c.memSize < s.pc.toNat + 3) :
    fetch c s = .stopped ((s.setPc (s.pc + 1)).raise (.outOfBoundsAccess s.pc (s.pc + 1) 2 .fetch)) := by
  unfold fetch
  rw [memRead_some h, memRead_none (by omega)]
  simp [ha]

theorem fetch_selector_out_of_bounds {c : Config} {s : State} (ha : s.pc.toNat % 4 = 0) (hb : c.memSize = s.pc.toNat + 3) :
    fetch c s = .stopped ((s.setPc (s.pc + 3)).raise (.outOfBoundsAccess s.pc (s.pc + 3) 1 .fetch)) := by
  unfold fetch
  rw [memRead_some (by omega), memRead_some (by omega), memRead_none (by omega)]
  simp [ha]

/-- The three items a fetch reads, as the bytes at pc. -/
theorem readLE_one (m : Memory) (a : Nat) : BitVec.ofNat 8 (m.readLE a 1) = m.read a := by
  simp [Memory.readLE]

theorem readLE_two (m : Memory) (a : Nat) : BitVec.ofNat 16 (m.readLE a 2) = halfOfBytes (m.read a) (m.read (a + 1)) := by
  simp [Memory.readLE, halfOfBytes]

end Sys2Proof.Machine
end

