-- ==== Sys2Proof/Laws/PerInstr.lean ====
section
/-! SUPPORT. The per-instruction family `TableRow`: the word an instruction encodes to selects the instruction's row of
`spec/opcode_table.json` (R94). -/

namespace Sys2Proof.Laws.TableRow

/-- The encoding of the instruction, under the row's mask, is the row's match. -/
def Statement (i : Instr) : Prop := encodeWord Config.system3201 i &&& i.tableMask = i.tableMatch

/-- An R-form or J-form encoding keeps its opcode and sub-op under the mask, whatever its registers. -/
theorem three (opc : Byte) (op16 : Half) (a b n : Nat) (h : opc.toNat + 256 * op16.toNat = n) :
    BitVec.ofNat 32 (opc.toNat + 2 ^ 8 * op16.toNat + 2 ^ 24 * a + 2 ^ 28 * b) &&& (0x00FFFFFF : Word) = BitVec.ofNat 32 n := by
  have := opc.isLt
  have := op16.isLt
  rw [and_mask_three]
  simp only [BitVec.toNat_ofNat]
  omega

/-- An I-form or N-form encoding keeps its opcode under the mask, whatever its fields. -/
theorem one (opc : Byte) (op16 : Half) (a b : Nat) :
    BitVec.ofNat 32 (opc.toNat + 2 ^ 8 * op16.toNat + 2 ^ 24 * a + 2 ^ 28 * b) &&& (0x000000FF : Word)
      = BitVec.ofNat 32 opc.toNat := by
  have := opc.isLt
  rw [and_mask_one]
  simp only [BitVec.toNat_ofNat]
  omega

theorem and (rT rF : Reg) : Statement (.and rT rF) :=
  three _ _ _ _ _ rfl

theorem or (rT rF : Reg) : Statement (.or rT rF) :=
  three _ _ _ _ _ rfl

theorem not (rT rF : Reg) : Statement (.not rT rF) :=
  three _ _ _ _ _ rfl

theorem xor (rT rF : Reg) : Statement (.xor rT rF) :=
  three _ _ _ _ _ rfl

theorem shl (rT rF : Reg) : Statement (.shl rT rF) :=
  three _ _ _ _ _ rfl

theorem shr (rT rF : Reg) : Statement (.shr rT rF) :=
  three _ _ _ _ _ rfl

theorem add (rT rF : Reg) : Statement (.add rT rF) :=
  three _ _ _ _ _ rfl

theorem sub (rT rF : Reg) : Statement (.sub rT rF) :=
  three _ _ _ _ _ rfl

theorem mul (rT rF : Reg) : Statement (.mul rT rF) :=
  three _ _ _ _ _ rfl

theorem div (rT rF : Reg) : Statement (.div rT rF) :=
  three _ _ _ _ _ rfl

theorem mod (rT rF : Reg) : Statement (.mod rT rF) :=
  three _ _ _ _ _ rfl

theorem cmp (rT rF : Reg) : Statement (.cmp rT rF) :=
  three _ _ _ _ _ rfl

theorem ldr (rT rF : Reg) : Statement (.ldr rT rF) :=
  three _ _ _ _ _ rfl

theorem ldm (rT rF : Reg) : Statement (.ldm rT rF) :=
  three _ _ _ _ _ rfl

theorem ldb (rT rF : Reg) : Statement (.ldb rT rF) :=
  three _ _ _ _ _ rfl

theorem stm (rT rF : Reg) : Statement (.stm rT rF) :=
  three _ _ _ _ _ rfl

theorem stb (rT rF : Reg) : Statement (.stb rT rF) :=
  three _ _ _ _ _ rfl

theorem j (rT rF : Reg) : Statement (.j rT rF) :=
  three _ _ _ _ _ rfl

theorem jc (rT rF : Reg) : Statement (.jc rT rF) :=
  three _ _ _ _ _ rfl

theorem jp (rT rF : Reg) : Statement (.jp rT rF) :=
  three _ _ _ _ _ rfl

theorem jz (rT rF : Reg) : Statement (.jz rT rF) :=
  three _ _ _ _ _ rfl

theorem js (rT rF : Reg) : Statement (.js rT rF) :=
  three _ _ _ _ _ rfl

theorem jnc (rT rF : Reg) : Statement (.jnc rT rF) :=
  three _ _ _ _ _ rfl

theorem jnp (rT rF : Reg) : Statement (.jnp rT rF) :=
  three _ _ _ _ _ rfl

theorem jnz (rT rF : Reg) : Statement (.jnz rT rF) :=
  three _ _ _ _ _ rfl

theorem jns (rT rF : Reg) : Statement (.jns rT rF) :=
  three _ _ _ _ _ rfl

theorem ldu (rT rF : Reg) (imm : Half) : Statement (.ldu rT rF imm) :=
  one _ _ _ _

theorem ldl (rT rF : Reg) (imm : Half) : Statement (.ldl rT rF imm) :=
  one _ _ _ _

theorem ori (rT rF : Reg) (imm : Half) : Statement (.ori rT rF imm) :=
  one _ _ _ _

theorem nop (op16 : Half) (rT rF : Reg) : Statement (.nop op16 rT rF) :=
  one _ _ _ _

theorem call (op16 : Half) (rT rF : Reg) : Statement (.call op16 rT rF) :=
  one _ _ _ _

theorem ret (op16 : Half) (rT rF : Reg) : Statement (.ret op16 rT rF) :=
  one _ _ _ _

theorem halt (op16 : Half) (rT rF : Reg) : Statement (.halt op16 rT rF) :=
  one _ _ _ _

end Sys2Proof.Laws.TableRow
end

