-- ==== Sys2Proof/Laws/Step.lean ====
section
/-! SUPPORT. What a step can do, said once: later proofs cite `step_cases` and do not unfold the step. -/

namespace Sys2Proof.Machine

/-- `pc0` at dispatch is the pc the step began with. -/
@[simp] theorem pc0_setPc_add_four (s : State) : (s.setPc (s.pc + 4)).pc0 = s.pc := by
  simp [State.pc0]

/-- Halted: the step changes nothing. -/
theorem stepWith_halted {c : Config} {execute : Instr → State → Result} {s : State} {r : HaltReason}
    (h : s.run = .halted r) : stepWith c execute s = .next s := by
  simp [stepWith, h]

/-- What the step decodes where the fetch succeeds (R80). -/
def decodedAt (c : Config) (s : State) : Except DecodeError Instr :=
  decodeFields c (s.mem.read s.pc.toNat) (halfOfBytes (s.mem.read (s.pc.toNat + 1)) (s.mem.read (s.pc.toNat + 2)))
    (s.mem.read (s.pc.toNat + 3))

/-- The fetch succeeds and its word decodes: the step is the instruction. -/
theorem stepWith_decoded {c : Config} {execute : Instr → State → Result} {s : State} {i : Instr} (hr : s.run = .running)
    (ha : s.pc.toNat % 4 = 0) (hb : s.pc.toNat + 4 ≤ c.memSize) (hd : decodedAt c s = .ok i) :
    stepWith c execute s = execute i (s.setPc (s.pc + 4)) := by
  unfold decodedAt at hd
  unfold stepWith
  rw [hr]
  simp only [fetch_word ha hb, readLE_one, readLE_two, hd]

/-- The fetch succeeds and its word is unknown: the step is the unknown encoding's. -/
theorem stepWith_unknown {c : Config} {execute : Instr → State → Result} {s : State} {e : DecodeError}
    (hr : s.run = .running) (ha : s.pc.toNat % 4 = 0) (hb : s.pc.toNat + 4 ≤ c.memSize) (hd : decodedAt c s = .error e) :
    stepWith c execute s = unknownEncoding c (s.mem.read s.pc.toNat)
      (halfOfBytes (s.mem.read (s.pc.toNat + 1)) (s.mem.read (s.pc.toNat + 2))) (s.setPc (s.pc + 4)) := by
  unfold decodedAt at hd
  unfold stepWith
  rw [hr]
  simp only [fetch_word ha hb, readLE_one, readLE_two, hd]

/-- The five things a step of this hardware can do. -/
theorem step_cases {s t : State} (h : step s = .next t) :
    (∃ r, s.run = .halted r ∧ t = s)
    ∨ (s.run = .running ∧ 0x100000 ≤ s.pc.toNat ∧ t = s.raise (.outOfBoundsAccess s.pc s.pc 1 .fetch))
    ∨ (s.run = .running ∧ s.pc.toNat < 0x100000 ∧ s.pc.toNat % 4 ≠ 0
        ∧ t = (s.setPc (s.pc + 1)).raise (.alignmentFault s.pc))
    ∨ (s.run = .running ∧ s.pc.toNat + 4 ≤ 0x100000 ∧ s.pc.toNat % 4 = 0
        ∧ ∃ i, exec i (s.setPc (s.pc + 4)) = .next t)
    ∨ (s.run = .running ∧ s.pc.toNat + 4 ≤ 0x100000 ∧ s.pc.toNat % 4 = 0
        ∧ ∃ opc op16 sel e, decodeFields Config.system3201 opc op16 sel = .error e
          ∧ t = (s.setPc (s.pc + 4)).raise (.unimplementedOpcode s.pc opc op16)) := by
  have hm : Config.system3201.memSize = 0x100000 := rfl
  unfold step at h
  rcases hr : s.run with _ | r
  · rcases Nat.lt_or_ge s.pc.toNat 0x100000 with hb | hb
    · by_cases ha : s.pc.toNat % 4 = 0
      · have hb' : s.pc.toNat + 4 ≤ 0x100000 := by omega
        rcases hd : decodedAt Config.system3201 s with e | i
        · rw [stepWith_unknown hr ha (by rw [hm]; exact hb') hd] at h
          rcases unknownEncoding_cases Config.system3201 (s.mem.read s.pc.toNat)
            (halfOfBytes (s.mem.read (s.pc.toNat + 1)) (s.mem.read (s.pc.toNat + 2))) (s.setPc (s.pc + 4))
            with ⟨_, hu⟩ | ⟨hp, _⟩
          · rw [hu, pc0_setPc_add_four] at h
            exact .inr (.inr (.inr (.inr ⟨rfl, hb', ha, _, _, _, e, hd, (Host.Outcome.next.inj h).symm⟩)))
          · cases hp
        · rw [stepWith_decoded hr ha (by rw [hm]; exact hb') hd] at h
          exact .inr (.inr (.inr (.inl ⟨rfl, hb', ha, _, h⟩)))
      · simp only [stepWith, hr] at h
        rw [fetch_misaligned (by rw [hm]; omega) ha] at h
        exact .inr (.inr (.inl ⟨rfl, hb, ha, (Host.Outcome.next.inj h).symm⟩))
    · simp only [stepWith, hr] at h
      rw [fetch_opcode_out_of_bounds (by rw [hm]; omega)] at h
      exact .inr (.inl ⟨rfl, hb, (Host.Outcome.next.inj h).symm⟩)
  · rw [stepWith_halted hr] at h
    exact .inl ⟨r, rfl, (Host.Outcome.next.inj h).symm⟩

end Sys2Proof.Machine
end

