-- ==== Sys2Proof/Tests/Slice0.lean ====
section
/-! SUPPORT. The model's own tests. Every expected result is read from the spec: the byte column of R93 and the vectors of
`95_test_vectors.md`, whose names (LG1, AR3, F5, AS15, ...) the tests carry; where no vector covers a case, the rule named in
the comment. At the end, one witness for the hypotheses of each statement. -/

namespace Sys2Proof.Tests

open Sys2Proof.Machine Sys2Proof.Claims

/-! ### Helpers -/

/-- `State.reset` with some registers, a pc, and bytes at that pc. -/
def boot (pc : Word) (bytes : List Byte) (regs : List (Reg × Word)) : State :=
  regs.foldl (fun s p => s.setReg p.1 p.2) { State.reset with pc := pc, mem := Memory.load [] pc.toNat bytes }

/-- The same with bytes at another address too. -/
def bootWith (pc : Word) (bytes : List Byte) (regs : List (Reg × Word)) (a : Nat) (data : List Byte) : State :=
  { boot pc bytes regs with mem := Memory.load (boot pc bytes regs).mem a data }

/-- The flags written `S Z P C`. -/
def flag (S Z P C : Bool) : Flags := { S := S, Z := Z, P := P, C := C }

/-- One step gives a next state of which `p` holds. -/
def steps1 (s : State) (p : State → Bool) : Bool :=
  match step s with
  | .next t => p t
  | .fault _ => false
  | .refused _ => false

/-- The step goes on at the next word with the register and the flags as given. -/
def gives (s : State) (r : Reg) (v : Word) (f : Flags) : Bool :=
  steps1 s fun t => t.reg r == v && t.flags == f && t.pc == s.pc + 4 && t.run == .running

/-- The step halts with the reason at the pc, every register, flag and memory byte kept. -/
def halts (s : State) (r : HaltReason) (pc : Word) : Bool :=
  steps1 s fun t => decide (t = { s with pc := pc, run := .halted r })

/-- The bytes of memory from `a` upward. -/
def bytesFrom (m : Memory) (a n : Nat) : List Byte := (List.range n).map fun k => m.read (a + k)

/-- The result of assembling one text, the default assembler. -/
def asm (source : String) : Option AsmResult := (assemble hw source.toList).result

/-- The result of assembling one text with `ASM_FULL_SET`. -/
def asmFull (source : String) : Option AsmResult := (assemble { hw with asmFullSet := true } source.toList).result

/-! ### Terms that the checks refuse -/

theorem test_wf_refuses_not_from : Instr.wellFormed (.not 3 7) = false := by decide

theorem test_wf_refuses_shl_from : Instr.wellFormed (.shl 3 7) = false := by decide

theorem test_wf_refuses_shr_from : Instr.wellFormed (.shr 3 7) = false := by decide

theorem test_wf_refuses_j_from : Instr.wellFormed (.j 3 7) = false := by decide

theorem test_wf_refuses_jc_from : Instr.wellFormed (.jc 3 7) = false := by decide

theorem test_wf_refuses_jp_from : Instr.wellFormed (.jp 3 7) = false := by decide

theorem test_wf_refuses_jz_from : Instr.wellFormed (.jz 3 7) = false := by decide

theorem test_wf_refuses_js_from : Instr.wellFormed (.js 3 7) = false := by decide

theorem test_wf_refuses_jnc_from : Instr.wellFormed (.jnc 3 7) = false := by decide

theorem test_wf_refuses_jnp_from : Instr.wellFormed (.jnp 3 7) = false := by decide

theorem test_wf_refuses_jnz_from : Instr.wellFormed (.jnz 3 7) = false := by decide

theorem test_wf_refuses_jns_from : Instr.wellFormed (.jns 3 7) = false := by decide

theorem test_wf_refuses_ldu_from : Instr.wellFormed (.ldu 1 15 0) = false := by decide

theorem test_wf_refuses_ldl_from : Instr.wellFormed (.ldl 1 15 0) = false := by decide

theorem test_wf_refuses_ori_from : Instr.wellFormed (.ori 1 15 0) = false := by decide

theorem test_wf_refuses_nop_fields :
    Instr.wellFormed (.nop 1 0 0) = false ∧ Instr.wellFormed (.nop 0 1 0) = false ∧ Instr.wellFormed (.nop 0 0 1) = false :=
  by decide

theorem test_wf_refuses_call_fields :
    Instr.wellFormed (.call 1 0 0) = false ∧ Instr.wellFormed (.call 0 1 0) = false
      ∧ Instr.wellFormed (.call 0 0 1) = false :=
  by decide

theorem test_wf_refuses_ret_fields :
    Instr.wellFormed (.ret 1 0 0) = false ∧ Instr.wellFormed (.ret 0 1 0) = false ∧ Instr.wellFormed (.ret 0 0 1) = false :=
  by decide

theorem test_wf_refuses_halt_fields :
    Instr.wellFormed (.halt 1 0 0) = false ∧ Instr.wellFormed (.halt 0 1 0) = false
      ∧ Instr.wellFormed (.halt 0 0 1) = false :=
  by decide

theorem test_wf_accepts_canonical : Instr.wellFormed (.not 3 0) = true ∧ Instr.wellFormed (.halt 0 0 0) = true := by decide

theorem test_opcodes_must_differ : Config.opcodesDistinct { hw with opcode := fun _ => 0 } = false := by decide

theorem test_subops_must_differ : Config.subopsDistinct { hw with subop := fun _ => 0 } = false := by decide

theorem test_mem_size_must_fit : Config.memSizeFits { hw with memSize := 2 ^ 32 + 1 } = false := by decide

theorem test_parity_width_must_be_listed : Config.parityWidthListed { hw with parityWidth := 16 } = false := by decide

theorem test_widths_must_be_listed :
    Config.widthsListed { hw with xlen := 64 } = false ∧ Config.widthsListed { hw with nreg := 32 } = false
      ∧ Config.widthsListed { hw with ilen := 2 } = false ∧ Config.widthsListed hw = true :=
  by decide

theorem test_config_wf_needs_every_check :
    Config.wellFormed { hw with xlen := 64 } = false ∧ Config.wellFormed { hw with opcode := fun _ => 0 } = false
      ∧ Config.wellFormed { hw with subop := fun _ => 0 } = false
      ∧ Config.wellFormed { hw with memSize := 2 ^ 32 + 1 } = false
      ∧ Config.wellFormed { hw with parityWidth := 16 } = false :=
  by decide

/-! ### Every instruction, decoded from the bytes of R93 -/

/-- The bytes, as this hardware decodes them. -/
def dec (b0 b1 b2 b3 : Byte) : Except DecodeError (Instr × List Byte) := decode hw [b0, b1, b2, b3]

theorem test_decode_and : dec 0x00 0x00 0x00 0x1F = .ok (.and 1 15, []) := rfl

theorem test_decode_or : dec 0x00 0x01 0x00 0x2E = .ok (.or 2 14, []) := rfl

theorem test_decode_not : dec 0x00 0x02 0x00 0x30 = .ok (.not 3 0, []) := rfl

theorem test_decode_xor : dec 0x00 0x03 0x00 0x4D = .ok (.xor 4 13, []) := rfl

theorem test_decode_shl : dec 0x00 0x04 0x00 0x50 = .ok (.shl 5 0, []) := rfl

theorem test_decode_shr : dec 0x00 0x05 0x00 0x60 = .ok (.shr 6 0, []) := rfl

theorem test_decode_add : dec 0x01 0x00 0x00 0x7C = .ok (.add 7 12, []) := rfl

theorem test_decode_sub : dec 0x01 0x01 0x00 0xAF = .ok (.sub 10 15, []) := rfl

theorem test_decode_mul : dec 0x01 0x02 0x00 0x8B = .ok (.mul 8 11, []) := rfl

theorem test_decode_div : dec 0x01 0x03 0x00 0x9A = .ok (.div 9 10, []) := rfl

theorem test_decode_mod : dec 0x01 0x04 0x00 0xA9 = .ok (.mod 10 9, []) := rfl

theorem test_decode_cmp : dec 0x01 0x05 0x00 0xB8 = .ok (.cmp 11 8, []) := rfl

theorem test_decode_ldr : dec 0x02 0x00 0x00 0x09 = .ok (.ldr 0 9, []) := rfl

theorem test_decode_ldm : dec 0x02 0x01 0x00 0xC7 = .ok (.ldm 12 7, []) := rfl

theorem test_decode_ldb : dec 0x02 0x02 0x00 0xD6 = .ok (.ldb 13 6, []) := rfl

theorem test_decode_stm : dec 0x03 0x01 0x00 0xE5 = .ok (.stm 14 5, []) := rfl

theorem test_decode_stb : dec 0x03 0x02 0x00 0xF4 = .ok (.stb 15 4, []) := rfl

theorem test_decode_ldu : dec 0x04 0x34 0x12 0x10 = .ok (.ldu 1 0 0x1234, []) := rfl

theorem test_decode_ldl : dec 0x05 0xFF 0x00 0x20 = .ok (.ldl 2 0 0xFF, []) := rfl

theorem test_decode_ori : dec 0x06 0x78 0x56 0x10 = .ok (.ori 1 0 0x5678, []) := rfl

theorem test_decode_j : dec 0x07 0x00 0x00 0x50 = .ok (.j 5 0, []) := rfl

theorem test_decode_jc : dec 0x07 0x01 0x00 0xC0 = .ok (.jc 12 0, []) := rfl

theorem test_decode_jp : dec 0x07 0x02 0x00 0x10 = .ok (.jp 1 0, []) := rfl

theorem test_decode_jz : dec 0x07 0x03 0x00 0x20 = .ok (.jz 2 0, []) := rfl

theorem test_decode_js : dec 0x07 0x04 0x00 0x30 = .ok (.js 3 0, []) := rfl

theorem test_decode_jnc : dec 0x07 0x05 0x00 0x40 = .ok (.jnc 4 0, []) := rfl

theorem test_decode_jnp : dec 0x07 0x06 0x00 0x50 = .ok (.jnp 5 0, []) := rfl

theorem test_decode_jnz : dec 0x07 0x07 0x00 0x60 = .ok (.jnz 6 0, []) := rfl

theorem test_decode_jns : dec 0x07 0x08 0x00 0x70 = .ok (.jns 7 0, []) := rfl

theorem test_decode_nop : dec 0x08 0x00 0x00 0x00 = .ok (.nop 0 0 0, []) := rfl

theorem test_decode_call : dec 0x09 0x00 0x00 0x00 = .ok (.call 0 0 0, []) := rfl

theorem test_decode_ret : dec 0x0A 0x00 0x00 0x00 = .ok (.ret 0 0 0, []) := rfl

theorem test_decode_halt : dec 0xFF 0x00 0x00 0x00 = .ok (.halt 0 0 0, []) := rfl

/-- CT1 -/
theorem test_decode_keeps_ignored_fields : dec 0x08 0xAA 0xBB 0xCC = .ok (.nop 0xBBAA 12 12, []) := rfl

theorem test_decode_table_word :
    decodeTableWord 24 0x000102 = some (.ldm 0 0) ∧ decodeTableWord 32 0x10123404 = some (.ldu 1 0 0x1234)
      ∧ decodeTableWord 32 0x0000000B = none ∧ decodeTableWord 40 0 = none :=
  by decide

/-- LG17, LG18, LS17 -/
theorem test_unknown_subop :
    dec 0x00 0x06 0x00 0x12 = .error (.unknownSubop 0x00 6)
      ∧ dec 0x00 0x00 0x01 0x12 = .error (.unknownSubop 0x00 0x0100)
      ∧ dec 0x03 0x00 0x00 0x12 = .error (.unknownSubop 0x03 0) := ⟨rfl, rfl, rfl⟩

/-- CT6, CT8 -/
theorem test_unknown_opcode :
    dec 0x0B 0x00 0x00 0x00 = .error (.unknownOpcode 0x0B 0)
      ∧ dec 0xFE 0x00 0x00 0x00 = .error (.unknownOpcode 0xFE 0) := ⟨rfl, rfl⟩

theorem test_truncated : decode hw [0x08, 0x00, 0x00] = .error .truncated := rfl

/-- R93 -/
theorem test_encode :
    encode hw (.sub 10 15) = [0x01, 0x01, 0x00, 0xAF] ∧ encodeWord hw (.ldu 1 0 0x1234) = 0x10123404 := by decide

/-! ### One step of each instruction -/

theorem test_and_LG1 :
    gives (boot 0 [0, 0, 0, 0x12] [(1, 0xF0F0), (2, 0xFF00)]) 1 0xF000 (flag false false true false) = true := by decide

theorem test_and_LG2 :
    gives (boot 0 [0, 0, 0, 0x11] [(1, 0x80000000)]) 1 0x80000000 (flag true false false false) = true := by decide

theorem test_or_LG3 :
    gives (boot 0 [0, 1, 0, 0x12] [(1, 0x80000000), (2, 1)]) 1 0x80000001 (flag true false true false) = true := by decide

theorem test_or_LG20 : gives (boot 0 [0, 1, 0, 0x11] [(1, 0x100)]) 1 0x100 (flag false false false false) = true := by decide

theorem test_not_LG6 :
    gives (boot 0 [0, 2, 0, 0x37] [(3, 0xF), (7, 5)]) 3 0xFFFFFFF0 (flag true false true false) = true := by decide

theorem test_xor_LG9 :
    gives (boot 0 [0, 3, 0, 0x12] [(1, 0xFF00FF00), (2, 0x0F0F0F0F)]) 1 0xF00FF00F (flag true false true false) = true :=
  by decide

theorem test_shl_LG10 :
    gives (boot 0 [0, 4, 0, 0x50] [(5, 0xC0000001)]) 5 0x80000002 (flag true false true true) = true := by decide

theorem test_shr_LG13 : gives (boot 0 [0, 5, 0, 0x60] [(6, 3)]) 6 1 (flag false false false true) = true := by decide

theorem test_shr_LG16 :
    gives (boot 0 [0, 5, 0, 0x60] [(6, 0x80000000)]) 6 0x40000000 (flag false false false false) = true := by decide

theorem test_add_AR1 :
    gives (boot 0 [1, 0, 0, 0x12] [(1, 0xFFFFFFFF), (2, 1)]) 1 0 (flag false true true true) = true := by decide

theorem test_add_AR3 : gives (boot 0 [1, 0, 0, 0x11] [(1, 0x80000001)]) 1 2 (flag false false false true) = true := by decide

theorem test_sub_AR6 :
    gives (boot 0 [1, 1, 0, 0x12] [(1, 1), (2, 2)]) 1 0xFFFFFFFF (flag true false true true) = true := by decide

theorem test_sub_AR5 : gives (boot 0 [1, 1, 0, 0x12] [(1, 5), (2, 3)]) 1 2 (flag false false false false) = true := by decide

theorem test_mul_AR10 :
    gives (boot 0 [1, 2, 0, 0x12] [(1, 0x10000), (2, 0x10000)]) 1 0 (flag false true true true) = true := by decide

theorem test_mul_AR11 :
    gives (boot 0 [1, 2, 0, 0x12] [(1, 0xFFFFFFFF), (2, 0xFFFFFFFF)]) 1 1 (flag false false false true) = true := by decide

theorem test_div_AR15 : gives (boot 0 [1, 3, 0, 0x12] [(1, 7), (2, 0)]) 1 0 (flag false true true false) = true := by decide

theorem test_div_AR18 :
    gives (boot 0 [1, 3, 0, 0x12] [(1, 0x80000000), (2, 0xFFFFFFFF)]) 1 0 (flag false true true false) = true := by decide

theorem test_mod_AR21 : gives (boot 0 [1, 4, 0, 0x12] [(1, 7), (2, 0)]) 1 0 (flag false true true false) = true := by decide

theorem test_mod_AR23 :
    gives (boot 0 [1, 4, 0, 0x12] [(1, 0xFFFFFFFF), (2, 0x80000000)]) 1 0x7FFFFFFF (flag false false false false) = true :=
  by decide

theorem test_cmp_AR26 : gives (boot 0 [1, 5, 0, 0x12] [(1, 0), (2, 1)]) 1 0 (flag true false true true) = true := by decide

theorem test_cmp_AR28 :
    gives (boot 0 [1, 5, 0, 0x12] [(1, 0x80000000), (2, 1)]) 1 0x80000000 (flag false false false false) = true := by decide

theorem test_ldr_LS1 :
    gives (boot 0 [2, 0, 0, 0x12] [(2, 0xDEADBEEF)]) 1 0xDEADBEEF (flag false false false false) = true := by decide

theorem test_ldm_LS3_LS4 :
    gives (bootWith 0 [2, 1, 0, 0x12] [(2, 0x101)] 0x100 [0x11, 0x22, 0x33, 0x44, 0x55, 0x66]) 1 0x55443322 (flag false false false false) = true
      ∧ gives (bootWith 0 [2, 1, 0, 0x12] [(2, 0xFFFFC)] 0xFFFFC [1, 2, 3, 4]) 1 0x04030201 (flag false false false false) = true :=
  by decide

theorem test_ldm_LS5_LS19 :
    halts (boot 0xC [2, 1, 0, 0x12] [(2, 0xFFFFD), (1, 0xAAAA)]) (.outOfBoundsAccess 0xC 0xFFFFD 4 .read) 0x10 = true
      ∧ halts (boot 0 [2, 1, 0, 0x12] [(2, 0xFFFFFFFF)]) (.outOfBoundsAccess 0 0xFFFFFFFF 4 .read) 4 = true :=
  by decide

theorem test_ldb_LS8 :
    gives (bootWith 0 [2, 2, 0, 0x12] [(2, 0xFFFFF)] 0xFFFFF [0x80]) 1 0x80 (flag false false false false) = true :=
  by decide

theorem test_ldb_LS9 :
    halts (boot 0 [2, 2, 0, 0x12] [(2, 0x100000)]) (.outOfBoundsAccess 0 0x100000 1 .read) 4 = true := by decide

theorem test_stm_LS10 :
    steps1 (boot 0 [3, 1, 0, 0x12] [(1, 0x200), (2, 0xAABBCCDD)]) (fun t => bytesFrom t.mem 0x1FF 6 == [0, 0xDD, 0xCC, 0xBB, 0xAA, 0]) = true :=
  by decide

theorem test_stm_LS11 :
    halts (bootWith 0x10 [3, 1, 0, 0x21] [(2, 0xFFFFE), (1, 0x11223344)] 0xFFFFC [0x5A, 0x5A, 0x5A, 0x5A]) (.outOfBoundsAccess 0x10 0xFFFFE 4 .write) 0x14 = true :=
  by decide

theorem test_stb_LS14 :
    steps1 (bootWith 0 [3, 2, 0, 0x21] [(2, 0xFFFFE), (1, 0xAB)] 0xFFFFC [0x5A, 0x5A, 0x5A, 0x5A]) (fun t => bytesFrom t.mem 0xFFFFC 4 == [0x5A, 0x5A, 0xAB, 0x5A]) = true :=
  by decide

theorem test_stb_LS16 :
    halts (boot 0 [3, 2, 0, 0x12] [(1, 0x100000)]) (.outOfBoundsAccess 0 0x100000 1 .write) 4 = true := by decide

theorem test_ldu_IM1 :
    gives (boot 0 [4, 0x34, 0x12, 0x10] [(1, 0xFFFFFFFF)]) 1 0x12340000 (flag false false false false) = true := by decide

theorem test_ldl_IM3 :
    gives (boot 0 [5, 0xFF, 0xFF, 0x10] [(1, 0xFFFFFFFF)]) 1 0xFFFF (flag false false false false) = true := by decide

theorem test_ldl_IM7 : gives (boot 0 [5, 0, 0, 0x1F] [(1, 3)]) 1 0 (flag false false false false) = true := by decide

theorem test_ori_IM5 :
    gives (boot 0 [6, 0x0F, 0, 0x10] [(1, 0xF1)]) 1 0xFF (flag false false false false) = true := by decide

/-- `[0x07, k, 0, 0x10]` with r1 = 0x40 under all flags equal to `f` leaves the pc, and the flags as they were. -/
def jumps (k : Byte) (f : Bool) (pc : Word) : Bool :=
  steps1 { boot 0 [7, k, 0, 0x10] [(1, 0x40)] with flags := flag f f f f } fun t => t.pc == pc && t.flags == flag f f f f

theorem test_j_J1 : jumps 0 false 0x40 = true ∧ jumps 0 true 0x40 = true := by decide

theorem test_jc_J2 : jumps 1 false 4 = true ∧ jumps 1 true 0x40 = true := by decide

theorem test_jp_J3 : jumps 2 false 4 = true ∧ jumps 2 true 0x40 = true := by decide

theorem test_jz_J4 : jumps 3 false 4 = true ∧ jumps 3 true 0x40 = true := by decide

theorem test_js_J5 : jumps 4 false 4 = true ∧ jumps 4 true 0x40 = true := by decide

theorem test_jnc_J6 : jumps 5 false 0x40 = true ∧ jumps 5 true 4 = true := by decide

theorem test_jnp_J7 : jumps 6 false 0x40 = true ∧ jumps 6 true 4 = true := by decide

theorem test_jnz_J8 : jumps 7 false 0x40 = true ∧ jumps 7 true 4 = true := by decide

theorem test_jns_J9 : jumps 8 false 0x40 = true ∧ jumps 8 true 4 = true := by decide

/-- Only one flag is set: each conditional jump reads its own (R182 to R189). -/
theorem test_jumps_read_their_own_flag :
    ([1, 2, 3, 4].map fun k => steps1 { boot 0 [7, k, 0, 0x10] [(1, 0x40)] with flags := flag false true false false } fun t => t.pc == 0x40) = [false, false, true, false]
      ∧ ([1, 2, 3, 4].map fun k => steps1 { boot 0 [7, k, 0, 0x10] [(1, 0x40)] with flags := flag true false false true } fun t => t.pc == 0x40) = [true, false, false, true] :=
  by decide

theorem test_nop_CT1 :
    steps1 (boot 0 [8, 0xAA, 0xBB, 0xCC] [(1, 9)]) (fun t => decide (t = { boot 0 [8, 0xAA, 0xBB, 0xCC] [(1, 9)] with pc := 4 })) = true :=
  by decide

theorem test_halt_CT2 : halts (boot 0 [0xFF, 0x12, 0x34, 0x56] [(1, 9)]) .halt 4 = true := by decide

theorem test_call_CT3 :
    steps1 (boot 0 [9, 0xAA, 0xBB, 0xCC] [(1, 9)]) (fun t => decide (t = { boot 0 [9, 0xAA, 0xBB, 0xCC] [(1, 9)] with pc := 4 })) = true :=
  by decide

theorem test_ret_CT5 :
    steps1 (boot 4 [0x0A, 1, 2, 3] [(1, 9)]) (fun t => decide (t = { boot 4 [0x0A, 1, 2, 3] [(1, 9)] with pc := 8 })) = true :=
  by decide

theorem test_ret_fault_CT4 :
    (match stepUnder { hw with callretPolicy := .fault } (boot 0 [0x0A, 1, 2, 3] []) with | .next t => t.run == .halted (.unimplementedOpcode 0 0x0A 0x0201) && t.pc == 4 | _ => false) = true :=
  by decide

/-! ### Fetch, faults and run -/

theorem test_unknown_LG18 : halts (boot 0 [0, 0, 1, 0x12] []) (.unimplementedOpcode 0 0 0x0100) 4 = true := by decide

theorem test_unknown_nop_CT7 :
    (match stepUnder { hw with unknownOpPolicy := .nop } (boot 0 [0x0B, 0x12, 0x34, 0x56] []) with | .next t => t.run == .running && t.pc == 4 | _ => false) = true :=
  by decide

theorem test_fetch_F1 : halts (boot 0x42 [] []) (.alignmentFault 0x42) 0x43 = true := by decide

theorem test_fetch_F3 :
    halts (boot 0x100001 [] []) (.outOfBoundsAccess 0x100001 0x100001 1 .fetch) 0x100001 = true := by decide

theorem test_fetch_F4 :
    halts (boot 0xFFFFFFFF [] []) (.outOfBoundsAccess 0xFFFFFFFF 0xFFFFFFFF 1 .fetch) 0xFFFFFFFF = true := by decide

theorem test_fetch_F5 :
    steps1 (boot 0xFFFFC [8, 0, 0, 0] []) (fun t => t.pc == 0x100000 && t.run == .running) = true
      ∧ halts (boot 0x100000 [] []) (.outOfBoundsAccess 0x100000 0x100000 1 .fetch) 0x100000 = true :=
  by decide

theorem test_self_modifying_F9 :
    steps1 (boot 8 [3, 2, 0, 0x12, 8, 0, 0, 0] [(1, 0xC), (2, 0xFF)]) (fun t => halts t .halt 0x10) = true := by decide

theorem test_with_fetch_word :
    steps1 (State.reset.withFetchWord 32 0x00002A05) (fun t => t.reg 0 == 0x2A && t.pc == 4) = true
      ∧ steps1 ({ State.reset with run := .halted .halt }.withFetchWord 24 0x000102) (fun t => t.run == .running && t.pc == 4) = true :=
  by decide

theorem test_run_S1 :
    (match runFor 3 (boot 0 [0x05, 0x2A, 0, 0, 0xFF, 0, 0, 0] []) with | .halted t => t.reg 0 == 0x2A && t.pc == 8 && t.run.exitCode == some 0 | .outOfFuel _ => false) = true :=
  by decide

/-- R320, log 13 -/
theorem test_trace_at_the_end_of_memory : (boot 0xFFFFE [1, 2] []).trace.raw = [some 1, some 2, none, none] := by decide

/-- F2 at another address; R302, R320, log 12 -/
theorem test_trace_of_a_fault :
    steps1 (boot 0x42 [] []) (fun t => t.trace.run == .halted (.alignmentFault 0x42) && t.trace.pc == 0x43) = true :=
  by decide

theorem test_memory_is_canonical :
    (Memory.load [] 4 [1, 0, 2]) = [(4, 1), (6, 2)] ∧ (Memory.load [] 4 [1, 0, 2]).write 4 0 = [(6, 2)]
      ∧ Memory.wf [(4, 1), (4, 2)] = false ∧ Memory.wf [(4, 0)] = false :=
  by decide

/-! ### The assembler -/

theorem test_asm_AS2 : asm "sub ra, rf" = some (.image [0x01, 0x01, 0x00, 0xAF]) := by decide

theorem test_asm_AS9 : asm "ldl r2, $FFFF" = some (.image [0x05, 0xFF, 0xFF, 0x20]) := by decide

theorem test_asm_AS14 : asm "  add   r1 ,  r2   ; comment" = some (.image [0x01, 0x00, 0x00, 0x12]) := by decide

theorem test_asm_AS17 : asm "org 8\n.l: ldl r1, .l" = some (.image [0x05, 0x08, 0x00, 0x10]) := by decide

theorem test_asm_AS18 :
    (assemble { hw with orgPass1Literal := true } "org 8\n.l: ldl r1, .l".toList).result = some (.image [0x05, 0x04, 0x00, 0x10]) :=
  by decide

theorem test_asm_AS19 :
    (assemble hw ".a: org 16\n.b: j r1\nldl r2, .a\nldl r3, .b".toList).result = some (.image [0x07, 0, 0, 0x10, 0x05, 0, 0, 0x20, 0x05, 0x10, 0, 0x30])
      ∧ (lookupLabel (assemble hw ".a: org 16\n.b: j r1\nldl r2, .a\nldl r3, .b".toList).labels ".b".toList) = some 16 :=
  by decide

theorem test_asm_AS20 : asm "org 6\n.l: j r1" = some (.error 1 .misalignedOrg) := by decide

theorem test_asm_AS25 : asm "halt" = some (.error 1 .unknownMnemonic) := by decide

theorem test_asm_AS26 : asmFull "halt" = some (.image [0xFF, 0, 0, 0]) := by decide

theorem test_asm_AS30 : asm "" = some (.image []) := by decide

theorem test_asm_AS33 : asm ".a add r1, r2" = some (.error 1 .malformedLabel) := by decide

theorem test_asm_AS35 : asm "add,r1" = some (.error 1 .missingSeparator) := by decide

theorem test_asm_AS37 : asm "add r1, r2, r3" = some (.error 1 .trailingCharacters) := by decide

theorem test_asm_AS40 : asm "1add r1" = some (.error 1 .unexpectedCharacter) := by decide

theorem test_asm_AS41 : asm ".a: j r1\n.a: j r2" = some (.error 2 .duplicateLabel) := by decide

theorem test_asm_AS44 : asm "add r1" = some (.error 1 .badArgument) := by decide

theorem test_asm_AS49 : asm "add rA, r1" = some (.error 1 .badRegister) := by decide

/-- R249 -/
theorem test_asm_status_is_written_at_each_pass :
    (assemble hw "j r1".toList).status = [.pass1, .pass2] ∧ (assemble hw "1add r1".toList).status = [.pass1] := by decide

/-! ### Witnesses: the hypotheses of each statement are met -/

/-- A parameter record with other encoding maps: the opcodes of R84 plus 0x20, the sub-ops of R86 plus 0x100. -/
def shifted : Config := { hw with opcode := fun k => opcodeMap k + 0x20, subop := fun o => subopMap o + 0x100 }

theorem witness_DecodingAnEncodingGivesItBack :
    hw.wellFormed = true ∧ shifted.wellFormed = true
      ∧ Config.wellFormed { hw with memSize := 7, parityWidth := 8 } = true
      ∧ decode shifted (encode shifted (.ldm 1 2)) = .ok (.ldm 1 2, []) :=
  by decide

theorem witness_EncodingADecodingGivesTheBytes :
    decode hw [0xFF, 0x12, 0x34, 0x56, 0x00] = .ok (.halt 0x3412 5 6, [0x00]) := rfl

theorem witness_DecoderFollowsTheOpcodeTable :
    decodeWord hw 0x12000000 = .ok (.and 1 2)
      ∧ (0x12000000 : Word) &&& (Instr.and 3 4).tableMask = (Instr.and 3 4).tableMatch
      ∧ (0x12000000 : Word) &&& (Instr.and 5 6).tableMask = (Instr.and 5 6).tableMatch
      ∧ decodeWord hw 0x12000600 = .error (.unknownSubop 0 6) :=
  by decide

/-- The ends of every range. -/
theorem witness_UnknownEncodingsAreExactlyThoseListed :
    UnknownEncoding 0x0B 0 ∧ UnknownEncoding 0xFE 0xFFFF ∧ UnknownEncoding 0 6 ∧ UnknownEncoding 1 6
      ∧ UnknownEncoding 2 3 ∧ UnknownEncoding 3 0 ∧ UnknownEncoding 3 3 ∧ UnknownEncoding 7 9
      ∧ ¬ UnknownEncoding 0x0A 9 ∧ ¬ UnknownEncoding 0xFF 0 ∧ ¬ UnknownEncoding 0 5 ∧ ¬ UnknownEncoding 1 5
      ∧ ¬ UnknownEncoding 2 2 ∧ ¬ UnknownEncoding 3 1 ∧ ¬ UnknownEncoding 3 2
      ∧ ¬ UnknownEncoding 7 8 := by simp [UnknownEncoding]

/-- The first and the last address an instruction can be fetched from. -/
theorem witness_StepRunsTheDecodedInstruction :
    CanFetch (boot 0 [1, 0, 0, 0x12] []) ∧ decode hw (bytesAtPc (boot 0 [1, 0, 0, 0x12] [])) = .ok (.add 1 2, [])
      ∧ CanFetch (boot 0xFFFFC [8, 0, 0, 0] [])
      ∧ decode hw (bytesAtPc (boot 0xFFFFC [8, 0, 0, 0] [])) = .ok (.nop 0 0 0, []) := by unfold CanFetch; decide

theorem witness_AHaltedStepChangesNothing :
    (∃ r, ({ State.reset with run := .halted .halt } : State).run = .halted r)
      ∧ (boot 0 [8, 0, 0, 0] []).run = .running ∧ steps1 (boot 0 [8, 0, 0, 0] []) (fun t => t.run == .running) = true
      ∧ steps1 (boot 0 [0xFF, 0, 0, 0] []) (fun t => t.run == .halted .halt) = true := ⟨⟨_, rfl⟩, by decide, by decide, by decide⟩

/-- A machine with another `MEM_SIZE` steps to Halted with the reason and the pc given. -/
def haltsIn (n : Nat) (pc : Word) (r : HaltReason) (pc' : Word) : Bool :=
  match stepUnder { hw with memSize := n } (boot pc [8, 0, 0, 0] []) with
  | .next t => t.run == .halted r && t.pc == pc'
  | .fault _ => false
  | .refused _ => false

/-- F6, F7, F8 and the sizes between: one clause each. -/
theorem witness_FetchChecksInOrder :
    hw.memSize < 2 ^ 32 ∧ (8 : Nat) < 2 ^ 32 ∧ (boot 4 [8, 0, 0, 0] []).run = .running
      ∧ haltsIn 4 4 (.outOfBoundsAccess 4 4 1 .fetch) 4 = true ∧ haltsIn 5 3 (.alignmentFault 3) 4 = true
      ∧ haltsIn 5 4 (.outOfBoundsAccess 4 5 2 .fetch) 5 = true
      ∧ haltsIn 6 4 (.outOfBoundsAccess 4 5 2 .fetch) 5 = true
      ∧ haltsIn 7 4 (.outOfBoundsAccess 4 7 1 .fetch) 7 = true
      ∧ decode { hw with memSize := 8 } (bytesAtPc (boot 4 [8, 0, 0, 0] [])) = .ok (.nop 0 0 0, [])
      ∧ (boot 4 [] []).pc.toNat % 4 = 0 ∧ (boot 4 [] []).pc.toNat + 4 ≤ 8 ∧ 8 % 4 = 0 :=
  by decide

theorem witness_UnknownEncodingsRaiseUnimplementedOpcode :
    CanFetch (boot 0xFFFFC [3, 0, 0, 0x12] []) ∧ bytesAtPc (boot 0xFFFFC [3, 0, 0, 0x12] []) = [3, 0, 0, 0x12]
      ∧ UnknownEncoding (3 : Byte).toNat ((0 : Byte).toNat + 256 * (0 : Byte).toNat) := by unfold CanFetch UnknownEncoding; decide

theorem witness_FaultsArePrecise :
    (∃ t, step (boot 0x42 [] [(1, 5)]) = .next t ∧ t.run = .halted (.alignmentFault 0x42))
      ∧ (boot 0x42 [] [(1, 5)]).run = .running ∧ ∃ t, step (boot 0 [0xFF, 0, 0, 0] []) = .next t
      ∧ t.run = .halted .halt := ⟨⟨_, rfl, by decide⟩, by decide, _, rfl, by decide⟩

theorem witness_EveryStepKeepsMemoryCanonical :
    (boot 0 [3, 1, 0, 0x12] [(1, 0xFFFFC), (2, 0xAABB00DD)]).memoryOk = true
      ∧ steps1 (boot 0 [3, 1, 0, 0x12] [(1, 0xFFFFC), (2, 0xAABB00DD)]) (fun t => t.mem.length == 6) = true :=
  by decide

/-- The invariant is not true of every halted state. -/
theorem witness_EveryStepKeepsTheHaltRecordConsistent :
    (boot 0 [0xFF, 0, 0, 0] []).haltRecordOk = true
      ∧ steps1 (boot 0 [0xFF, 0, 0, 0] []) (fun t => t.haltRecordOk && t.run.isHalted) = true
      ∧ State.haltRecordOk { State.reset with run := .halted .halt } = false :=
  by decide

theorem witness_OnlyTakenJumpsMovePc :
    (∃ t, exec (.j 1 0) (boot 4 [] [(1, 0x40)]) = .next t ∧ t.pc = 0x40)
      ∧ ∃ t, exec (.jc 1 0) (boot 4 [] [(1, 0x40)]) = .next t ∧ t.pc = 4 := ⟨⟨_, rfl, by decide⟩, _, rfl, by decide⟩

theorem witness_OnlyLogicAndArithmeticWriteFlags :
    (∃ t, exec (.cmp 1 2) State.reset = .next t) ∧ IsLogicOrArithmetic (.cmp 1 2)
      ∧ (∃ t, exec (.ldm 1 2) State.reset = .next t) ∧ ¬ IsLogicOrArithmetic (.ldm 1 2)
      ∧ (Instr.ldm 1 2).opClass ≠ .jump ∧ (∃ t, exec (.jc 1 2) State.reset = .next t)
      ∧ ¬ IsLogicOrArithmetic (.jc 1 2) ∧ ∃ t, exec (.j 1 2) State.reset = .next t := by
  unfold IsLogicOrArithmetic
  exact ⟨⟨_, rfl⟩, by decide, ⟨_, rfl⟩, by decide, by decide, ⟨_, rfl⟩, by decide, _, rfl⟩

theorem witness_OnlyTheDestinationIsWritten :
    (∃ t, exec (.ldu 1 0 7) State.reset = .next t) ∧ destination (.ldu 1 0 7) ≠ some 2
      ∧ (∃ t, exec (.stm 1 2) State.reset = .next t)
      ∧ destination (.stm 1 2) ≠ some 1 := ⟨⟨_, rfl⟩, by decide, ⟨_, rfl⟩, by decide⟩

theorem witness_OnlyStoredBytesChange :
    (∃ t, exec (.stm 1 2) (boot 4 [] [(1, 0xFFFFC), (2, 0x01020304)]) = .next t
      ∧ bytesFrom t.mem 0xFFFFC 4 = [4, 3, 2, 1])
      ∧ (∃ t, exec (.stb 1 2) (boot 4 [] [(1, 0xFFFFF), (2, 0x01020304)]) = .next t
      ∧ bytesFrom t.mem 0xFFFFE 2 = [0, 4]) ∧ (boot 4 [] [(1, 0xFFFFC)]).mem.wf = true
      ∧ storeTo (.stm 1 2) = some (1, 4) ∧ storeTo (.stb 1 2) = some (1, 1) ∧ storeTo (.cmp 1 2) = none
      ∧ ∃ t, exec (.cmp 1 2) (boot 4 [] []) = .next t := ⟨⟨_, rfl, by decide⟩, ⟨_, rfl, by decide⟩, by decide, by decide, by decide, by decide, _, rfl⟩

theorem witness_OnlyHaltAndBadAccessesStopTheEngine :
    (∃ t, exec (.halt 0 0 0) (boot 4 [] []) = .next t ∧ t.run = .halted .halt)
      ∧ (∃ t, exec (.ldb 1 2) (boot 4 [] [(2, 0x100000)]) = .next t
      ∧ t.run = .halted (.outOfBoundsAccess 0 0x100000 1 .read))
      ∧ ∃ t, exec (.ldb 1 2) (boot 4 [] [(2, 0xFFFFF)]) = .next t
      ∧ t.run = .running := ⟨⟨_, rfl, by decide⟩, ⟨_, rfl, by decide⟩, _, rfl, by decide⟩

/-- S5 -/
theorem witness_CmpCompletes :
    ∃ u, exec (.sub 1 2) (boot 4 [] [(1, 0), (2, 1)]) = .next u ∧ u.flags = flag true false true true := ⟨_, rfl, by decide⟩

/-- Both branches at the ends of their ranges. -/
theorem witness_LoadsComplete :
    ((boot 4 [] [(2, 0xFFFFC)]).reg 2).toNat + 4 ≤ 0x100000
      ∧ ¬ ((boot 4 [] [(2, 0xFFFFD)]).reg 2).toNat + 4 ≤ 0x100000
      ∧ ((boot 4 [] [(2, 0xFFFFF)]).reg 2).toNat < 0x100000
      ∧ ¬ ((boot 4 [] [(2, 0x100000)]).reg 2).toNat < 0x100000 :=
  by decide

/-- Both branches at the ends of their ranges. -/
theorem witness_StoresComplete :
    (boot 4 [] [(1, 0xFFFFC)]).mem.wf = true ∧ ((boot 4 [] [(1, 0xFFFFC)]).reg 1).toNat + 4 ≤ 0x100000
      ∧ ¬ ((boot 4 [] [(1, 0xFFFFD)]).reg 1).toNat + 4 ≤ 0x100000
      ∧ ((boot 4 [] [(1, 0xFFFFF)]).reg 1).toNat < 0x100000
      ∧ ¬ ((boot 4 [] [(1, 0x100000)]).reg 1).toNat < 0x100000 :=
  by decide

theorem witness_MixedWidthAccessesSeeOneByteArray :
    Memory.wf [(4, 1)] = true ∧ (Memory.writeLE [(4, 1)] 3 4 0x11223344).readLE 4 1 = 0x33
      ∧ ((Memory.writeLE [(4, 1)] 6 1 0xAB).readLE 4 4) = 0xAB0001 :=
  by decide

theorem witness_AStoredWordIsTheNextInstruction :
    CanFetch (boot 0x200 [] [(1, 0x200), (2, 0x000000FF)])
      ∧ (boot 0x200 [] [(1, 0x200), (2, 0x000000FF)]).mem.wf = true
      ∧ (boot 0x200 [] [(1, 0x200), (2, 0x000000FF)]).reg 1 = (boot 0x200 [] [(1, 0x200), (2, 0x000000FF)]).pc
      ∧ decodeWord hw ((boot 0x200 [] [(1, 0x200), (2, 0x000000FF)]).reg 2) = .ok (.halt 0 0 0)
      ∧ ∃ t, exec (.stm 1 2) (boot 0x200 [] [(1, 0x200), (2, 0x000000FF)]) = .next t := by
  unfold CanFetch
  exact ⟨by decide, by decide, by decide, rfl, _, rfl⟩

/-- S2 -/
theorem witness_LduThenOriBuildsAConstant :
    ∃ t u, exec (.ldu 1 0 0x1234) State.reset = .next t ∧ exec (.ori 1 0 0x5678) t = .next u
      ∧ u.reg 1 = 0x12345678 := ⟨_, _, rfl, rfl, by decide⟩

/-- The lowest address outside memory and the highest inside it. -/
theorem witness_ABadJumpTargetFaultsAtTheNextFetch :
    (boot 4 [] [(1, 0x100000)]).run = .running ∧ takenJump (.j 1 0) (boot 4 [] [(1, 0x100000)]).flags = true
      ∧ (∃ t, exec (.j 1 0) (boot 4 [] [(1, 0x100000)]) = .next t
      ∧ halts t (.outOfBoundsAccess 0x100000 0x100000 1 .fetch) 0x100000 = true)
      ∧ ∃ t, exec (.jnc 1 0) (boot 4 [] [(1, 0xFFFFF)]) = .next t
      ∧ halts t (.alignmentFault 0xFFFFF) 0x100000 = true := ⟨by decide, by decide, ⟨_, rfl, by decide⟩, _, rfl, by decide⟩

/-- A launch with a two-byte image over a fill of 0x5A at 1 and 2. -/
def small : Launch where
  image := [1, 0]
  regs := Vector.replicate 16 7
  flags := flag true false true false
  fill := [(1, 0x5A), (2, 0x5A)]

theorem witness_LaunchIsTheResetOfTheSpec :
    small.fill.wf = true ∧ small.image.length ≤ 0x100000 ∧ (∃ t, launch small State.reset = .next t
      ∧ bytesFrom t.mem 0 4 = [1, 0, 0x5A, 0])
      ∧ 0x100000 < (List.replicate 0x100001 (0 : Byte)).length := ⟨by decide, by decide, ⟨_, rfl, by decide⟩, by rw [List.length_replicate]; omega⟩

theorem witness_TheHardwareIsTheParametricMachineAtItsValues : hw.wellFormed = true ∧ shifted.wellFormed = true := by decide

theorem witness_EngineAndAssemblerAreSeparate :
    (∃ t, step (boot 0 [1, 0, 0, 0x12] [(1, 1)]) = .next t)
      ∧ (State.reset.asmStart "j r1".toList).asm = ((boot 4 [8] [(1, 1)]).asmStart "j r1".toList).asm
      ∧ (State.reset.asmStart "j r1".toList).asmStep.asm.lc = 4
      ∧ ∃ t, launch small (State.reset.asmStart "j r1".toList) = .next t := ⟨⟨_, rfl⟩, by decide, by decide, _, rfl⟩

theorem witness_LaunchMeetsTheInvariants :
    small.fill.wf = true ∧ small.fill.below 0x100000 = true
      ∧ ∃ t, launch small State.reset = .next t := ⟨by decide, by decide, _, rfl⟩

theorem witness_ARunEndsAtTheFirstHalt :
    (boot 0 [8, 0, 0, 0, 0xFF, 0, 0, 0] []).run = .running
      ∧ (∃ t, runFor 2 (boot 0 [8, 0, 0, 0, 0xFF, 0, 0, 0] []) = .halted t)
      ∧ ∃ t, runFor 1 (boot 0 [8, 0, 0, 0, 0xFF, 0, 0, 0] []) = .outOfFuel t := ⟨by decide, ⟨_, rfl⟩, _, rfl⟩

theorem witness_HostSeesTheStateAndTheExitCode : 3 < (boot 0xFFFFE [1, 2] []).trace.raw.length := by decide

theorem witness_TheImageIsItsInstructions :
    (assemble hw "j r1\norg 8\n.a:\nj r2".toList).result = some (.image [7, 0, 0, 0x10, 7, 0, 0, 0x20]) := by decide

theorem witness_TheCounterAgreesInBothPasses :
    hw.orgPass1Literal = false ∧ 2 ≤ (splitLines "org 8\nj r1".toList).length
      ∧ (AsmState.steps hw ((splitLines "org 8\nj r1".toList).length + 1 + 2) (AsmState.start "org 8\nj r1".toList)).phase = .pass2 :=
  by decide

theorem witness_ParseErrorsAreFoundInPassOne :
    (splitLines "j r1\n1add".toList)[1]? = some "1add".toList ∧ tokenize "1add".toList = .error .unexpectedCharacter
      ∧ (assemble hw "j r1\n1add".toList).result = some (.error 2 .unexpectedCharacter)
      ∧ AsmError.isParseError .unexpectedCharacter = true
      ∧ (splitLines "j r1\n1add".toList)[0]? = some "j r1".toList :=
  by decide

theorem witness_DuplicateLabelsAreRejected :
    (splitLines ".a:\n.a:".toList)[0]? = some ".a:".toList ∧ (splitLines ".a:\n.a:".toList)[1]? = some ".a:".toList
      ∧ tokenize ".a:".toList = .ok { label := some ".a".toList, mnemonic := none, argument := none } :=
  by decide

theorem witness_EveryAssemblerStepKeepsLabelsUnique :
    (AsmState.start ".a:\n.b:".toList).labelsUnique = true
      ∧ (AsmState.steps hw 2 (AsmState.start ".a:\n.b:".toList)).labels.length = 2 :=
  by decide

theorem witness_PassTwoOnlyReadsTheLabels :
    (AsmState.steps hw 2 (AsmState.start ".a: j r1".toList)).phase = .pass2 := by decide

/-- The hardware's parameters with `ORG_PASS1_LITERAL` true. -/
def literal : Config := { hw with orgPass1Literal := true }

/-- The assembler before line 1 of the text, with the counter given. -/
def atLine1 (phase : AsmPhase) (lc : Nat) (labels : List (List Char × Nat)) (text : String) : AsmState :=
  { AsmState.start text.toList with phase := phase, lc := lc, labels := labels }

/-- The tokens of a line, written out. -/
def toks (label mnemonic : Option String) (arg : Option Argument) : Tokens :=
  { label := label.map String.toList, mnemonic := mnemonic.map String.toList, argument := arg }

theorem processes_atLine1 {phase : AsmPhase} {lc : Nat} {T : List (List Char × Nat)} {text : String} {tok : Tokens}
    (h : splitLines text.toList = [text.toList]) (ht : tokenize text.toList = .ok tok) :
    Processes (atLine1 phase lc T text) phase tok :=
  ⟨rfl, text.toList, by simp [atLine1, AsmState.start, h], ht⟩

theorem labelIsNew_of_none {a : AsmState} {tok : Tokens} (h : tok.label = none) : LabelIsNew a tok :=
  fun _ hn => by simp [h] at hn

/-- AS58 and its neighbour: the counter reaches 2^32 and no further. -/
theorem witness_TheCounterStaysInTheAddressSpace :
    (atLine1 .pass1 (2 ^ 32) [] "j r1").phase = .pass1 ∧ (atLine1 .pass1 (2 ^ 32) [] "j r1").lc ≤ 2 ^ 32
      ∧ (assemble hw "org 4294967292\nj r1\nj r1".toList).result = some (.error 3 .locationCounterOverflow) :=
  by decide

/-- Both clauses where they meet. -/
theorem witness_TheCounterStaysInTheAddressSpace_lines :
    (∀ lc, Processes (atLine1 .pass1 lc [] "j r1") .pass1 (toks none "j" (some (.one "r1".toList))))
      ∧ (∀ lc, LabelIsNew (atLine1 .pass1 lc [] "j r1") (toks none "j" (some (.one "r1".toList))))
      ∧ "j".toList ≠ "org".toList ∧ 2 ^ 32 < (atLine1 .pass1 4294967293 [] "j r1").lc + 4
      ∧ (atLine1 .pass1 4294967292 [] "j r1").lc + 4 ≤ 2 ^ 32 := ⟨fun _ => processes_atLine1 (by decide) (by decide), fun _ => labelIsNew_of_none rfl, by decide, by decide, by decide⟩

theorem witness_TheCounterStaysInTheAddressSpace_literal :
    Processes (atLine1 .pass1 (2 ^ 32) [] "org x") .pass1 (toks none "org" (some (.one "x".toList)))
      ∧ LabelIsNew (atLine1 .pass1 (2 ^ 32) [] "org x") (toks none "org" (some (.one "x".toList)))
      ∧ literal.orgPass1Literal = true := ⟨processes_atLine1 (by decide) (by decide), labelIsNew_of_none rfl, rfl⟩

/-- One clause each, at the ends of the ranges. -/
theorem witness_OrgFollowsItsRule :
    applyOrg (some (.one "$FFFFFFFC".toList)) = .ok 0xFFFFFFFC ∧ applyOrg none = .error .badArgument
      ∧ applyOrg (some (.two "8".toList "8".toList)) = .error .badArgument
      ∧ applyOrg (some (.one "4294967296".toList)) = .error .immediateOutOfRange
      ∧ applyOrg (some (.one "4294967295".toList)) = .error .misalignedOrg
      ∧ applyOrg (some (.one "r1".toList)) = .error .badImmediate :=
  by decide

/-- An accepted org line in either pass. -/
theorem witness_OrgFollowsItsRule_lines :
    (∀ phase, Processes (atLine1 phase 4 [] ".a: org $FFFFFFFC") phase (toks ".a" "org" (some (.one "$FFFFFFFC".toList))))
      ∧ LabelIsNew (atLine1 .pass1 4 [] ".a: org $FFFFFFFC") (toks ".a" "org" (some (.one "$FFFFFFFC".toList)))
      ∧ hw.orgPass1Literal = false
      ∧ literal.orgPass1Literal = true := ⟨fun _ => processes_atLine1 (by decide) (by decide), fun _ _ _ => List.not_mem_nil, rfl, rfl⟩

/-- A refused org line in either pass. -/
theorem witness_OrgFollowsItsRule_errors :
    (∀ phase, Processes (atLine1 phase 4 [] "org 2") phase (toks none "org" (some (.one "2".toList))))
      ∧ LabelIsNew (atLine1 .pass1 4 [] "org 2") (toks none "org" (some (.one "2".toList)))
      ∧ applyOrg (some (.one "2".toList)) = .error .misalignedOrg := ⟨fun _ => processes_atLine1 (by decide) (by decide), labelIsNew_of_none rfl, by decide⟩

/-- The last counter from which the advance is no overflow (log 4). -/
theorem witness_OrgFollowsItsRule_literal :
    Processes (atLine1 .pass1 (2 ^ 32 - 4) [] "org 8") .pass1 (toks none "org" (some (.one "8".toList)))
      ∧ LabelIsNew (atLine1 .pass1 (2 ^ 32 - 4) [] "org 8") (toks none "org" (some (.one "8".toList)))
      ∧ literal.orgPass1Literal = true ∧ (atLine1 .pass1 (2 ^ 32 - 4) [] "org 8").lc + 4 ≤ 2 ^ 32
      ∧ ((atLine1 .pass1 (2 ^ 32 - 4) [] "org 8").step literal).lc = 2 ^ 32 := ⟨processes_atLine1 (by decide) (by decide), labelIsNew_of_none rfl, rfl, by decide, by decide⟩

/-- Both ends of every run of digits; the other items are those R264 lists. -/
theorem witness_ImmediateItemsHaveTheirValue :
    IsNumeral 10 decimalDigits "0903".toList 903 ∧ IsNumeral 16 hexadecimalDigits "09afAF".toList 0x9AFAF
      ∧ parseImmediate "0903".toList = some 903 ∧ parseImmediate "$09afAF".toList = some 0x9AFAF
      ∧ parseImmediate "$".toList = none ∧ parseImmediate "0x10".toList = none
      ∧ parseImmediate "$g".toList = none := by
  refine ⟨⟨[('0', 0), ('9', 9), ('0', 0), ('3', 3)], ?_⟩,
    ⟨[('0', 0), ('9', 9), ('a', 10), ('f', 15), ('A', 10), ('F', 15)], ?_⟩, ?_⟩ <;> decide

theorem witness_LabelsHaveTheCounterOfTheirLine :
    Processes (atLine1 .pass1 4 [(".b".toList, 0)] ".a: j r1") .pass1 (toks ".a" "j" (some (.one "r1".toList)))
      ∧ LabelIsNew (atLine1 .pass1 4 [(".b".toList, 0)] ".a: j r1") (toks ".a" "j" (some (.one "r1".toList))) := by
  refine ⟨processes_atLine1 (by decide) (by decide), fun name h v hv => ?_⟩
  obtain rfl : ".a".toList = name := Option.some.inj h
  have : ".a".toList = ".b".toList := congrArg Prod.fst (List.mem_singleton.1 hv)
  exact absurd this (by decide)

/-- A line that fails after its label is recorded (log 8), at a counter of 2^32 (log 4). -/
theorem witness_LabelsHaveTheCounterOfTheirLine_failing :
    Processes (atLine1 .pass1 (2 ^ 32) [] ".a: j r1") .pass1 (toks ".a" "j" (some (.one "r1".toList)))
      ∧ LabelIsNew (atLine1 .pass1 (2 ^ 32) [] ".a: j r1") (toks ".a" "j" (some (.one "r1".toList)))
      ∧ ((atLine1 .pass1 (2 ^ 32) [] ".a: j r1").step hw).phase = .failed 1 .locationCounterOverflow
      ∧ ((atLine1 .pass1 (2 ^ 32) [] ".a: j r1").step hw).labels = [(".a".toList, 2 ^ 32)] := ⟨processes_atLine1 (by decide) (by decide), fun _ _ _ => List.not_mem_nil, by decide, by decide⟩

/-- A forward reference to a label past the last instruction. -/
theorem witness_LabelsHaveTheCounterOfTheirLine_runs :
    (assemble hw "ldl r1, .a\n.a:".toList).result = some (.image [5, 4, 0, 0x10])
      ∧ (splitLines "ldl r1, .a\n.a:".toList)[1]? = some ".a:".toList
      ∧ tokenize ".a:".toList = .ok { label := some ".a".toList, mnemonic := none, argument := none }
      ∧ (".a".toList, 4) ∈ (assemble hw "ldl r1, .a\n.a:".toList).labels :=
  by decide

theorem witness_LabelsHaveTheCounterOfTheirLine_noOrg :
    HasNoOrg "ldl r1, .a\n.a:".toList := by
  intro line h tok ht
  rw [show splitLines "ldl r1, .a\n.a:".toList = ["ldl r1, .a".toList, ".a:".toList] by decide] at h
  rcases List.mem_cons.1 h with rfl | h
  · cases ht
    decide
  · cases List.mem_singleton.1 h
    cases ht
    decide

theorem witness_LabelReferencesGiveTheLabelsValue :
    (∀ T, Processes (atLine1 .pass2 0 T "ldu rf, .a_9") .pass2 (toks none "ldu" (some (.two (regName 15) ".a_9".toList))))
      ∧ TakesAValue hw "ldu".toList (fun X v => .ldu X 0 v)
      ∧ IsLabelItem ".a_9".toList := ⟨fun _ => processes_atLine1 (by decide) (by decide), .inr (.inl ⟨rfl, rfl⟩), ['a', '_', '9'], by decide, by decide, by
    intro ch h
    simp only [List.mem_cons, List.not_mem_nil, or_false] at h
    rcases h with rfl | rfl | rfl <;> decide⟩

/-- The two ends of the range, and no entry. -/
theorem witness_LabelReferencesGiveTheLabelsValue_tables :
    (∀ v, (".a".toList, v) ∉ (atLine1 .pass2 0 [] "ldl r1, .a").labels)
      ∧ (atLine1 .pass2 0 [(".a".toList, 0xFFFF)] "ldl r1, .a").labelsUnique = true
      ∧ (".a".toList, 0xFFFF) ∈ (atLine1 .pass2 0 [(".a".toList, 0xFFFF)] "ldl r1, .a").labels
      ∧ (atLine1 .pass2 0 [(".a".toList, 0x10000)] "ldl r1, .a").labelsUnique = true
      ∧ (".a".toList, 0x10000) ∈ (atLine1 .pass2 0 [(".a".toList, 0x10000)] "ldl r1, .a").labels
      ∧ ((atLine1 .pass2 0 [(".a".toList, 0xFFFF)] "ldl r1, .a").step hw).out = [5, 0xFF, 0xFF, 0x10] := ⟨fun _ => List.not_mem_nil, by decide, by decide, by decide, by decide, by decide⟩

theorem witness_LabelReferencesGiveTheLabelsValue_ori :
    TakesAValue { hw with asmFullSet := true } "ori".toList (fun X v => .ori X 0 v)
      ∧ TakesAValue hw "ldl".toList (fun X v => .ldl X 0 v) := ⟨.inr (.inr ⟨rfl, rfl, rfl⟩), .inl ⟨rfl, rfl⟩⟩

theorem witness_DoneAndFailedAreTerminal :
    (assemble hw "j r1".toList).phase = .done ∧ (assemble hw "halt".toList).phase = .failed 1 .unknownMnemonic := by decide

theorem witness_RegisterItemsAreTheRegisterNames :
    parseRegister "rf".toList = some 15 ∧ parseRegister "rF".toList = none ∧ parseRegister "r10".toList = none := by decide

theorem witness_AssemblingASpellingGivesItsBytes :
    Instr.wellFormed (.ldu 1 0 0x1234) = true ∧ spelling (.ldu 1 0 0x1234) = "ldu r1, $1234".toList := by decide

theorem witness_TheDefaultAssemblerAcceptsItsTable :
    Instr.wellFormed (.sub 10 15) = true ∧ inDefaultSet (.sub 10 15) = true ∧ Instr.wellFormed (.ori 1 0 1) = true
      ∧ inDefaultSet (.ori 1 0 1) = false ∧ asm "ori r1, $0001" = some (.error 1 .unknownMnemonic) :=
  by decide

end Sys2Proof.Tests
end

namespace Sys2Proof

/-! ### Decoding an encoding (R82, R84, R86) -/

/-- The classes of the R-form and the J-form select on `op16`. -/
theorem decodeClass_opClass (c : Config) (opc : Byte) (op16 : Half) (rT rF : Reg) (o : SubOp) :
    decodeClass c opc op16 rT rF o.opClass = decodeClass.decodeSubop c opc op16 rT rF o.opClass := by
  cases o <;> rfl

/-- Where the sub-ops of each class are distinct, the `op16` of a sub-operation selects its instruction. -/
theorem decodeClass_subop {c : Config} (h : c.subopsDistinct = true) (opc : Byte) (o : SubOp) (rT rF : Reg) :
    decodeClass c opc (c.subop o) rT rF o.opClass = .ok (o.instr rT rF) := by
  rw [decodeClass_opClass, decodeClass.decodeSubop, subopOf_subop h]

/-- The rule of an instruction's own class gives the instruction back from its fields. -/
theorem decodeClass_fields {c : Config} (h : c.subopsDistinct = true) (opc : Byte) (i : Instr) :
    decodeClass c opc (i.op16Field c) i.regFields.1 i.regFields.2 i.opClass = .ok i := by
  cases i with
  | and rT rF => exact decodeClass_subop h opc .and rT rF
  | or rT rF => exact decodeClass_subop h opc .or rT rF
  | not rT rF => exact decodeClass_subop h opc .not rT rF
  | xor rT rF => exact decodeClass_subop h opc .xor rT rF
  | shl rT rF => exact decodeClass_subop h opc .shl rT rF
  | shr rT rF => exact decodeClass_subop h opc .shr rT rF
  | add rT rF => exact decodeClass_subop h opc .add rT rF
  | sub rT rF => exact decodeClass_subop h opc .sub rT rF
  | mul rT rF => exact decodeClass_subop h opc .mul rT rF
  | div rT rF => exact decodeClass_subop h opc .div rT rF
  | mod rT rF => exact decodeClass_subop h opc .mod rT rF
  | cmp rT rF => exact decodeClass_subop h opc .cmp rT rF
  | ldr rT rF => exact decodeClass_subop h opc .ldr rT rF
  | ldm rT rF => exact decodeClass_subop h opc .ldm rT rF
  | ldb rT rF => exact decodeClass_subop h opc .ldb rT rF
  | stm rT rF => exact decodeClass_subop h opc .stm rT rF
  | stb rT rF => exact decodeClass_subop h opc .stb rT rF
  | j rT rF => exact decodeClass_subop h opc .j rT rF
  | jc rT rF => exact decodeClass_subop h opc .jc rT rF
  | jp rT rF => exact decodeClass_subop h opc .jp rT rF
  | jz rT rF => exact decodeClass_subop h opc .jz rT rF
  | js rT rF => exact decodeClass_subop h opc .js rT rF
  | jnc rT rF => exact decodeClass_subop h opc .jnc rT rF
  | jnp rT rF => exact decodeClass_subop h opc .jnp rT rF
  | jnz rT rF => exact decodeClass_subop h opc .jnz rT rF
  | jns rT rF => exact decodeClass_subop h opc .jns rT rF
  | ldu | ldl | ori | nop | call | ret | halt => rfl

theorem decodeFields_encode {c : Config} (ho : c.opcodesDistinct = true) (hs : c.subopsDistinct = true) (i : Instr) :
    decodeFields c (c.opcode i.opClass) (i.op16Field c) (selByte i.regFields.1 i.regFields.2) = .ok i := by
  simp only [decodeFields, classOf_opcode ho, toField_selByte, fromField_selByte, decodeClass_fields hs]

/-- A well-formed record keeps both encoding maps free of repetitions (R94). -/
theorem Config.maps_of_wellFormed {c : Config} (h : c.wellFormed = true) :
    c.opcodesDistinct = true ∧ c.subopsDistinct = true := by
  simp only [Config.wellFormed, Bool.and_eq_true] at h
  obtain ⟨⟨⟨⟨ho, hs⟩, -⟩, -⟩, -⟩ := h
  exact ⟨ho, hs⟩

theorem decode_encode_append {c : Config} (h : c.wellFormed = true) (i : Instr) (rest : List Byte) :
    decode c (encode c i ++ rest) = .ok (i, rest) := by
  obtain ⟨ho, hs⟩ := Config.maps_of_wellFormed h
  simp only [encode, List.cons_append, List.nil_append, decode_four, halfOfBytes_lo_hi, decodeFields_encode ho hs]
  rfl

end Sys2Proof

namespace Sys2Proof.Proofs

/-- Settles O2: the opcode byte selects the class, then the class reads the sub-op, the immediate and the registers back. -/
theorem decodingAnEncodingGivesItBack : Obligations.DecodingAnEncodingGivesItBack :=
  fun _ => decode_encode_append

end Sys2Proof.Proofs
namespace Sys2Proof.Machine

/-! ### The dispatch and the parametric machine (R7) -/

theorem exec_eq_execUnder (i : Instr) (s : State) : exec i s = execUnder Config.system3201 i s := by
  cases i <;> rfl

theorem step_eq_stepUnder (s : State) : step s = stepUnder Config.system3201 s := by
  have hexec : exec = execUnder Config.system3201 := funext₂ exec_eq_execUnder
  rw [step, stepUnder, hexec]

end Sys2Proof.Machine

namespace Sys2Proof.Proofs

open Sys2Proof.Machine

/-- Settles O21, with the widths from `Config.widths_of_wellFormed`. -/
theorem theHardwareIsTheParametricMachineAtItsValues : Obligations.TheHardwareIsTheParametricMachineAtItsValues := by
  refine ⟨exec_eq_execUnder, step_eq_stepUnder, by decide, fun c hc => ?_⟩
  obtain ⟨hx, hn, hi⟩ := Config.widths_of_wellFormed hc
  exact ⟨by rw [hx], by rw [hn], fun i => by rw [length_encode, hi]⟩

end Sys2Proof.Proofs
namespace Sys2Proof.Machine

/-! ### Rows of characters of one class (R222) -/

theorem takeWhile_append_stop {p : Char → Bool} {xs ys : List Char} (hx : ∀ ch ∈ xs, p ch = true)
    (hy : ys.takeWhile p = []) : (xs ++ ys).takeWhile p = xs := by
  rw [List.takeWhile_append_of_pos hx, hy, List.append_nil]

theorem dropWhile_append_stop {p : Char → Bool} {xs ys : List Char} (hx : ∀ ch ∈ xs, p ch = true)
    (hy : ys.takeWhile p = []) : (xs ++ ys).dropWhile p = ys := by
  have hd : ys.takeWhile p ++ ys.dropWhile p = ys := List.takeWhile_append_dropWhile
  rw [List.dropWhile_append_of_pos hx]
  rwa [hy, List.nil_append] at hd

theorem isSpaceChar_eq_false_of_isArgChar {ch : Char} (h : isArgChar ch = true) : isSpaceChar ch = false := by
  rw [Bool.eq_false_iff]
  intro hs
  simp only [isSpaceChar, Bool.or_eq_true, beq_iff_eq] at hs
  obtain (rfl | rfl) | rfl := hs <;> exact absurd h (by decide)

theorem isMnemonicChar_of_isLetter {ch : Char} (h : isLetter ch = true) : isMnemonicChar ch = true := by
  simp [isMnemonicChar, h]

theorem isArgChar_of_isMnemonicChar {ch : Char} (h : isMnemonicChar ch = true) : isArgChar ch = true := by
  rw [isMnemonicChar] at h
  simp [isArgChar, isLabelChar, h]

/-! ### The shapes of a mnemonic and of an item -/

/-- A mnemonic as R225 reads one: a letter, then letters and digits. -/
def isMnemonic : List Char → Bool
  | [] => false
  | ch :: cs => isLetter ch && cs.all isMnemonicChar

/-- An argument item as R226 reads one: one or more *argchars*. -/
def isItem (item : List Char) : Bool := item != [] && item.all isArgChar

theorem isItem_iff {item : List Char} : isItem item = true ↔ item ≠ [] ∧ ∀ ch ∈ item, isArgChar ch = true := by
  simp [isItem]

theorem isMnemonic_cons {ch : Char} {cs : List Char} :
    isMnemonic (ch :: cs) = true ↔ isLetter ch = true ∧ ∀ x ∈ cs, isMnemonicChar x = true := by
  simp [isMnemonic]

/-- A mnemonic could stand as an item; so the two share their facts about single characters. -/
theorem isItem_of_isMnemonic {name : List Char} (h : isMnemonic name = true) : isItem name = true := by
  cases name with
  | nil => cases h
  | cons ch cs =>
    obtain ⟨hch, hcs⟩ := isMnemonic_cons.1 h
    refine isItem_iff.2 ⟨List.cons_ne_nil _ _, List.forall_mem_cons.2 ⟨?_, fun x hx => ?_⟩⟩
    · exact isArgChar_of_isMnemonicChar (isMnemonicChar_of_isLetter hch)
    · exact isArgChar_of_isMnemonicChar (hcs x hx)

/-- A character outside *argchar* does not occur in an item. -/
theorem not_mem_of_isItem {item : List Char} {ch : Char} (h : isItem item = true) (hch : isArgChar ch = false) :
    ch ∉ item := by
  intro hmem
  rw [(isItem_iff.1 h).2 ch hmem] at hch
  cases hch

theorem skipSpace_item {item : List Char} (h : isItem item = true) (rest : List Char) :
    skipSpace (item ++ rest) = item ++ rest := by
  obtain ⟨hne, hall⟩ := isItem_iff.1 h
  cases item with
  | nil => exact absurd rfl hne
  | cons ch cs =>
    have hch : isSpaceChar ch = false := isSpaceChar_eq_false_of_isArgChar (hall ch List.mem_cons_self)
    simp [skipSpace, hch]

theorem atLineEnd_item {item : List Char} (h : isItem item = true) (rest : List Char) :
    atLineEnd (item ++ rest) = false := by
  have hsemi : ';' ∉ item := not_mem_of_isItem h (by decide)
  cases item with
  | nil => cases h
  | cons ch cs =>
    rw [List.cons_append, atLineEnd, beq_eq_false_iff_ne]
    rintro rfl
    exact hsemi List.mem_cons_self

/-! ### The tokens of an argument (R226) -/

theorem tokenizeItems_one (item : List Char) : tokenizeItems item [] = .ok (.one item) := rfl

theorem tokenizeItems_two (item₁ : List Char) {item₂ : List Char} (h : isItem item₂ = true) :
    tokenizeItems item₁ (',' :: ' ' :: item₂) = .ok (.two item₁ item₂) := by
  obtain ⟨hne, hall⟩ := isItem_iff.1 h
  have hskip : skipSpace (' ' :: item₂) = item₂ := by simpa [skipSpace, isSpaceChar] using skipSpace_item h []
  have hcomma : skipSpace (',' :: ' ' :: item₂) = ',' :: ' ' :: item₂ := rfl
  have htake : item₂.takeWhile isArgChar = item₂ := List.takeWhile_eq_self_iff.2 hall
  have hdrop : item₂.dropWhile isArgChar = [] := List.dropWhile_eq_nil_iff.2 hall
  simp only [tokenizeItems, hcomma, hskip, htake, hdrop, hne]
  rfl

/-- The argument after its separator: the first item is the row of *argchars*, the rest is for `tokenizeItems`. -/
theorem tokenizeArgument_item {item rest : List Char} (h : isItem item = true) (hrest : rest.takeWhile isArgChar = []) :
    tokenizeArgument (item ++ rest) = (tokenizeItems item rest).map some := by
  obtain ⟨hne, hall⟩ := isItem_iff.1 h
  simp only [tokenizeArgument, skipSpace_item h, atLineEnd_item h, takeWhile_append_stop hall hrest,
    dropWhile_append_stop hall hrest, hne, Bool.false_eq_true, if_false]
  cases tokenizeItems item rest <;> rfl

/-! ### The tokens of a line without a label (R223, R225) -/

/-- A line that begins with a mnemonic has no label, and what follows the mnemonic gives its argument. -/
theorem tokenize_mnemonic {name rest : List Char} (h : isMnemonic name = true) (hrest : rest.takeWhile isMnemonicChar = []) :
    tokenize (name ++ rest) =
      (tokenizeAfterMnemonic rest).map fun arg => { label := none, mnemonic := some name, argument := arg } := by
  have hitem : isItem name = true := isItem_of_isMnemonic h
  have hskip := skipSpace_item hitem rest
  have hsemi : ';' ∉ name := not_mem_of_isItem hitem (by decide)
  cases name with
  | nil => cases h
  | cons ch cs =>
    obtain ⟨hch, hcs⟩ := isMnemonic_cons.1 h
    have hdot : ch ≠ '.' := by
      rintro rfl
      exact absurd hch (by decide)
    have hne : ch ≠ ';' := fun e => hsemi (e ▸ List.mem_cons_self)
    rw [List.cons_append] at hskip ⊢
    simp only [tokenize, tokenizeRest, hskip, hdot, hne, hch, takeWhile_append_stop hcs hrest,
      dropWhile_append_stop hcs hrest, if_false, if_true]
    cases tokenizeAfterMnemonic rest <;> rfl

theorem tokenize_noArgument {name : List Char} (h : isMnemonic name = true) :
    tokenize name = .ok { label := none, mnemonic := some name, argument := none } := by
  have hline := tokenize_mnemonic (rest := []) h rfl
  rwa [List.append_nil] at hline

/-- A mnemonic, a space and an argument: `tokenizeItems` decides whether it has one item or two. -/
theorem tokenize_argument {name item rest : List Char} (h : isMnemonic name = true) (hitem : isItem item = true)
    (hrest : rest.takeWhile isArgChar = []) :
    tokenize (name ++ ' ' :: (item ++ rest)) =
      (tokenizeItems item rest).map fun arg => { label := none, mnemonic := some name, argument := some arg } := by
  have hafter : tokenizeAfterMnemonic (' ' :: (item ++ rest)) = (tokenizeItems item rest).map some :=
    tokenizeArgument_item hitem hrest
  rw [tokenize_mnemonic h rfl, hafter]
  cases tokenizeItems item rest <;> rfl

theorem tokenize_oneItem {name item : List Char} (h : isMnemonic name = true) (hitem : isItem item = true) :
    tokenize (name ++ ' ' :: item) = .ok { label := none, mnemonic := some name, argument := some (.one item) } := by
  simpa [tokenizeItems_one, Except.map] using tokenize_argument (rest := []) h hitem rfl

theorem tokenize_twoItems {name item₁ item₂ : List Char} (h : isMnemonic name = true) (h₁ : isItem item₁ = true)
    (h₂ : isItem item₂ = true) :
    tokenize (name ++ ' ' :: item₁ ++ ',' :: ' ' :: item₂)
      = .ok { label := none, mnemonic := some name, argument := some (.two item₁ item₂) } := by
  have hline := tokenize_argument (rest := ',' :: ' ' :: item₂) h h₁ rfl
  rw [tokenizeItems_two item₁ h₂] at hline
  simpa [Except.map] using hline

/-! ### The items a spelling writes (R263, R264) -/

theorem isArgChar_hexChar : ∀ n < 16, isArgChar (hexChar n) = true := by decide

theorem hexDigit_hexChar : ∀ n < 16, hexDigit (hexChar n) = some n := by decide

theorem isItem_regName : ∀ r : Reg, isItem (regName r) = true := by decide

@[simp] theorem parseRegister_regName : ∀ r : Reg, parseRegister (regName r) = some r := by decide

/-- The four digits of an operand field are below 16. -/
theorem hexDigits_lt (v : Half) :
    v.toNat / 4096 < 16 ∧ v.toNat / 256 % 16 < 16 ∧ v.toNat / 16 % 16 < 16 ∧ v.toNat % 16 < 16 := by
  have := v.isLt
  omega

theorem isItem_immText (v : Half) : isItem (immText v) = true := by
  obtain ⟨h₃, h₂, h₁, h₀⟩ := hexDigits_lt v
  simp [isItem, immText, isArgChar_hexChar, h₃, h₂, h₁, h₀]
  decide

theorem parseImmediate_immText (v : Half) : parseImmediate (immText v) = some v.toNat := by
  obtain ⟨h₃, h₂, h₁, h₀⟩ := hexDigits_lt v
  simp only [parseImmediate, immText, digitsValue, hexDigit_hexChar, h₃, h₂, h₁, h₀, if_true, reduceCtorEq, if_false]
  congr 1
  omega

@[simp] theorem parseValue_immText (labels : List (List Char × Nat)) (v : Half) :
    parseValue labels (immText v) = .ok v := by
  have hlabel : isLabelName (immText v) = false := rfl
  have hle : v.toNat ≤ 0xFFFF := Nat.le_of_lt_succ v.isLt
  simp [parseValue, hlabel, parseImmediate_immText, hle]

/-! ### The mnemonic table (R260) -/

theorem mem_of_lookupForm {name : List Char} {f : AsmForm} : ∀ {table : List (List Char × AsmForm)},
    lookupForm table name = some f → (name, f) ∈ table
  | (n, g) :: table, h => by
    by_cases hn : n = name
    · rw [lookupForm, if_pos hn] at h
      cases h
      cases hn
      exact List.mem_cons_self
    · rw [lookupForm, if_neg hn] at h
      exact List.mem_cons_of_mem _ (mem_of_lookupForm h)

theorem mem_of_acceptedForm {c : Config} {name : List Char} {f : AsmForm} (h : acceptedForm c name = some f) :
    (name, f) ∈ defaultMnemonics ++ extraMnemonics := by
  unfold acceptedForm at h
  split at h
  case h_1 g hg =>
    cases h
    exact List.mem_append_left _ (mem_of_lookupForm hg)
  case h_2 =>
    split at h
    · exact List.mem_append_right _ (mem_of_lookupForm h)
    · cases h

/-- Every name of the table is a mnemonic, and none is `org`. -/
theorem mnemonics_of_table : ∀ p ∈ defaultMnemonics ++ extraMnemonics, isMnemonic p.1 = true ∧ p.1 ≠ orgName := by
  decide

/-! ### One line of source (R221, R242, R245) -/

/-- A text without a newline is one line (R221). -/
theorem splitLines_oneLine : ∀ {text : List Char}, text ≠ [] → '\n' ∉ text → splitLines text = [text]
  | [ch], _, h => by
    have hch : ch ≠ '\n' := fun e => h (e ▸ List.mem_cons_self)
    simp [splitLines, hch]
  | ch :: ch' :: cs, _, h => by
    have hch : ch ≠ '\n' := fun e => h (e ▸ List.mem_cons_self)
    rw [splitLines, if_neg hch, splitLines_oneLine (List.cons_ne_nil ch' cs) fun hmem => h (List.mem_cons_of_mem _ hmem)]

section
variable {c : Config} {a : AsmState} {text name : List Char} {arg : Option Argument}

/-- In pass 1 an unlabelled line with a mnemonic other than `org` only advances the counter by 4 (R242). -/
theorem step_pass1_unlabelled (hp : a.phase = .pass1) (hl : a.lines[a.line - 1]? = some text)
    (htok : tokenize text = .ok { label := none, mnemonic := some name, argument := arg }) (horg : name ≠ orgName)
    (hlc : a.lc + 4 ≤ 2 ^ 32) : a.step c = { a with lc := a.lc + 4, line := a.line + 1 } := by
  have hcounter : pass1Counter c a.lc { label := none, mnemonic := some name, argument := arg } = .ok (a.lc + 4) := by
    simp only [pass1Counter, horg, false_and, if_false, if_neg (Nat.not_lt.2 hlc)]
  simp only [AsmState.step, hp, hl, AsmState.pass1Line, htok, AsmState.defineLabel, hcounter]

/-- In pass 2 a line of an accepted mnemonic whose argument fits emits its instruction (R245). -/
theorem step_pass2_emits {tok : Tokens} {f : AsmForm} {i : Instr} (hp : a.phase = .pass2)
    (hl : a.lines[a.line - 1]? = some text) (htok : tokenize text = .ok tok) (hname : tok.mnemonic = some name)
    (horg : name ≠ orgName) (hform : acceptedForm c name = some f) (hasm : assembleForm a.labels f tok.argument = .ok i) :
    a.step c = { a with out := a.out ++ encode c i, lc := a.lc + 4, line := a.line + 1 } := by
  simp only [AsmState.step, hp, hl, AsmState.pass2Line, htok, hname, horg, if_false, hform, hasm]

end

/-- The source is one line without a label, its mnemonic is accepted, and it assembles to `i` under any label table. -/
structure IsLineOf (c : Config) (text : List Char) (i : Instr) : Prop where
  oneLine : splitLines text = [text]
  tokens : ∃ name f arg, tokenize text = .ok { label := none, mnemonic := some name, argument := arg }
    ∧ acceptedForm c name = some f ∧ ∀ labels, assembleForm labels f arg = .ok i

/-- The four steps of the assembly of such a source: the line in pass 1, the end of pass 1, the line in pass 2, the end. -/
theorem IsLineOf.result {c : Config} {text : List Char} {i : Instr} (h : IsLineOf c text i) :
    (assemble c text).result = some (.image (encode c i)) := by
  obtain ⟨hline, name, f, arg, htok, hform, hasm⟩ := h
  obtain ⟨-, horg⟩ := mnemonics_of_table _ (mem_of_acceptedForm hform)
  have hpass1 : (AsmState.start text).step c = { AsmState.start text with lc := 4, line := 2 } :=
    step_pass1_unlabelled rfl (by rw [AsmState.start, hline]; rfl) htok horg (Nat.le_of_ble_eq_true rfl)
  have hend1 : AsmState.step c { AsmState.start text with lc := 4, line := 2 } = (AsmState.start text).beginPass2 := by
    simp only [AsmState.step, AsmState.start, hline]
    rfl
  have hpass2 : (AsmState.start text).beginPass2.step c
      = { (AsmState.start text).beginPass2 with out := encode c i, lc := 4, line := 2 } :=
    step_pass2_emits rfl (by rw [beginPass2_lines, AsmState.start, hline]; rfl) htok rfl horg hform (hasm [])
  have hend2 : AsmState.step c { (AsmState.start text).beginPass2 with out := encode c i, lc := 4, line := 2 }
      = { (AsmState.start text).beginPass2 with phase := .done, out := encode c i, lc := 4, line := 2 } := by
    simp only [AsmState.step, AsmState.beginPass2, AsmState.start, hline]
    rfl
  rw [assemble, hline]
  simp only [List.length_singleton, AsmState.steps, hpass1, hend1, hpass2, hend2]
  rfl

/-! ### The spelling of an instruction is a line of it (R93, R262) -/

section
variable {c : Config} {name : List Char}

theorem isLineOf_noArgument {i : Instr} (h : acceptedForm c name = some (.noArg i)) : IsLineOf c name i where
  oneLine := by
    obtain ⟨hname, -⟩ := mnemonics_of_table _ (mem_of_acceptedForm h)
    have hitem := isItem_of_isMnemonic hname
    exact splitLines_oneLine (isItem_iff.1 hitem).1 (not_mem_of_isItem hitem (by decide))
  tokens := by
    obtain ⟨hname, -⟩ := mnemonics_of_table _ (mem_of_acceptedForm h)
    exact ⟨name, _, _, tokenize_noArgument hname, h, fun _ => rfl⟩

theorem isLineOf_oneItem {f : AsmForm} {item : List Char} {i : Instr} (h : acceptedForm c name = some f)
    (hitem : isItem item = true) (hasm : ∀ labels, assembleForm labels f (some (.one item)) = .ok i) :
    IsLineOf c (name ++ ' ' :: item) i := by
  obtain ⟨hname, -⟩ := mnemonics_of_table _ (mem_of_acceptedForm h)
  have hnl : '\n' ∉ name ++ ' ' :: item := by
    simp [not_mem_of_isItem (ch := '\n') (isItem_of_isMnemonic hname) (by decide),
      not_mem_of_isItem (ch := '\n') hitem (by decide)]
  exact ⟨splitLines_oneLine (by simp) hnl, name, f, _, tokenize_oneItem hname hitem, h, hasm⟩

theorem isLineOf_twoItems {f : AsmForm} {item₁ item₂ : List Char} {i : Instr} (h : acceptedForm c name = some f)
    (h₁ : isItem item₁ = true) (h₂ : isItem item₂ = true)
    (hasm : ∀ labels, assembleForm labels f (some (.two item₁ item₂)) = .ok i) :
    IsLineOf c (name ++ ' ' :: item₁ ++ ',' :: ' ' :: item₂) i := by
  obtain ⟨hname, -⟩ := mnemonics_of_table _ (mem_of_acceptedForm h)
  have hnl : '\n' ∉ name ++ ' ' :: item₁ ++ ',' :: ' ' :: item₂ := by
    simp [not_mem_of_isItem (ch := '\n') (isItem_of_isMnemonic hname) (by decide),
      not_mem_of_isItem (ch := '\n') h₁ (by decide), not_mem_of_isItem (ch := '\n') h₂ (by decide)]
  exact ⟨splitLines_oneLine (by simp) hnl, name, f, _, tokenize_twoItems hname h₁ h₂, h, hasm⟩

/-- `name T`, for an instruction whose ignored "from" field is zero. -/
theorem isLineOf_spellOne {mk : Reg → Reg → Instr} {rT rF : Reg} (h : acceptedForm c name = some (.oneReg (mk · 0)))
    (hF : (rF == 0) = true) : IsLineOf c (spellOne name rT) (mk rT rF) := by
  obtain rfl : rF = 0 := eq_of_beq hF
  exact isLineOf_oneItem h (isItem_regName rT) fun _ => by simp [assembleForm]

theorem isLineOf_spellTwo {mk : Reg → Reg → Instr} (h : acceptedForm c name = some (.twoReg mk)) (rT rF : Reg) :
    IsLineOf c (spellTwo name rT rF) (mk rT rF) :=
  isLineOf_twoItems h (isItem_regName rT) (isItem_regName rF) fun _ => by simp [assembleForm]

/-- `name T, imm`, for an instruction whose ignored "from" field is zero. -/
theorem isLineOf_spellImm {mk : Reg → Reg → Half → Instr} {rT rF : Reg} {imm : Half}
    (h : acceptedForm c name = some (.regImm (mk · 0 ·))) (hF : (rF == 0) = true) :
    IsLineOf c (spellImm name rT imm) (mk rT rF imm) := by
  obtain rfl : rF = 0 := eq_of_beq hF
  exact isLineOf_twoItems h (isItem_regName rT) (isItem_immText imm) fun _ => by simp [assembleForm]

/-- `name` alone, for an N-form instruction whose three ignored fields are zero. -/
theorem isLineOf_name {mk : Half → Reg → Reg → Instr} {op16 : Half} {rT rF : Reg}
    (h : acceptedForm c name = some (.noArg (mk 0 0 0))) (hfields : (op16 == 0 && rT == 0 && rF == 0) = true) :
    IsLineOf c name (mk op16 rT rF) := by
  obtain ⟨rfl, rfl, rfl⟩ : op16 = 0 ∧ rT = 0 ∧ rF = 0 := by simpa [and_assoc] using hfields
  exact isLineOf_noArgument h

end

/-- With `ASM_FULL_SET` every canonical instruction's spelling is a line of it. -/
theorem isLineOf_spelling {i : Instr} (h : i.wellFormed = true) :
    IsLineOf { Config.system3201 with asmFullSet := true } (spelling i) i := by
  cases i with
  | and rT rF => exact isLineOf_spellTwo rfl rT rF
  | or rT rF => exact isLineOf_spellTwo rfl rT rF
  | not rT rF => exact isLineOf_spellOne rfl h
  | xor rT rF => exact isLineOf_spellTwo rfl rT rF
  | shl rT rF => exact isLineOf_spellOne rfl h
  | shr rT rF => exact isLineOf_spellOne rfl h
  | add rT rF => exact isLineOf_spellTwo rfl rT rF
  | sub rT rF => exact isLineOf_spellTwo rfl rT rF
  | mul rT rF => exact isLineOf_spellTwo rfl rT rF
  | div rT rF => exact isLineOf_spellTwo rfl rT rF
  | mod rT rF => exact isLineOf_spellTwo rfl rT rF
  | cmp rT rF => exact isLineOf_spellTwo rfl rT rF
  | ldr rT rF => exact isLineOf_spellTwo rfl rT rF
  | ldm rT rF => exact isLineOf_spellTwo rfl rT rF
  | ldb rT rF => exact isLineOf_spellTwo rfl rT rF
  | stm rT rF => exact isLineOf_spellTwo rfl rT rF
  | stb rT rF => exact isLineOf_spellTwo rfl rT rF
  | ldu rT rF imm => exact isLineOf_spellImm rfl h
  | ldl rT rF imm => exact isLineOf_spellImm rfl h
  | ori rT rF imm => exact isLineOf_spellImm rfl h
  | j rT rF => exact isLineOf_spellOne rfl h
  | jc rT rF => exact isLineOf_spellOne rfl h
  | jp rT rF => exact isLineOf_spellOne rfl h
  | jz rT rF => exact isLineOf_spellOne rfl h
  | js rT rF => exact isLineOf_spellOne rfl h
  | jnc rT rF => exact isLineOf_spellOne rfl h
  | jnp rT rF => exact isLineOf_spellOne rfl h
  | jnz rT rF => exact isLineOf_spellOne rfl h
  | jns rT rF => exact isLineOf_spellOne rfl h
  | nop op16 rT rF => exact isLineOf_name rfl h
  | call op16 rT rF => exact isLineOf_name rfl h
  | ret op16 rT rF => exact isLineOf_name rfl h
  | halt op16 rT rF => exact isLineOf_name rfl h

end Sys2Proof.Machine

namespace Sys2Proof.Proofs

open Sys2Proof.Machine

/-- Settles O57: the spelling is one line that assembles to the instruction, and its image is the engine's own encoding,
since `encode` does not read `ASM_FULL_SET`. -/
theorem assemblingASpellingGivesItsBytes : Obligations.AssemblingASpellingGivesItsBytes := by
  intro i hi
  have hdecode := decode_encode_append (c := Config.system3201) (by decide) i []
  rw [List.append_nil] at hdecode
  exact ⟨(isLineOf_spelling hi).result, hdecode⟩

end Sys2Proof.Proofs

namespace Sys2Proof.Machine

open Sys2Proof.Claims

/-! ### The flags of a result (R30) -/

theorem flagsOf_S_iff (c : Config) (r : Word) (carry : Bool) : (flagsOf c r carry).S = true ↔ 2 ^ 31 ≤ r.toNat := by
  have hS : (flagsOf c r carry).S = r.msb := (BitVec.msb_eq_getLsbD_last r).symm
  rw [hS, BitVec.msb_eq_decide, decide_eq_true_iff]

theorem flagsOf_Z_iff (c : Config) (r : Word) (carry : Bool) : (flagsOf c r carry).Z = true ↔ r.toNat = 0 := by
  rw [flagsOf, beq_iff_eq, BitVec.toNat_eq]
  rfl

theorem flagsOf_P_iff (c : Config) (r : Word) (carry : Bool) :
    (flagsOf c r carry).P = true ↔ EvenOnes c.parityWidth r.toNat := by
  rw [flagsOf, beq_iff_eq, popcount_eq, EvenOnes]

theorem flagsOf64_C_iff (c : Config) (r64 : Wide) : (flagsOf64 c r64).C = true ↔ 0xFFFFFFFF < r64.toNat :=
  decide_eq_true_iff

/-- `shr` runs its rule under every parameter record, and its carry is the bit shifted out (R115). -/
theorem shr_carry (c : Config) (rT rF : Reg) (s : State) :
    ∃ t, execUnder c (.shr rT rF) s = .next t ∧ (t.flags.C = true ↔ (s.reg rT).toNat % 2 = 1) := by
  refine ⟨_, rfl, ?_⟩
  change (s.reg rT).toNat.testBit 0 = true ↔ _
  rw [Nat.testBit_zero, decide_eq_true_iff]

/-! ### What a step returns (R33) -/

theorem signal_eq_halt_iff {s : State} : s.signal = .halt ↔ ∃ r, s.run = .halted r := by
  cases h : s.run <;> simp [State.signal, RunState.isHalted, h]

theorem signal_eq_goOn_iff {s : State} : s.signal = .goOn ↔ s.run = .running := by
  cases h : s.run <;> simp [State.signal, RunState.isHalted, h]

/-! ### What an instruction can do -/

/-- The effects an instruction can have: each leaves alone what it does not name. -/
inductive Effect (i : Instr) (s : State) : State → Prop
  /-- A logic or arithmetic result, with its flags (R30). -/
  | result (rT : Reg) (v : Word) (f : Flags) (hi : IsLogicOrArithmetic i) (hd : destination i = some rT) :
    Effect i s { s.setReg rT v with flags := f }
  /-- The flags alone, as `cmp` writes them (R136). -/
  | compare (f : Flags) (hi : IsLogicOrArithmetic i) : Effect i s { s with flags := f }
  /-- A register from memory, a register or an immediate (R151 to R153, R170 to R172). -/
  | register (rT : Reg) (v : Word) (hd : destination i = some rT) : Effect i s (s.setReg rT v)
  /-- A store inside memory (R154, R155). -/
  | store (rT rF : Reg) (n : Nat) (hi : storeTo i = some (rT, n)) (hb : (s.reg rT).toNat + n ≤ 0x100000) :
    Effect i s { s with mem := s.mem.writeLE (s.reg rT).toNat n (s.reg rF).toNat }
  /-- A jump, taken or not (R180). -/
  | jump (hi : i.opClass = .jump) : Effect i s (s.jumpIf (takenJump i s.flags) i.regFields.1)
  /-- A data access out of bounds (R52). -/
  | outOfBounds (r : HaltReason) (hr : badAccess i s = some r) : Effect i s (s.raise r)
  /-- The normal end (R201). -/
  | halt (hi : i.opClass = .halt) : Effect i s (s.raise .halt)
  /-- `nop`, and `call` and `ret` under this hardware's policy (R200, R202, R203). -/
  | nothing (hi : i.opClass = .nop ∨ i.opClass = .call ∨ i.opClass = .ret) : Effect i s s

theorem Effect.loadInto {i : Instr} {s : State} {rT rF : Reg} {n : Nat} (hd : destination i = some rT)
    (hr : 0x100000 < (s.reg rF).toNat + n → badAccess i s = some (.outOfBoundsAccess s.pc0 (s.reg rF) n .read)) :
    Effect i s (s.loadInto Config.system3201 rT rF n) := by
  obtain ⟨-, heq⟩ | ⟨hb, heq⟩ := loadInto_cases Config.system3201 s rT rF n
  · exact heq ▸ .register rT _ hd
  · exact heq ▸ .outOfBounds _ (hr hb)

theorem Effect.storeFrom {i : Instr} {s : State} {rT rF : Reg} {n : Nat} (hi : storeTo i = some (rT, n))
    (hr : 0x100000 < (s.reg rT).toNat + n → badAccess i s = some (.outOfBoundsAccess s.pc0 (s.reg rT) n .write)) :
    Effect i s (s.storeFrom Config.system3201 rT rF n) := by
  obtain ⟨hb, heq⟩ | ⟨hb, heq⟩ := storeFrom_cases Config.system3201 s rT rF n
  · exact heq ▸ .store rT rF n hi hb
  · exact heq ▸ .outOfBounds _ (hr hb)

/-- Every instruction completes with one of the effects. -/
theorem exec_effect (i : Instr) (s : State) : ∃ t, exec i s = .next t ∧ Effect i s t := by
  cases i with
  | and | or | not | xor | shl | shr => exact ⟨_, rfl, .result _ _ _ (.inl rfl) rfl⟩
  | add | sub | mul | div | mod => exact ⟨_, rfl, .result _ _ _ (.inr rfl) rfl⟩
  | cmp => exact ⟨_, rfl, .compare _ (.inr rfl)⟩
  | ldr | ldu | ldl | ori => exact ⟨_, rfl, .register _ _ rfl⟩
  | ldm | ldb => exact ⟨_, rfl, .loadInto rfl fun h => if_pos h⟩
  | stm | stb => exact ⟨_, rfl, .storeFrom rfl fun h => if_pos h⟩
  | j | jc | jp | jz | js | jnc | jnp | jnz | jns => exact ⟨_, rfl, .jump rfl⟩
  | nop => exact ⟨_, rfl, .nothing (.inl rfl)⟩
  | call => exact ⟨_, rfl, .nothing (.inr (.inl rfl))⟩
  | ret => exact ⟨_, rfl, .nothing (.inr (.inr rfl))⟩
  | halt => exact ⟨_, rfl, .halt rfl⟩

theorem effect_of_exec {i : Instr} {s t : State} (h : exec i s = .next t) : Effect i s t := by
  obtain ⟨u, hu, he⟩ := exec_effect i s
  obtain rfl : t = u := Host.Outcome.next.inj (h.symm.trans hu)
  exact he

/-! ### What the effects leave alone -/

section
variable {i : Instr} {s t : State}

/-- No register but the destination is written. -/
theorem Effect.reg_eq (h : Effect i s t) {r : Reg} (hr : destination i ≠ some r) : t.reg r = s.reg r := by
  cases h with
  | result rT v f _ hd => exact reg_setReg_other s v fun hrT => hr (hrT ▸ hd)
  | register rT v hd => exact reg_setReg_other s v fun hrT => hr (hrT ▸ hd)
  | jump => rw [jumpIf_eq]; rfl
  | compare | store | outOfBounds | halt | nothing => rfl

/-- Only a logic or arithmetic instruction writes the flags. -/
theorem Effect.flags_eq (h : Effect i s t) (hi : ¬ IsLogicOrArithmetic i) : t.flags = s.flags := by
  cases h with
  | result _ _ _ hla => exact absurd hla hi
  | compare _ hla => exact absurd hla hi
  | jump => rw [jumpIf_eq]
  | register | store | outOfBounds | halt | nothing => rfl

/-- No instruction but a jump writes pc. -/
theorem Effect.pc_eq (h : Effect i s t) (hi : i.opClass ≠ .jump) : t.pc = s.pc := by
  cases h with
  | jump hj => exact absurd hj hi
  | result | compare | register | store | outOfBounds | halt | nothing => rfl

end

/-! ### Jumps (R180 to R189) -/

theorem exec_jump {i : Instr} (hi : i.opClass = .jump) (s : State) :
    exec i s = .next (s.jumpIf (takenJump i s.flags) i.regFields.1) := by
  cases i with
  | j | jc | jp | jz | js | jnc | jnp | jnz | jns => rfl
  | _ => cases hi

theorem takenJump_of_not_jump {i : Instr} (hi : i.opClass ≠ .jump) (f : Flags) : takenJump i f = false := by
  cases i with
  | j | jc | jp | jz | js | jnc | jnp | jnz | jns => exact absurd rfl hi
  | _ => rfl

/-! ### Which instructions read the flags (R28, R29) -/

/-- A logic or arithmetic instruction reads no flag and keeps none of the old ones. -/
theorem exec_withFlags_of_isLogicOrArithmetic {i : Instr} (hi : IsLogicOrArithmetic i) (s : State) (f : Flags) :
    exec i { s with flags := f } = exec i s := by
  cases i with
  | and | or | not | xor | shl | shr | add | sub | mul | div | mod | cmp => rfl
  | _ => obtain hi | hi := hi <;> cases hi

theorem loadInto_withFlags (c : Config) (s : State) (f : Flags) (rT rF : Reg) (n : Nat) :
    State.loadInto c { s with flags := f } rT rF n = { s.loadInto c rT rF n with flags := f } := by
  simp only [State.loadInto, State.effectiveAddress, State.reg]
  cases memRead c s.mem s.x[rF].toNat n <;> rfl

theorem storeFrom_withFlags (c : Config) (s : State) (f : Flags) (rT rF : Reg) (n : Nat) :
    State.storeFrom c { s with flags := f } rT rF n = { s.storeFrom c rT rF n with flags := f } := by
  simp only [State.storeFrom, State.effectiveAddress, State.reg]
  cases memWrite c s.mem s.x[rT].toNat n s.x[rF].toNat <;> rfl

/-- Every other instruction does the same under other flags and keeps them, unless they decide a jump otherwise. -/
theorem exec_withFlags_of_not_isLogicOrArithmetic {i : Instr} {s t : State} {f : Flags} (hi : ¬ IsLogicOrArithmetic i)
    (hj : takenJump i f = takenJump i s.flags) (h : exec i s = .next t) :
    exec i { s with flags := f } = .next { t with flags := f } := by
  by_cases hjump : i.opClass = .jump
  · rw [exec_jump hjump] at h ⊢
    obtain rfl := Host.Outcome.next.inj h
    rw [hj, jumpIf_eq, jumpIf_eq]
    rfl
  cases i with
  | and | or | not | xor | shl | shr => exact absurd (.inl rfl) hi
  | add | sub | mul | div | mod | cmp => exact absurd (.inr rfl) hi
  | j | jc | jp | jz | js | jnc | jnp | jnz | jns => exact absurd rfl hjump
  | ldm | ldb =>
    obtain rfl := Host.Outcome.next.inj h
    exact congrArg Host.Outcome.next (loadInto_withFlags ..)
  | stm | stb =>
    obtain rfl := Host.Outcome.next.inj h
    exact congrArg Host.Outcome.next (storeFrom_withFlags ..)
  | ldr | ldu | ldl | ori | nop | call | ret | halt =>
    obtain rfl := Host.Outcome.next.inj h
    rfl

end Sys2Proof.Machine

namespace Sys2Proof.Proofs

open Sys2Proof.Machine

/-- Settles O8: the signal is read from the run state after the step. -/
theorem aHaltedStepChangesNothing : Obligations.AHaltedStepChangesNothing :=
  ⟨fun _ r hr => ⟨stepWith_halted hr, signal_eq_halt_iff.2 ⟨r, hr⟩⟩,
    fun _ _ _ _ => ⟨signal_eq_halt_iff, signal_eq_goOn_iff⟩⟩

/-- Settles O16: by the rule the jumps share, and by the effects of the other instructions. -/
theorem onlyTakenJumpsMovePc : Obligations.OnlyTakenJumpsMovePc := by
  intro i s t h
  by_cases hi : i.opClass = .jump
  · rw [exec_jump hi] at h
    obtain rfl := Host.Outcome.next.inj h
    rw [jumpIf_eq]
  · rw [takenJump_of_not_jump hi]
    exact (effect_of_exec h).pc_eq hi

/-- Settles O17: the first clause says that the new flags do not depend on the old ones. -/
theorem onlyLogicAndArithmeticWriteFlags : Obligations.OnlyLogicAndArithmeticWriteFlags := by
  intro i s t h
  refine ⟨fun hi f => ?_, (effect_of_exec h).flags_eq, fun hi hj f => ?_, fun rT rF f hi => ?_⟩
  · rw [exec_withFlags_of_isLogicOrArithmetic hi, h]
  · exact exec_withFlags_of_not_isLogicOrArithmetic hi
      ((takenJump_of_not_jump hj f).trans (takenJump_of_not_jump hj s.flags).symm) h
  · subst hi
    exact exec_withFlags_of_not_isLogicOrArithmetic (by rintro (h | h) <;> cases h) rfl h

/-- Settles O18: by the effects an instruction can have. -/
theorem onlyTheDestinationIsWritten : Obligations.OnlyTheDestinationIsWritten :=
  fun _ _ _ h _ hr => (effect_of_exec h).reg_eq hr

/-- Settles O23: the flags of a result, at the low 32 bits of the intermediate. -/
theorem setFlagsIsTheRuleOfTheSpec : Obligations.SetFlagsIsTheRuleOfTheSpec := by
  intro c s r64
  rw [← toNat_trunc32]
  exact ⟨rfl, flagsOf_S_iff c _ _, flagsOf_Z_iff c _ _, flagsOf_P_iff c _ _, flagsOf64_C_iff c r64,
    fun rT rF => shr_carry c rT rF s⟩

end Sys2Proof.Proofs

namespace Sys2Proof.Machine

open Sys2Proof.Claims

/-! ### What a step does to memory (R50, R52) -/

/-- An instruction leaves memory alone, or stores from the address in its register, inside memory. -/
theorem Effect.mem_cases {i : Instr} {s t : State} (h : Effect i s t) :
    t.mem = s.mem ∨ ∃ rT rF n, storeTo i = some (rT, n) ∧ (s.reg rT).toNat + n ≤ 0x100000
      ∧ t.mem = s.mem.writeLE (s.reg rT).toNat n (s.reg rF).toNat := by
  cases h with
  | store rT rF n hi hb => exact .inr ⟨rT, rF, n, hi, hb, rfl⟩
  | jump => rw [jumpIf_eq]; exact .inl rfl
  | result | compare | register | outOfBounds | halt | nothing => exact .inl rfl

theorem memoryOk_iff {s : State} : s.memoryOk = true ↔ s.mem.wf = true ∧ s.mem.below 0x100000 = true := by
  rw [State.memoryOk, Bool.and_eq_true]
  rfl

/-- The memory invariant reads nothing but memory. -/
theorem memoryOk_of_mem_eq {s t : State} (hmem : t.mem = s.mem) (hs : s.memoryOk = true) : t.memoryOk = true := by
  rwa [State.memoryOk, hmem]

theorem exec_keeps_memoryOk {i : Instr} {s t : State} (hs : s.memoryOk = true) (h : exec i s = .next t) :
    t.memoryOk = true := by
  obtain hmem | ⟨rT, rF, n, -, hb, hmem⟩ := (effect_of_exec h).mem_cases
  · exact memoryOk_of_mem_eq hmem hs
  · obtain ⟨hwf, hbelow⟩ := memoryOk_iff.1 hs
    rw [memoryOk_iff, hmem]
    exact ⟨Memory.wf_writeLE n _ _ _ hwf, Memory.below_writeLE n _ _ _ _ hbelow hb⟩

end Sys2Proof.Machine

namespace Sys2Proof.Proofs

open Sys2Proof.Machine

/-- Settles O13: only an executed instruction can write memory, and its store is canonical and inside memory. -/
theorem everyStepKeepsMemoryCanonical : Obligations.EveryStepKeepsMemoryCanonical := by
  intro s t hs h
  obtain ⟨_, _, rfl⟩ | ⟨_, _, rfl⟩ | ⟨_, _, _, rfl⟩ | ⟨_, _, _, i, hexec⟩ | ⟨_, _, _, _, _, _, _, _, rfl⟩ := step_cases h
  · exact hs -- Halted
  · exact memoryOk_of_mem_eq (raise_mem ..) hs -- pc out of bounds
  · exact memoryOk_of_mem_eq (raise_mem ..) hs -- pc misaligned
  · exact exec_keeps_memoryOk (memoryOk_of_mem_eq (setPc_mem ..) hs) hexec
  · exact memoryOk_of_mem_eq (raise_mem ..) hs -- unknown encoding

end Sys2Proof.Proofs

namespace Sys2Proof

/-! ### What a decoded instruction keeps of its word (R82, R88) -/

section
variable {c : Config} {opc : Byte} {op16 : Half} {sel : Byte} {rT rF : Reg} {k : OpClass} {i : Instr}

theorem fields_of_decodeSubop (h : decodeClass.decodeSubop c opc op16 rT rF k = .ok i) :
    i.opClass = k ∧ i.op16Field c = op16 ∧ i.regFields = (rT, rF) := by
  unfold decodeClass.decodeSubop at h
  cases ho : c.subopOf k op16 with
  | none => simp [ho] at h
  | some o =>
    obtain ⟨hclass, hsubop⟩ := subop_of_subopOf ho
    obtain rfl : o.instr rT rF = i := by simpa [ho] using h
    simp [hclass, hsubop]

theorem fields_of_decodeClass (h : decodeClass c opc op16 rT rF k = .ok i) :
    i.opClass = k ∧ i.op16Field c = op16 ∧ i.regFields = (rT, rF) := by
  cases k with
  | logic | arith | load | store | jump => exact fields_of_decodeSubop h
  | ldu | ldl | ori | nop | call | ret | halt =>
    cases h
    exact ⟨rfl, rfl, rfl⟩

theorem fields_of_decodeFields (h : decodeFields c opc op16 sel = .ok i) :
    c.opcode i.opClass = opc ∧ i.op16Field c = op16 ∧ i.regFields = (toField sel, fromField sel) := by
  unfold decodeFields at h
  cases hk : c.classOf opc with
  | none => simp [hk] at h
  | some k =>
    rw [hk] at h
    obtain ⟨rfl, hop16, hregs⟩ := fields_of_decodeClass h
    exact ⟨opcode_of_classOf hk, hop16, hregs⟩

theorem encode_of_decodeFields {b0 b1 b2 b3 : Byte} (h : decodeFields c b0 (halfOfBytes b1 b2) b3 = .ok i) :
    encode c i = [b0, b1, b2, b3] := by
  obtain ⟨hopc, hop16, hregs⟩ := fields_of_decodeFields h
  simp [encode, hopc, hop16, hregs]

end

/-- `decode` answers with an instruction only on four bytes or more, and leaves the bytes after them. -/
theorem decode_eq_ok_iff {c : Config} {bytes rest : List Byte} {i : Instr} :
    decode c bytes = .ok (i, rest) ↔
      ∃ b0 b1 b2 b3, bytes = b0 :: b1 :: b2 :: b3 :: rest ∧ decodeFields c b0 (halfOfBytes b1 b2) b3 = .ok i := by
  constructor
  · intro h
    match bytes with
    | [] | [_] | [_, _] | [_, _, _] => cases h
    | b0 :: b1 :: b2 :: b3 :: tail =>
      rw [decode_four] at h
      cases hd : decodeFields c b0 (halfOfBytes b1 b2) b3 with
      | error e => simp [hd, Except.map] at h
      | ok k =>
        obtain ⟨rfl, rfl⟩ : k = i ∧ tail = rest := by simpa [hd, Except.map] using h
        exact ⟨b0, b1, b2, b3, rfl, hd⟩
  · rintro ⟨b0, b1, b2, b3, rfl, hd⟩
    rw [decode_four, hd]
    rfl

/-! ### The words that no row of the tables takes (R84, R86, R89) -/

theorem classOf_eq_none_iff {c : Config} {opc : Byte} :
    c.classOf opc = none ↔ ∀ k ∈ OpClass.all, c.opcode k ≠ opc := by
  simp [Config.classOf]

theorem subopOf_eq_none_iff {c : Config} {k : OpClass} {op16 : Half} :
    c.subopOf k op16 = none ↔ ∀ o ∈ SubOp.all, o.opClass = k → c.subop o ≠ op16 := by
  simp [Config.subopOf]

theorem decodeSubop_error_iff {c : Config} {opc : Byte} {op16 : Half} {rT rF : Reg} {k : OpClass} :
    (∃ e, decodeClass.decodeSubop c opc op16 rT rF k = .error e) ↔ c.subopOf k op16 = none := by
  unfold decodeClass.decodeSubop
  cases c.subopOf k op16 <;> simp

open Sys2Proof.Claims

theorem classOf_eq_none_iff_unassigned {opc : Byte} :
    hw.classOf opc = none ↔ 0x0B ≤ opc.toNat ∧ opc.toNat ≤ 0xFE := by
  rw [classOf_eq_none_iff]
  simp [OpClass.all, Config.system3201, opcodeMap]
  bv_omega

/-- In each of the five classes that have sub-ops, the unlisted ones are those of `UnknownEncoding`. -/
theorem subopOf_eq_none_iff_unknownEncoding {k : OpClass} {op16 : Half}
    (hk : k ∈ [OpClass.logic, .arith, .load, .store, .jump]) :
    hw.subopOf k op16 = none ↔ UnknownEncoding (opcodeMap k).toNat op16.toNat := by
  rw [subopOf_eq_none_iff]
  fin_cases hk <;>
  · simp [SubOp.all, SubOp.opClass, Config.system3201, subopMap, opcodeMap, UnknownEncoding]
    bv_omega

theorem decodeFields_error_iff (opc : Byte) (op16 : Half) (sel : Byte) :
    (∃ e, decodeFields hw opc op16 sel = .error e) ↔ UnknownEncoding opc.toNat op16.toNat := by
  unfold decodeFields
  cases hk : hw.classOf opc with
  | none => exact iff_of_true ⟨_, rfl⟩ (.inl (classOf_eq_none_iff_unassigned.1 hk))
  | some k =>
    obtain rfl : opcodeMap k = opc := opcode_of_classOf hk
    cases k with
    | logic | arith | load | store | jump =>
      exact decodeSubop_error_iff.trans (subopOf_eq_none_iff_unknownEncoding (by decide))
    | ldu | ldl | ori | nop | call | ret | halt =>
      exact iff_of_false (by rintro ⟨e, h⟩; cases h) (by simp [UnknownEncoding, opcodeMap])

end Sys2Proof

namespace Sys2Proof.Machine

open Sys2Proof.Claims

/-! ### The step by its fetch (R80) -/

/-- A failed check of the fetch ends the step. -/
theorem stepWith_stopped {c : Config} {execute : Instr → State → Result} {s t : State} (hr : s.run = .running)
    (hf : fetch c s = .stopped t) : stepWith c execute s = .next t := by
  simp [stepWith, hr, hf]

theorem decodedAt_of_decode {c : Config} {s : State} {i : Instr} (h : decode c (bytesAtPc s) = .ok (i, [])) :
    decodedAt c s = .ok i := by
  obtain ⟨b0, b1, b2, b3, hbytes, hd⟩ := decode_eq_ok_iff.1 h
  cases hbytes
  exact hd

/-- A fetched unknown encoding takes the rule of R89, under either policy. -/
theorem stepWith_unknownEncoding (p : Policy) {execute : Instr → State → Result} {s : State} {opc lo hi sel : Byte}
    (hfetch : CanFetch s) (hbytes : bytesAtPc s = [opc, lo, hi, sel])
    (hu : UnknownEncoding opc.toNat (lo.toNat + 256 * hi.toNat)) :
    stepWith { hw with unknownOpPolicy := p } execute s
      = unknownEncoding { hw with unknownOpPolicy := p } opc (halfOfBytes lo hi) (s.setPc (s.pc + 4)) := by
  obtain ⟨hr, ha, hb⟩ := hfetch
  cases hbytes
  rw [← toNat_halfOfBytes] at hu
  obtain ⟨e, he⟩ := (decodeFields_error_iff _ _ _).2 hu
  exact stepWith_unknown hr ha hb he

/-! ### Taken jumps (R180) -/

theorem opClass_of_takenJump {i : Instr} {f : Flags} (h : takenJump i f = true) : i.opClass = .jump := by
  by_contra hi
  rw [takenJump_of_not_jump hi] at h
  cases h

theorem exec_takenJump {i : Instr} {s : State} (h : takenJump i s.flags = true) :
    exec i s = .next (s.setPc (s.reg i.regFields.1)) := by
  rw [exec_jump (opClass_of_takenJump h), h]
  rfl

end Sys2Proof.Machine

namespace Sys2Proof.Proofs

open Sys2Proof.Machine Sys2Proof.Claims

/-- Settles O3: what was decoded keeps the opcode byte, the operand field and both register fields. -/
theorem encodingADecodingGivesTheBytes : Obligations.EncodingADecodingGivesTheBytes := by
  intro c bytes i rest h
  obtain ⟨b0, b1, b2, b3, rfl, hd⟩ := decode_eq_ok_iff.1 h
  rw [encode_of_decodeFields hd]
  rfl

/-- Settles O5: an opcode byte of no class, or a class with sub-ops and an `op16` of none of them. -/
theorem unknownEncodingsAreExactlyThoseListed : Obligations.UnknownEncodingsAreExactlyThoseListed :=
  decodeFields_error_iff

/-- Settles O9: one clause for each outcome of the fetch. -/
theorem fetchChecksInOrder : Obligations.FetchChecksInOrder := by
  intro c s _ hr
  refine ⟨fun hb => ?opcode, fun hb ha => ?aligned, fun hb ha hb' => ?operand, fun ha hb => ?selector,
    fun ha hb i hd => ?decoded, fun hm ha hb => ?multiple⟩
  case opcode => exact stepWith_stopped hr (fetch_opcode_out_of_bounds hb)
  case aligned => exact stepWith_stopped hr (fetch_misaligned hb ha)
  case operand => exact stepWith_stopped hr (fetch_operand_out_of_bounds hb ha hb')
  case selector => exact stepWith_stopped hr (fetch_selector_out_of_bounds ha hb)
  case decoded => exact stepWith_decoded hr ha hb (decodedAt_of_decode hd)
  case multiple => omega

/-- Settles O10: the rule of R89 under either policy. -/
theorem unknownEncodingsRaiseUnimplementedOpcode : Obligations.UnknownEncodingsRaiseUnimplementedOpcode := by
  intro s opc lo hi sel hfetch hbytes hu
  have hfault := stepWith_unknownEncoding (execute := exec) .fault hfetch hbytes hu
  rw [unknownEncoding, pc0_setPc_add_four] at hfault
  exact ⟨hfault, stepWith_unknownEncoding .nop hfetch hbytes hu⟩

/-- Settles O38: the jump only writes pc, and the next fetch checks it. -/
theorem aBadJumpTargetFaultsAtTheNextFetch : Obligations.ABadJumpTargetFaultsAtTheNextFetch := by
  intro i s t hr htaken h
  obtain rfl : s.setPc (s.reg i.regFields.1) = t := Host.Outcome.next.inj ((exec_takenJump htaken).symm.trans h)
  exact ⟨hr, fun hb => stepWith_stopped hr (fetch_opcode_out_of_bounds (Nat.lt_succ_of_le hb)),
    fun hb ha => stepWith_stopped hr (fetch_misaligned hb ha)⟩

/-- Settles O1: by evaluating the decoder on each word. -/
theorem specWordsDecodeToTheirInstructions : Obligations.SpecWordsDecodeToTheirInstructions := by
  unfold Obligations.SpecWordsDecodeToTheirInstructions
  decide

/-- Settles O6: no arm of `exec` passes an ignored field on, but for the operand field of `call` and `ret`, which
`CALLRET_POLICY = Nop` does not read. -/
theorem ignoredFieldsHaveNoEffect : Obligations.IgnoredFieldsHaveNoEffect := by
  intro s rT a b c d imm u v
  exact ⟨rfl, rfl, rfl, rfl, rfl, rfl, rfl, rfl, rfl, rfl, rfl, rfl, rfl, rfl, rfl, rfl, rfl, rfl, rfl⟩

/-- Settles O7: the fetch reads the four bytes at pc, and they decode. -/
theorem stepRunsTheDecodedInstruction : Obligations.StepRunsTheDecodedInstruction := by
  intro s i ⟨hr, ha, hb⟩ hd
  exact stepWith_decoded hr ha hb (decodedAt_of_decode hd)

end Sys2Proof.Proofs

namespace Sys2Proof

open Sys2Proof.Claims

/-! ### The encodings of this hardware (R82, R84, R86) -/

/-- The opcode byte of its class and its `op16` are the first three bytes of a sub-operation's instruction. -/
theorem encodedAs_subop (o : SubOp) :
    EncodedAs (hw.opcode o.opClass) (loByte (hw.subop o)) (hiByte (hw.subop o)) o.instr := by
  intro rT rF rest
  have hdecode := decode_encode_append (c := hw) (by decide) (o.instr rT rF) rest
  rw [encode, SubOp.instr_opClass, SubOp.instr_op16Field, SubOp.instr_regFields] at hdecode
  exact hdecode

end Sys2Proof

namespace Sys2Proof.Machine

open Sys2Proof.Claims

/-! ### What a logic or arithmetic result does (R30, R110 to R115) -/

theorem flagsOfResult_flagsOf (r : Word) {b : Bool} {carry : Prop} (h : b = true ↔ carry) :
    FlagsOfResult (flagsOf hw r b) r.toNat carry :=
  ⟨flagsOf_S_iff hw r b, flagsOf_Z_iff hw r b, flagsOf_P_iff hw r b, h⟩

theorem flagsOfResult_aluResult (s : State) (rT : Reg) {r64 : Wide} {carry : Prop} (h : 0xFFFFFFFF < r64.toNat ↔ carry) :
    FlagsOfResult (s.aluResult hw rT r64).flags ((s.aluResult hw rT r64).reg rT).toNat carry := by
  rw [aluResult_flags, aluResult_reg_same]
  exact flagsOfResult_flagsOf _ ((flagsOf64_C_iff hw r64).trans h)

/-- A result that fits a register has no carry. -/
theorem flagsOfResult_aluResult_u64 (s : State) (rT : Reg) (v : Word) :
    FlagsOfResult (s.aluResult hw rT (u64 v)).flags ((s.aluResult hw rT (u64 v)).reg rT).toNat False := by
  refine flagsOfResult_aluResult s rT ?_
  rw [toNat_u64, iff_false, Nat.not_lt]
  exact Nat.le_of_lt_succ v.isLt

theorem onlyRegisterAndFlags_setReg (s : State) (rT : Reg) (v : Word) (f : Flags) :
    OnlyRegisterAndFlags rT s { s.setReg rT v with flags := f } :=
  ⟨fun _ hr => reg_setReg_other s v hr, fun _ => rfl, rfl, rfl, rfl⟩

theorem onlyRegisterAndFlags_aluResult (s : State) (rT : Reg) (r64 : Wide) :
    OnlyRegisterAndFlags rT s (s.aluResult hw rT r64) :=
  onlyRegisterAndFlags_setReg s rT _ _

/-- A bitwise instruction whose result has the bits `bit` (R110, R111, R113). -/
theorem bitwise_completes {i : Instr} {s : State} {rT : Reg} {v : Word} {bit : Nat → Bool}
    (h : exec i s = .next (s.aluResult hw rT (u64 v))) (hv : ∀ k, v.getLsbD k = bit k) :
    ∃ t, exec i s = .next t ∧ (∀ k, k < 32 → (t.reg rT).getLsbD k = bit k)
      ∧ FlagsOfResult t.flags (t.reg rT).toNat False ∧ OnlyRegisterAndFlags rT s t := by
  refine ⟨_, h, fun k _ => ?_, flagsOfResult_aluResult_u64 s rT v, onlyRegisterAndFlags_aluResult s rT _⟩
  rw [aluResult_reg_same, trunc32_u64, hv]

/-- One place to the left in 64 bits loses no bit of a register (R114). -/
theorem toNat_operand_shiftLeft_one (s : State) (i : Reg) : (s.operand i <<< 1).toNat = 2 * (s.reg i).toNat := by
  have := (s.reg i).isLt
  rw [State.operand, BitVec.toNat_shiftLeft, toNat_u64, Nat.shiftLeft_eq]
  omega

theorem shl_completes (rT rF : Reg) (s : State) :
    ∃ t, exec (.shl rT rF) s = .next t ∧ (t.reg rT).toNat = 2 * (s.reg rT).toNat % 2 ^ 32
      ∧ FlagsOfResult t.flags (t.reg rT).toNat (2 ^ 31 ≤ (s.reg rT).toNat) ∧ OnlyRegisterAndFlags rT s t := by
  have hshift := toNat_operand_shiftLeft_one s rT
  refine ⟨s.aluResult hw rT (s.operand rT <<< 1), rfl, ?result, flagsOfResult_aluResult s rT ?carry,
    onlyRegisterAndFlags_aluResult s rT _⟩
  case result => rw [aluResult_reg_same, toNat_trunc32, hshift]
  case carry =>
    rw [hshift]
    omega

theorem shr_completes (rT rF : Reg) (s : State) :
    ∃ t, exec (.shr rT rF) s = .next t ∧ (t.reg rT).toNat = (s.reg rT).toNat / 2
      ∧ FlagsOfResult t.flags (t.reg rT).toNat ((s.reg rT).toNat % 2 = 1) ∧ OnlyRegisterAndFlags rT s t := by
  obtain ⟨t, ht, hcarry⟩ := shr_carry hw rT rF s
  obtain rfl := Host.Outcome.next.inj ht
  have hreg := reg_setReg_same s rT (s.reg rT >>> 1)
  refine ⟨_, rfl, ?result, ?flags, onlyRegisterAndFlags_setReg s rT _ _⟩
  case result => exact (congrArg BitVec.toNat hreg).trans (BitVec.toNat_ushiftRight ..)
  case flags => exact hreg.symm ▸ flagsOfResult_flagsOf (s.reg rT >>> 1) hcarry

end Sys2Proof.Machine

namespace Sys2Proof.Proofs

open Sys2Proof.Machine Sys2Proof.Claims

/-- Settles O24: the operations of `BitVec` act bit by bit, and their result fits a register. -/
theorem bitwiseInstructionsComplete : Obligations.BitwiseInstructionsComplete := by
  refine ⟨encodedAs_subop .and, encodedAs_subop .or, encodedAs_subop .xor, rfl, fun rT rF s => ⟨?and, ?or, ?xor⟩⟩
  case and => exact bitwise_completes rfl fun _ => BitVec.getLsbD_and
  case or => exact bitwise_completes rfl fun _ => BitVec.getLsbD_or
  case xor => exact bitwise_completes rfl fun _ => BitVec.getLsbD_xor

/-- Settles O25: the complement is taken over 32 bits, so it fits a register. -/
theorem notCompletes : Obligations.NotCompletes := by
  refine ⟨encodedAs_subop .not, fun rT _ s => ⟨s.aluResult hw rT (u64 (~~~ s.reg rT)), rfl, ?_,
    flagsOfResult_aluResult_u64 s rT _, onlyRegisterAndFlags_aluResult s rT _⟩⟩
  rw [aluResult_reg_same, trunc32_u64, BitVec.toNat_not]

/-- Settles O26: the carry of `shl` is bit 32 of the intermediate, that of `shr` the old bit 0. -/
theorem shiftsComplete : Obligations.ShiftsComplete :=
  ⟨encodedAs_subop .shl, encodedAs_subop .shr, fun rT rF s => ⟨shl_completes rT rF s, shr_completes rT rF s⟩⟩

end Sys2Proof.Proofs

namespace Sys2Proof.Machine

open Sys2Proof.Claims

/-! ### What an arithmetic intermediate is as a number (R130 to R133) -/

@[simp] theorem toNat_operand (s : State) (i : Reg) : (s.operand i).toNat = (s.reg i).toNat := toNat_u64 _

/-- The sum of two registers fits 64 bits (R131). -/
theorem toNat_operand_add (s : State) (i j : Reg) :
    (s.operand i + s.operand j).toNat = (s.reg i).toNat + (s.reg j).toNat := by
  have hi := (s.reg i).isLt
  have hj := (s.reg j).isLt
  rw [BitVec.toNat_add, toNat_operand, toNat_operand]
  omega

/-- The difference wraps at 64 bits, not at 32 (R132). -/
theorem toNat_operand_sub (s : State) (i j : Reg) :
    (s.operand i - s.operand j).toNat = (2 ^ 64 - (s.reg j).toNat + (s.reg i).toNat) % 2 ^ 64 := by
  rw [BitVec.toNat_sub, toNat_operand, toNat_operand]

/-- The full product of two registers fits 64 bits (R133). -/
theorem toNat_operand_mul (s : State) (i j : Reg) :
    (s.operand i * s.operand j).toNat = (s.reg i).toNat * (s.reg j).toNat := by
  have hlt : (s.reg i).toNat * (s.reg j).toNat < 2 ^ 32 * 2 ^ 32 := Nat.mul_lt_mul'' (s.reg i).isLt (s.reg j).isLt
  rw [BitVec.toNat_mul, toNat_operand, toNat_operand]
  exact Nat.mod_eq_of_lt hlt

/-! ### What an arithmetic instruction does (R131 to R136) -/

/-- An instruction whose 64-bit intermediate is the number `n`: the register gets `n` modulo 2^32, and the carry is set when
`n` does not fit it (R30). -/
theorem arith_completes {i : Instr} {s : State} {rT : Reg} {r64 : Wide} {n : Nat}
    (h : exec i s = .next (s.aluResult hw rT r64)) (hn : r64.toNat = n) :
    ∃ t, exec i s = .next t ∧ (t.reg rT).toNat = n % 2 ^ 32
      ∧ FlagsOfResult t.flags (t.reg rT).toNat (2 ^ 32 ≤ n) ∧ OnlyRegisterAndFlags rT s t := by
  refine ⟨_, h, ?result, flagsOfResult_aluResult s rT ?carry, onlyRegisterAndFlags_aluResult s rT _⟩
  case result => rw [aluResult_reg_same, toNat_trunc32, hn]
  case carry => exact hn ▸ Nat.lt_iff_add_one_le

/-- The 64-bit difference leaves the 32-bit one in the register, and is above 32 bits exactly on a borrow (R132). -/
theorem sub_completes (rT rF : Reg) (s : State) :
    ∃ t, exec (.sub rT rF) s = .next t
      ∧ (t.reg rT).toNat = (2 ^ 32 + (s.reg rT).toNat - (s.reg rF).toNat) % 2 ^ 32
      ∧ FlagsOfResult t.flags (t.reg rT).toNat ((s.reg rT).toNat < (s.reg rF).toNat)
      ∧ OnlyRegisterAndFlags rT s t := by
  have hT := (s.reg rT).isLt
  have hF := (s.reg rF).isLt
  obtain ⟨t, ht, hresult, hflags, hframe⟩ :=
    arith_completes (i := .sub rT rF) (s := s) rfl (toNat_operand_sub s rT rF)
  have hborrow : 2 ^ 32 ≤ (2 ^ 64 - (s.reg rF).toNat + (s.reg rT).toNat) % 2 ^ 64
      ↔ (s.reg rT).toNat < (s.reg rF).toNat := by omega
  exact ⟨t, ht, by omega, propext hborrow ▸ hflags, hframe⟩

/-- An intermediate that fits the register is the result, and there is no carry. -/
theorem arith_completes_of_lt {i : Instr} {s : State} {rT : Reg} {r64 : Wide} {n : Nat}
    (h : exec i s = .next (s.aluResult hw rT r64)) (hn : r64.toNat = n) (hlt : n < 2 ^ 32) :
    ∃ t, exec i s = .next t ∧ (t.reg rT).toNat = n
      ∧ FlagsOfResult t.flags (t.reg rT).toNat False ∧ OnlyRegisterAndFlags rT s t := by
  obtain ⟨t, ht, hresult, hflags, hframe⟩ := arith_completes h hn
  rw [Nat.mod_eq_of_lt hlt] at hresult
  exact ⟨t, ht, hresult, eq_false (Nat.not_le.2 hlt) ▸ hflags, hframe⟩

/-- A division whose result `n` is at most its dividend has no carry; a zero divisor gives 0 (R134, R135). -/
theorem division_completes {i : Instr} {s : State} {rT rF : Reg} {r64 : Wide} {n : Nat}
    (h : exec i s = .next (s.aluResult hw rT (if s.reg rF = 0 then 0 else r64))) (hn : r64.toNat = n)
    (hle : n ≤ (s.reg rT).toNat) :
    ∃ t, exec i s = .next t ∧ (t.reg rT).toNat = (if (s.reg rF).toNat = 0 then 0 else n)
      ∧ FlagsOfResult t.flags (t.reg rT).toNat False ∧ OnlyRegisterAndFlags rT s t := by
  have hlt : n < 2 ^ 32 := Nat.lt_of_le_of_lt hle (s.reg rT).isLt
  have hzero : (s.reg rF).toNat = 0 ↔ s.reg rF = 0 := BitVec.toNat_inj (y := 0)
  rw [if_congr hzero rfl rfl]
  by_cases hz : s.reg rF = 0
  · rw [if_pos hz] at h ⊢
    exact arith_completes_of_lt h rfl (by decide)
  · rw [if_neg hz] at h ⊢
    exact arith_completes_of_lt h hn hlt

/-- `cmp` sets the flags that `sub` sets (R136). -/
theorem exec_cmp_of_exec_sub {rT rF : Reg} {s t : State} (h : exec (.sub rT rF) s = .next t) :
    exec (.cmp rT rF) s = .next { s with flags := t.flags } := by
  cases h
  rfl

end Sys2Proof.Machine

namespace Sys2Proof.Proofs

open Sys2Proof.Machine Sys2Proof.Claims

/-- Settles O27: the 64-bit intermediate is the mathematical result, but for a `sub` that borrows. -/
theorem addSubMulComplete : Obligations.AddSubMulComplete := by
  refine ⟨encodedAs_subop .add, encodedAs_subop .sub, encodedAs_subop .mul, rfl, rfl, fun rT rF s => ⟨?add, ?sub, ?mul⟩⟩
  case add => exact arith_completes rfl (toNat_operand_add s rT rF)
  case mul => exact arith_completes rfl (toNat_operand_mul s rT rF)
  case sub =>
    have hT := (s.reg rT).isLt
    have hF := (s.reg rF).isLt
    obtain ⟨t, ht, hresult, hflags, hframe⟩ := sub_completes rT rF s
    exact ⟨t, ht, by omega, hflags, hframe⟩

/-- Settles O28: neither the quotient nor the remainder exceeds the dividend. -/
theorem divModComplete : Obligations.DivModComplete := by
  refine ⟨encodedAs_subop .div, encodedAs_subop .mod, fun rT rF s => ⟨?div, ?mod⟩⟩
  case div =>
    refine division_completes rfl ?_ (Nat.div_le_self ..)
    rw [BitVec.toNat_udiv, toNat_operand, toNat_operand]
  case mod =>
    refine division_completes rfl ?_ (Nat.mod_le ..)
    rw [BitVec.toNat_umod, toNat_operand, toNat_operand]

/-- Settles O29: from what `sub` does in the same state. -/
theorem cmpCompletes : Obligations.CmpCompletes := by
  refine ⟨encodedAs_subop .cmp, fun rT rF s => ?_⟩
  obtain ⟨t, ht, hresult, hflags, -⟩ := sub_completes rT rF s
  refine ⟨_, exec_cmp_of_exec_sub ht, ⟨fun _ => rfl, fun _ => rfl, rfl, rfl, rfl⟩, hresult ▸ hflags, fun u hu => ?_⟩
  obtain rfl : t = u := Host.Outcome.next.inj (ht.symm.trans hu)
  rfl

end Sys2Proof.Proofs

namespace Sys2Proof.Machine

open Sys2Proof.Claims

/-! ### What a load, a store and a copy do (R151 to R155) -/

theorem onlyRegister_setReg (s : State) (rT : Reg) (v : Word) : OnlyRegister rT s (s.setReg rT v) :=
  ⟨fun _ hr => reg_setReg_other s v hr, rfl, fun _ => rfl, rfl, rfl, rfl⟩

theorem onlyHalts_raise (s : State) (r : HaltReason) : OnlyHalts r s (s.raise r) :=
  ⟨fun _ => rfl, rfl, fun _ => rfl, rfl, rfl, rfl⟩

/-- The one addressing mode: no offset, no scaling (R150). -/
@[simp] theorem effectiveAddress_eq_reg (s : State) (r : Reg) : s.effectiveAddress r = s.reg r := rfl

/-- The word at `a`, its bytes little-endian (R53). -/
theorem readLE_four (m : Memory) (a : Nat) :
    m.readLE a 4 = (m.read a).toNat + 2 ^ 8 * (m.read (a + 1)).toNat + 2 ^ 16 * (m.read (a + 2)).toNat
      + 2 ^ 24 * (m.read (a + 3)).toNat := by
  simp only [Memory.readLE, Nat.add_assoc a, Nat.reduceAdd]
  omega

/-- What is read of at most 4 bytes fits a register, without a sign (R152, R153). -/
theorem toNat_ofNat_readLE (m : Memory) (a : Nat) {n : Nat} (hn : n ≤ 4) :
    (BitVec.ofNat 32 (m.readLE a n)).toNat = m.readLE a n := by
  have hlt : m.readLE a n < 256 ^ 4 := (Memory.readLE_lt m n a).trans_le (Nat.pow_le_pow_right (by decide) hn)
  rw [BitVec.toNat_ofNat]
  exact Nat.mod_eq_of_lt hlt

/-- An instruction that loads `n` bytes writes them to its register, or halts where they are out of bounds. -/
theorem load_completes {i : Instr} {s : State} {rT rF : Reg} {n : Nat} (h : exec i s = .next (s.loadInto hw rT rF n))
    (hn : n ≤ 4) :
    ∃ t, exec i s = .next t
      ∧ if (s.reg rF).toNat + n ≤ 0x100000 then
          (t.reg rT).toNat = s.mem.readLE (s.reg rF).toNat n ∧ OnlyRegister rT s t
        else OnlyHalts (.outOfBoundsAccess (s.pc - 4) (s.reg rF) n .read) s t := by
  refine ⟨_, h, ?_⟩
  obtain ⟨hb, hload⟩ | ⟨hb, hload⟩ := loadInto_cases hw s rT rF n
  · rw [hload, reg_setReg_same, toNat_ofNat_readLE _ _ hn]
    exact (if_pos hb).mpr ⟨rfl, onlyRegister_setReg s rT _⟩
  · rw [hload]
    exact (if_neg (Nat.not_le.2 hb)).mpr (onlyHalts_raise s _)

/-- An instruction that stores `n` bytes writes them at its address, or halts where they are out of bounds. -/
theorem store_completes {i : Instr} {s : State} {rT rF : Reg} {n : Nat} (hm : s.mem.wf = true)
    (h : exec i s = .next (s.storeFrom hw rT rF n)) :
    ∃ t, exec i s = .next t
      ∧ if (s.reg rT).toNat + n ≤ 0x100000 then
          (∀ k, k < n → (t.mem.read ((s.reg rT).toNat + k)).toNat = (s.reg rF).toNat / 256 ^ k % 256)
          ∧ SameMemoryOutside (s.reg rT).toNat n s t
          ∧ SameRegisters s t ∧ t.flags = s.flags ∧ SameControl s t
        else OnlyHalts (.outOfBoundsAccess (s.pc - 4) (s.reg rT) n .write) s t := by
  refine ⟨_, h, ?_⟩
  obtain ⟨hb, hstore⟩ | ⟨hb, hstore⟩ := storeFrom_cases hw s rT rF n
  · rw [hstore]
    refine (if_pos hb).mpr ⟨fun k hk => ?_, fun b hout => Memory.read_writeLE_outside n _ _ _ b hm hout,
      fun _ => rfl, rfl, rfl, rfl, rfl⟩
    rw [Memory.read_writeLE_inside n _ _ _ k hm hk, BitVec.toNat_ofNat]
    exact Nat.mod_mod _ _
  · rw [hstore]
    exact (if_neg (Nat.not_le.2 hb)).mpr (onlyHalts_raise s _)

end Sys2Proof.Machine

namespace Sys2Proof.Proofs

open Sys2Proof.Machine Sys2Proof.Claims

/-- Settles O19: an instruction that changes memory is a store, at its address and of its size. -/
theorem onlyStoredBytesChange : Obligations.OnlyStoredBytesChange := by
  intro i s t hm h
  obtain hmem | ⟨rT, rF, n, hi, -, hmem⟩ := (effect_of_exec h).mem_cases
  · have hsame : SameMemory s t := fun a => by rw [hmem]
    exact ⟨fun _ => hsame, fun _ _ _ b _ => hsame b⟩
  · refine ⟨fun hnone => absurd (hi.symm.trans hnone) (Option.some_ne_none _), fun rT' n' hi' b hb => ?_⟩
    obtain ⟨rfl, rfl⟩ : rT = rT' ∧ n = n' := by simpa [hi] using hi'
    rw [hmem]
    exact Memory.read_writeLE_outside n _ _ _ b hm hb

/-- Settles O31: both loads read `n` bytes, `ldm` four and `ldb` one. -/
theorem loadsComplete : Obligations.LoadsComplete := by
  refine ⟨encodedAs_subop .ldm, encodedAs_subop .ldb, rfl, ⟨rfl, rfl⟩, fun rT rF s => ⟨?ldm, ?ldb⟩⟩
  case ldm =>
    rw [← readLE_four]
    exact load_completes rfl (Nat.le_refl 4)
  case ldb => exact load_completes (n := 1) rfl (by decide)

/-- Settles O32: both stores write `n` bytes, `stm` four and `stb` one, which is byte 0. -/
theorem storesComplete : Obligations.StoresComplete := by
  refine ⟨encodedAs_subop .stm, encodedAs_subop .stb, rfl, rfl, fun rT rF s hm => ⟨effectiveAddress_eq_reg s rT, ?stm, ?stb⟩⟩
  case stm => exact store_completes hm rfl
  case stb =>
    have hstb := store_completes (i := .stb rT rF) (n := 1) hm rfl
    simp only [Nat.lt_one_iff, forall_eq, Nat.add_zero, pow_zero, Nat.div_one] at hstb
    exact hstb

/-- Settles O30: by the register file's read after write. -/
theorem ldrCompletes : Obligations.LdrCompletes :=
  ⟨encodedAs_subop .ldr, rfl, fun rT _ s => ⟨_, rfl, reg_setReg_same s rT _, onlyRegister_setReg s rT _⟩⟩

end Sys2Proof.Proofs

namespace Sys2Proof

open Sys2Proof.Claims

/-! ### The encodings that carry an immediate (R83, R87) -/

/-- Instructions whose `op16` is their immediate decode from every immediate, because the decoder undoes the encoder. -/
theorem encodedWithImmediate_of_encode {b0 : Byte} {mk : Reg → Reg → Half → Instr}
    (h : ∀ rT rF imm, encode hw (mk rT rF imm) = [b0, loByte imm, hiByte imm, selByte rT rF]) :
    EncodedWithImmediate b0 mk := by
  intro rT rF lo hi rest
  have hdecode := decode_encode_append (c := hw) (by decide) (mk rT rF (halfOfBytes lo hi)) rest
  rw [h, loByte_halfOfBytes, hiByte_halfOfBytes] at hdecode
  exact hdecode

end Sys2Proof

namespace Sys2Proof.Machine

open Sys2Proof.Claims

/-! ### What an immediate instruction does (R170 to R172) -/

/-- Sixteen places to the left lose no bit of an immediate (R170). -/
theorem toNat_zeroExtend_immediate_shiftLeft (imm : Half) : (imm.zeroExtend 32 <<< 16).toNat = 2 ^ 16 * imm.toNat := by
  have := imm.isLt
  rw [BitVec.toNat_shiftLeft, BitVec.toNat_setWidth_of_le (by decide), Nat.shiftLeft_eq]
  omega

theorem ldu_completes (rT rF : Reg) (imm : Half) (s : State) :
    ∃ t, exec (.ldu rT rF imm) s = .next t ∧ (t.reg rT).toNat = 2 ^ 16 * imm.toNat ∧ OnlyRegister rT s t := by
  refine ⟨_, rfl, ?_, onlyRegister_setReg s rT _⟩
  rw [reg_setReg_same, toNat_zeroExtend_immediate_shiftLeft]

/-- The immediate is zero-extended: it has no sign (R171). -/
theorem ldl_completes (rT rF : Reg) (imm : Half) (s : State) :
    ∃ t, exec (.ldl rT rF imm) s = .next t ∧ (t.reg rT).toNat = imm.toNat ∧ OnlyRegister rT s t := by
  refine ⟨_, rfl, ?_, onlyRegister_setReg s rT _⟩
  rw [reg_setReg_same, BitVec.toNat_setWidth_of_le (by decide)]

theorem ori_completes (rT rF : Reg) (imm : Half) (s : State) :
    ∃ t, exec (.ori rT rF imm) s = .next t
      ∧ (∀ k, k < 32 → (t.reg rT).getLsbD k = ((s.reg rT).getLsbD k || imm.getLsbD k)) ∧ OnlyRegister rT s t := by
  refine ⟨_, rfl, fun k hk => ?_, onlyRegister_setReg s rT _⟩
  have hbit : (imm.zeroExtend 32).getLsbD k = imm.getLsbD k := by
    rw [BitVec.getLsbD_setWidth, decide_eq_true hk, Bool.true_and]
  rw [reg_setReg_same, BitVec.getLsbD_or, hbit]

end Sys2Proof.Machine

namespace Sys2Proof.Proofs

open Sys2Proof.Machine Sys2Proof.Claims

/-- Settles O35: the encodings by the decoder's round trip, the results by how the zero-extended immediate enters the
register. -/
theorem immediatesComplete : Obligations.ImmediatesComplete := by
  refine ⟨?ldu, ?ldl, ?ori, rfl, rfl, ⟨rfl, rfl⟩, fun rT rF imm s =>
    ⟨ldu_completes rT rF imm s, ldl_completes rT rF imm s, ori_completes rT rF imm s⟩⟩
  case ldu => exact encodedWithImmediate_of_encode fun _ _ _ => rfl
  case ldl => exact encodedWithImmediate_of_encode fun _ _ _ => rfl
  case ori => exact encodedWithImmediate_of_encode fun _ _ _ => rfl

end Sys2Proof.Proofs

namespace Sys2Proof.Machine

open Sys2Proof.Claims

/-! ### What a jump does to the state (R180 to R189) -/

/-- A jump taken exactly under `cond` writes pc alone, with the whole of its `to` register where `cond` holds. -/
theorem exec_jump_of_takenJump_iff {i : Instr} {s : State} {cond : Prop} [Decidable cond] (hi : i.opClass = .jump)
    (hcond : takenJump i s.flags = true ↔ cond) :
    exec i s = .next { s with pc := if cond then s.reg i.regFields.1 else s.pc } := by
  rw [exec_jump hi, jumpIf_eq]
  simp only [hcond]

/-- A jump on a clear flag `b` (R186 to R189). -/
theorem exec_jump_of_takenJump_eq_not {i : Instr} {s : State} {b : Bool} (hi : i.opClass = .jump)
    (hb : takenJump i s.flags = !b) :
    exec i s = .next { s with pc := if b = false then s.reg i.regFields.1 else s.pc } :=
  exec_jump_of_takenJump_iff hi (by rw [hb, Bool.not_eq_true'])

end Sys2Proof.Machine

namespace Sys2Proof.Proofs

open Sys2Proof.Machine Sys2Proof.Claims

/-- Settles O37: the encodings by the decoder's round trip, each jump's effect by the flag that decides it. -/
theorem jumpsComplete : Obligations.JumpsComplete := by
  refine ⟨encodedAs_subop .j, encodedAs_subop .jc, encodedAs_subop .jp, encodedAs_subop .jz, encodedAs_subop .js,
    encodedAs_subop .jnc, encodedAs_subop .jnp, encodedAs_subop .jnz, encodedAs_subop .jns, rfl, rfl, fun rT rF s =>
    ⟨?always, ?carrySet, ?paritySet, ?zeroSet, ?signSet, ?carryClear, ?parityClear, ?zeroClear, ?signClear⟩⟩
  case always => exact exec_takenJump rfl
  case carrySet => exact exec_jump_of_takenJump_iff rfl .rfl
  case paritySet => exact exec_jump_of_takenJump_iff rfl .rfl
  case zeroSet => exact exec_jump_of_takenJump_iff rfl .rfl
  case signSet => exact exec_jump_of_takenJump_iff rfl .rfl
  case carryClear => exact exec_jump_of_takenJump_eq_not rfl rfl
  case parityClear => exact exec_jump_of_takenJump_eq_not rfl rfl
  case zeroClear => exact exec_jump_of_takenJump_eq_not rfl rfl
  case signClear => exact exec_jump_of_takenJump_eq_not rfl rfl

end Sys2Proof.Proofs

namespace Sys2Proof

open Sys2Proof.Claims

/-! ### The encodings whose last three bytes are not checked (R88, R200 to R203) -/

/-- Instructions that keep every ignored field decode from any last three bytes, because the decoder undoes the encoder. -/
theorem encodedByOpcode_of_encode {b0 : Byte} {mk : Half → Reg → Reg → Instr}
    (h : ∀ op16 rT rF, encode hw (mk op16 rT rF) = [b0, loByte op16, hiByte op16, selByte rT rF]) :
    EncodedByOpcode b0 mk := by
  intro b1 b2 b3 rest
  have hdecode := decode_encode_append (c := hw) (by decide) (mk (halfOfBytes b1 b2) (toField b3) (fromField b3)) rest
  rw [h, loByte_halfOfBytes, hiByte_halfOfBytes, selByte_fields] at hdecode
  exact ⟨_, _, _, toNat_halfOfBytes b1 b2, (Nat.div_add_mod b3.toNat 16).symm, hdecode⟩

end Sys2Proof

namespace Sys2Proof.Machine

/-! ### What a reserved instruction does under each policy (R202, R203) -/

theorem reservedUnder_of_nop {c : Config} (h : c.callretPolicy = .nop) (k : OpClass) (op16 : Half) (s : State) :
    reservedUnder c k op16 s = .next s := by
  rw [reservedUnder, h]

theorem reservedUnder_of_fault {c : Config} (h : c.callretPolicy = .fault) (k : OpClass) (op16 : Half) (s : State) :
    reservedUnder c k op16 s = .next (s.raise (.unimplementedOpcode s.pc0 (c.opcode k) op16)) := by
  rw [reservedUnder, h]

end Sys2Proof.Machine

namespace Sys2Proof.Proofs

open Sys2Proof.Machine Sys2Proof.Claims

/-- Settles O39: the encodings by the decoder's round trip; after `halt` the machine is Halted, where a step changes
nothing. -/
theorem nopAndHaltComplete : Obligations.NopAndHaltComplete := by
  refine ⟨?nop, ?halt, ⟨rfl, rfl⟩, fun _ _ _ s => ⟨rfl, rfl, ?stays, rfl⟩⟩
  case nop => exact encodedByOpcode_of_encode fun _ _ _ => rfl
  case halt => exact encodedByOpcode_of_encode fun _ _ _ => rfl
  case stays => exact stepWith_halted rfl

/-- Settles O40: `call` and `ret` are the reserved instruction of their class, which `CALLRET_POLICY` decides. -/
theorem callAndRetComplete : Obligations.CallAndRetComplete := by
  refine ⟨?call, ?ret, fun op16 _ _ s => ⟨?callNop, ?retNop, ?callFault, ?retFault⟩⟩
  case call => exact encodedByOpcode_of_encode fun _ _ _ => rfl
  case ret => exact encodedByOpcode_of_encode fun _ _ _ => rfl
  case callNop => exact reservedUnder_of_nop (c := hw) rfl .call op16 s
  case retNop => exact reservedUnder_of_nop (c := hw) rfl .ret op16 s
  case callFault => exact reservedUnder_of_fault (c := { hw with callretPolicy := .fault }) rfl .call op16 s
  case retFault => exact reservedUnder_of_fault (c := { hw with callretPolicy := .fault }) rfl .ret op16 s

end Sys2Proof.Proofs

namespace Sys2Proof.Machine

/-! ### The engine does not look at the assembler (R1, R240) -/

/-- The same answer, with another assembler beside the engine. -/
def withAsm (a : AsmState) : Result → Result
  | .next t => .next { t with asm := a }
  | .fault r => .fault r
  | .refused r => .refused r

theorem exec_withAsm (i : Instr) (s : State) (a : AsmState) : exec i { s with asm := a } = withAsm a (exec i s) := by
  cases i with
  | ldm rT rF | ldb rT rF =>
    refine congrArg Host.Outcome.next ?_
    simp only [State.loadInto, State.effectiveAddress, State.reg]
    cases memRead Config.system3201 s.mem s.x[rF].toNat _ <;> rfl
  | stm rT rF | stb rT rF =>
    refine congrArg Host.Outcome.next ?_
    simp only [State.storeFrom, State.effectiveAddress, State.reg]
    cases memWrite Config.system3201 s.mem s.x[rT].toNat _ s.x[rF].toNat <;> rfl
  | j | jc | jp | jz | js | jnc | jnp | jnz | jns =>
    rw [exec_jump rfl, exec_jump rfl, jumpIf_eq, jumpIf_eq]
    rfl
  | _ => rfl

/-- A step reads memory at pc alone for its fetch, so the two steps halt, stop or dispatch alike. -/
theorem step_withAsm (s : State) (a : AsmState) : step { s with asm := a } = withAsm a (step s) := by
  obtain hr | ⟨r, hr⟩ : s.run = .running ∨ ∃ r, s.run = .halted r := by cases s.run <;> simp
  · by_cases hb : s.pc.toNat + 1 ≤ Config.system3201.memSize
    · by_cases ha : s.pc.toNat % 4 = 0
      · have hm : Config.system3201.memSize % 4 = 0 := by decide
        have hb4 : s.pc.toNat + 4 ≤ Config.system3201.memSize := by omega
        rcases hd : decodedAt Config.system3201 s with e | i
        · have hd' : decodedAt Config.system3201 { s with asm := a } = .error e := hd
          rw [step, step, stepWith_unknown (s := s) hr ha hb4 hd, stepWith_unknown (s := { s with asm := a }) hr ha hb4 hd']
          rfl
        · have hd' : decodedAt Config.system3201 { s with asm := a } = .ok i := hd
          rw [step, step, stepWith_decoded (s := s) hr ha hb4 hd, stepWith_decoded (s := { s with asm := a }) hr ha hb4 hd']
          exact exec_withAsm i (s.setPc (s.pc + 4)) a
      · rw [step, step, stepWith_stopped hr (fetch_misaligned hb ha)]
        exact stepWith_stopped hr (fetch_misaligned (s := { s with asm := a }) hb ha)
    · have hb' := Nat.lt_of_not_le hb
      rw [step, step, stepWith_stopped hr (fetch_opcode_out_of_bounds hb')]
      exact stepWith_stopped hr (fetch_opcode_out_of_bounds (s := { s with asm := a }) hb')
  · rw [step, step, stepWith_halted (s := s) hr]
    exact stepWith_halted hr

end Sys2Proof.Machine

namespace Sys2Proof.Proofs

open Sys2Proof.Machine

/-- Settles O22. That a step keeps the assembler is the case of `step_withAsm` in which the other assembler is its own. -/
theorem engineAndAssemblerAreSeparate : Obligations.EngineAndAssemblerAreSeparate := by
  refine ⟨fun s t h => ?keeps, fun s t a h => ?ignores, fun _ => rfl, fun s u h => ?asmStep, fun l s t h => ?launch⟩
  case keeps =>
    have hself : step s = withAsm s.asm (step s) := step_withAsm s s.asm
    rw [h] at hself
    have ht : t = { t with asm := s.asm } := Host.Outcome.next.inj hself
    rw [ht]
  case ignores => rw [step_withAsm, h, withAsm]
  case asmStep => rw [asmStep_asm, asmStep_asm, h]
  case launch =>
    rw [launch, launchUnder] at h
    split at h
    · obtain rfl := Host.Outcome.next.inj h
      rfl
    · cases h

end Sys2Proof.Proofs

namespace Sys2Proof.Machine

open Sys2Proof.Claims

/-! ### A line of pass 1, exactly (R242) -/

/-- The label table's new entry for a line at the counter `lc`, if the line has a label (R242). -/
def Tokens.entry (tok : Tokens) (lc : Nat) : List (List Char × Nat) :=
  (tok.label.map fun name => (name, lc)).toList

@[simp] theorem mem_entry {tok : Tokens} {lc v : Nat} {name : List Char} :
    (name, v) ∈ tok.entry lc ↔ tok.label = some name ∧ v = lc := by
  simp [Tokens.entry, eq_comm]

/-- The line's label recorded at the counter's value (R242). -/
def AsmState.record (a : AsmState) (tok : Tokens) : AsmState := { a with labels := tok.entry a.lc ++ a.labels }

@[simp] theorem record_line (a : AsmState) (tok : Tokens) : (a.record tok).line = a.line := rfl

theorem defineLabel_of_labelIsNew {a : AsmState} {tok : Tokens} (h : LabelIsNew a tok) :
    a.defineLabel tok.label = .ok (a.record tok) := by
  rcases hl : tok.label with _ | name
  · simp [AsmState.defineLabel, AsmState.record, Tokens.entry, hl]
  · have hnone : lookupLabel a.labels name = none := lookupLabel_eq_none_iff.2 (h name hl)
    simp [AsmState.defineLabel, AsmState.record, Tokens.entry, hl, hnone]

theorem defineLabel_of_not_labelIsNew {a : AsmState} {tok : Tokens} (h : ¬ LabelIsNew a tok) :
    a.defineLabel tok.label = .error .duplicateLabel := by
  rcases hl : tok.label with _ | name
  · exact absurd (fun _ hname => by simp [hl] at hname) h
  · have hsome : lookupLabel a.labels name ≠ none := fun hnone =>
      h fun n hn => by
        obtain rfl : name = n := Option.some.inj (hl.symm.trans hn)
        exact lookupLabel_eq_none_iff.1 hnone
    simp [AsmState.defineLabel, Option.isSome_iff_ne_none, hsome]

/-- The four things a step can do with a line of pass 1. -/
inductive Pass1Line (c : Config) (a : AsmState) (text : List Char) : AsmState → Prop
  | parseError (e : AsmError) (ht : tokenize text = .error e) : Pass1Line c a text (a.fail e)
  | duplicate (tok : Tokens) (ht : tokenize text = .ok tok) (hold : ¬ LabelIsNew a tok) :
    Pass1Line c a text (a.fail .duplicateLabel)
  | counterError (tok : Tokens) (e : AsmError) (ht : tokenize text = .ok tok) (hnew : LabelIsNew a tok)
    (hc : pass1Counter c a.lc tok = .error e) : Pass1Line c a text ((a.record tok).fail e)
  | done (tok : Tokens) (lc : Nat) (ht : tokenize text = .ok tok) (hnew : LabelIsNew a tok)
    (hc : pass1Counter c a.lc tok = .ok lc) : Pass1Line c a text { a.record tok with lc := lc, line := a.line + 1 }

section
variable {c : Config} {a : AsmState} {text : List Char} {tok : Tokens}

theorem step_pass1_counterError {e : AsmError} (hp : Processes a .pass1 tok) (hnew : LabelIsNew a tok)
    (hc : pass1Counter c a.lc tok = .error e) : a.step c = (a.record tok).fail e := by
  obtain ⟨hphase, text, hl, ht⟩ := hp
  have hc' : pass1Counter c (a.record tok).lc tok = .error e := hc
  simp only [AsmState.step, hphase, hl, AsmState.pass1Line, ht, defineLabel_of_labelIsNew hnew, hc']

theorem step_pass1_done {lc : Nat} (hp : Processes a .pass1 tok) (hnew : LabelIsNew a tok)
    (hc : pass1Counter c a.lc tok = .ok lc) : a.step c = { a.record tok with lc := lc, line := a.line + 1 } := by
  obtain ⟨hphase, text, hl, ht⟩ := hp
  have hc' : pass1Counter c (a.record tok).lc tok = .ok lc := hc
  simp only [AsmState.step, hphase, hl, AsmState.pass1Line, ht, defineLabel_of_labelIsNew hnew, hc']
  rfl

theorem lineDone_of_pass1Counter {lc : Nat} (hp : Processes a .pass1 tok) (hnew : LabelIsNew a tok)
    (hc : pass1Counter c a.lc tok = .ok lc) : LineDone a (a.step c) lc [] := by
  rw [step_pass1_done hp hnew hc]
  exact ⟨rfl, rfl, rfl, (List.append_nil _).symm⟩

theorem step_pass1 (hphase : a.phase = .pass1) (hl : a.lines[a.line - 1]? = some text) :
    Pass1Line c a text (a.step c) := by
  rcases ht : tokenize text with e | tok
  · have hstep : a.step c = a.fail e := by simp only [AsmState.step, hphase, hl, AsmState.pass1Line, ht]
    exact hstep ▸ .parseError e ht
  by_cases hnew : LabelIsNew a tok
  · rcases hc : pass1Counter c a.lc tok with e | lc
    · exact step_pass1_counterError ⟨hphase, text, hl, ht⟩ hnew hc ▸ .counterError tok e ht hnew hc
    · exact step_pass1_done ⟨hphase, text, hl, ht⟩ hnew hc ▸ .done tok lc ht hnew hc
  · have hstep : a.step c = a.fail .duplicateLabel := by
      simp only [AsmState.step, hphase, hl, AsmState.pass1Line, ht, defineLabel_of_not_labelIsNew hnew]
    exact hstep ▸ .duplicate tok ht hnew

end

/-! ### The counter of pass 1 (R242, R243, R271) -/

section
variable {c : Config} {lc : Nat} {tok : Tokens} {name : List Char}

theorem pass1Counter_noMnemonic (hm : tok.mnemonic = none) : pass1Counter c lc tok = .ok lc := by
  simp only [pass1Counter, hm]

theorem pass1Counter_org (hm : tok.mnemonic = some orgName) (hc : c.orgPass1Literal = false) :
    pass1Counter c lc tok = applyOrg tok.argument := by
  simp only [pass1Counter, hm, hc, and_self, if_true]

theorem pass1Counter_advance (hm : tok.mnemonic = some name) (hadv : name ≠ orgName ∨ c.orgPass1Literal = true)
    (hlc : lc + 4 ≤ 2 ^ 32) : pass1Counter c lc tok = .ok (lc + 4) := by
  have horg : ¬ (name = orgName ∧ c.orgPass1Literal = false) := fun ⟨hn, hf⟩ => by simp [hn, hf] at hadv
  simp only [pass1Counter, hm, if_neg horg, if_neg (Nat.not_lt.2 hlc)]

theorem pass1Counter_overflow (hm : tok.mnemonic = some name) (hadv : name ≠ orgName ∨ c.orgPass1Literal = true)
    (hlc : 2 ^ 32 < lc + 4) : pass1Counter c lc tok = .error .locationCounterOverflow := by
  have horg : ¬ (name = orgName ∧ c.orgPass1Literal = false) := fun ⟨hn, hf⟩ => by simp [hn, hf] at hadv
  simp only [pass1Counter, hm, if_neg horg, if_pos hlc]

theorem applyOrg_one {item : List Char} {v : Nat} (hv : parseImmediate item = some v) :
    applyOrg (some (.one item)) =
      if 0xFFFFFFFF < v then .error .immediateOutOfRange else if v % 4 ≠ 0 then .error .misalignedOrg else .ok v := by
  simp only [applyOrg, hv]

theorem applyOrg_badImmediate {item : List Char} (hv : parseImmediate item = none) :
    applyOrg (some (.one item)) = .error .badImmediate := by
  simp only [applyOrg, hv]

theorem applyOrg_badArgument {arg : Option Argument} (h : ∀ item, arg ≠ some (.one item)) :
    applyOrg arg = .error .badArgument := by
  match arg with
  | none | some (.two _ _) => rfl
  | some (.one item) => exact absurd rfl (h item)

theorem applyOrg_eq_ok_iff {arg : Option Argument} {v : Nat} : applyOrg arg = .ok v ↔
    ∃ item, arg = some (.one item) ∧ parseImmediate item = some v ∧ v ≤ 0xFFFFFFFF ∧ v % 4 = 0 := by
  constructor
  · intro h
    match arg with
    | none | some (.two _ _) => cases h
    | some (.one item) =>
      rcases hv : parseImmediate item with _ | w
      · rw [applyOrg_badImmediate hv] at h
        cases h
      · rw [applyOrg_one hv] at h
        split_ifs at h with hle hmod
        cases h
        exact ⟨item, rfl, hv, Nat.not_lt.1 hle, not_not.1 hmod⟩
  · rintro ⟨item, rfl, hv, hle, hmod⟩
    rw [applyOrg_one hv, if_neg (Nat.not_lt.2 hle), if_neg (not_not.2 hmod)]

/-- The counter after a line of pass 1: as before, redirected by `org`, or advanced. -/
theorem pass1Counter_eq_ok {lc' : Nat} (h : pass1Counter c lc tok = .ok lc') :
    (tok.mnemonic = none ∧ lc' = lc)
    ∨ (tok.mnemonic = some orgName ∧ applyOrg tok.argument = .ok lc')
    ∨ ∃ name, tok.mnemonic = some name ∧ (name ≠ orgName ∨ c.orgPass1Literal = true) ∧ lc + 4 ≤ 2 ^ 32 ∧ lc' = lc + 4 := by
  rcases hm : tok.mnemonic with _ | name
  · rw [pass1Counter_noMnemonic hm] at h
    exact .inl ⟨rfl, (Except.ok.inj h).symm⟩
  right
  by_cases hadv : name ≠ orgName ∨ c.orgPass1Literal = true
  · rcases Nat.lt_or_ge (2 ^ 32) (lc + 4) with hlc | hlc
    · rw [pass1Counter_overflow hm hadv hlc] at h
      cases h
    · rw [pass1Counter_advance hm hadv hlc] at h
      exact .inr ⟨name, rfl, hadv, hlc, (Except.ok.inj h).symm⟩
  · obtain ⟨rfl, hc⟩ : name = orgName ∧ c.orgPass1Literal = false := by simpa using hadv
    rw [pass1Counter_org hm hc] at h
    exact .inl ⟨rfl, h⟩

theorem pass1Counter_le {lc' : Nat} (hlc : lc ≤ 2 ^ 32) (h : pass1Counter c lc tok = .ok lc') : lc' ≤ 2 ^ 32 := by
  obtain ⟨-, rfl⟩ | ⟨-, horg⟩ | ⟨_, -, -, hle, rfl⟩ := pass1Counter_eq_ok h
  · exact hlc
  · obtain ⟨_, -, -, hle, -⟩ := applyOrg_eq_ok_iff.1 horg
    omega
  · exact hle

end

end Sys2Proof.Machine

namespace Sys2Proof.Machine

open Sys2Proof.Claims

/-! ### Lines of pass 2 (R245) -/

section
variable {c : Config} {a : AsmState} {tok : Tokens} {e : AsmError}

theorem step_pass2_noMnemonic (hp : Processes a .pass2 tok) (hm : tok.mnemonic = none) :
    a.step c = { a with line := a.line + 1 } := by
  obtain ⟨hphase, text, hl, ht⟩ := hp
  simp only [AsmState.step, hphase, hl, AsmState.pass2Line, ht, hm]

theorem step_pass2_org {lc : Nat} (hp : Processes a .pass2 tok) (hm : tok.mnemonic = some orgName)
    (ho : applyOrg tok.argument = .ok lc) : a.step c = { a with lc := lc, line := a.line + 1 } := by
  obtain ⟨hphase, text, hl, ht⟩ := hp
  simp only [AsmState.step, hphase, hl, AsmState.pass2Line, ht, hm, if_true, ho]

theorem step_pass2_orgError (hp : Processes a .pass2 tok) (hm : tok.mnemonic = some orgName)
    (ho : applyOrg tok.argument = .error e) : a.step c = a.fail e := by
  obtain ⟨hphase, text, hl, ht⟩ := hp
  simp only [AsmState.step, hphase, hl, AsmState.pass2Line, ht, hm, if_true, ho]

theorem step_pass2_unknown {name : List Char} (hp : Processes a .pass2 tok) (hm : tok.mnemonic = some name)
    (horg : name ≠ orgName) (hform : acceptedForm c name = none) : a.step c = a.fail .unknownMnemonic := by
  obtain ⟨hphase, text, hl, ht⟩ := hp
  simp only [AsmState.step, hphase, hl, AsmState.pass2Line, ht, hm, horg, if_false, hform]

theorem step_pass2_formError {name : List Char} {f : AsmForm} (hp : Processes a .pass2 tok)
    (hm : tok.mnemonic = some name) (horg : name ≠ orgName) (hform : acceptedForm c name = some f)
    (hasm : assembleForm a.labels f tok.argument = .error e) : a.step c = a.fail e := by
  obtain ⟨hphase, text, hl, ht⟩ := hp
  simp only [AsmState.step, hphase, hl, AsmState.pass2Line, ht, hm, horg, if_false, hform, hasm]

end

/-! ### One step, whichever the pass -/

section
variable {c : Config} {a b : AsmState} {text : List Char}

/-- What every line of pass 1 leaves alone (R240). -/
theorem Pass1Line.frame (h : Pass1Line c a text b) : b.lines = a.lines ∧ b.status = a.status ∧ b.out = a.out := by
  cases h with
  | parseError | duplicate | counterError | done => exact ⟨rfl, rfl, rfl⟩

theorem Pass1Line.lc_le (h : Pass1Line c a text b) (hlc : a.lc ≤ 2 ^ 32) : b.lc ≤ 2 ^ 32 := by
  cases h with
  | parseError | duplicate | counterError => exact hlc
  | done _ _ _ _ hc => exact pass1Counter_le hlc hc

/-- A line of pass 1 keeps the label table, or adds the entry of a new label (R242, R250). -/
theorem Pass1Line.labels_cases (h : Pass1Line c a text b) :
    b.labels = a.labels ∨ ∃ tok, LabelIsNew a tok ∧ b.labels = tok.entry a.lc ++ a.labels := by
  cases h with
  | parseError | duplicate => exact .inl rfl
  | counterError tok _ _ hnew | done tok _ _ hnew => exact .inr ⟨tok, hnew, rfl⟩

/-- A line is the last of its pass, with an error of its own, or the pass goes on to the next line (R242, R245). -/
theorem Pass1Line.ends (h : Pass1Line c a text b) :
    (∃ e, b.phase = .failed a.line e) ∨ (b.phase = a.phase ∧ b.line = a.line + 1) := by
  cases h with
  | parseError e | counterError _ e => exact .inl ⟨e, rfl⟩
  | duplicate => exact .inl ⟨_, rfl⟩
  | done => exact .inr ⟨rfl, rfl⟩

theorem pass2Line_frame (c : Config) (a : AsmState) (text : List Char) :
    (a.pass2Line c text).lines = a.lines ∧ (a.pass2Line c text).status = a.status
      ∧ (a.pass2Line c text).labels = a.labels := by
  obtain ⟨e, h⟩ | ⟨tok, -, ⟨-, h⟩ | ⟨lc, -, -, h⟩ | ⟨name, f, i, -, -, -, -, h⟩⟩ := pass2Line_cases c a text <;>
    rw [h] <;> exact ⟨rfl, rfl, rfl⟩

theorem pass2Line_ends (c : Config) (a : AsmState) (text : List Char) :
    (∃ e, (a.pass2Line c text).phase = .failed a.line e)
      ∨ ((a.pass2Line c text).phase = a.phase ∧ (a.pass2Line c text).line = a.line + 1) := by
  obtain ⟨e, h⟩ | ⟨tok, -, ⟨-, h⟩ | ⟨lc, -, -, h⟩ | ⟨name, f, i, -, -, -, -, h⟩⟩ := pass2Line_cases c a text <;> rw [h]
  · exact .inl ⟨e, rfl⟩
  all_goals exact .inr ⟨rfl, rfl⟩

theorem step_pass2 (hphase : a.phase = .pass2) (hl : a.lines[a.line - 1]? = some text) :
    a.step c = a.pass2Line c text := by
  simp only [AsmState.step, hphase, hl]

theorem step_endOfPass1 (hphase : a.phase = .pass1) (hl : a.lines[a.line - 1]? = none) : a.step c = a.beginPass2 := by
  simp only [AsmState.step, hphase, hl]

theorem step_endOfPass2 (hphase : a.phase = .pass2) (hl : a.lines[a.line - 1]? = none) :
    a.step c = { a with phase := .done } := by
  simp only [AsmState.step, hphase, hl]

theorem step_lines (c : Config) (a : AsmState) : (a.step c).lines = a.lines := by
  obtain ⟨hp, ⟨text, hl, -⟩ | ⟨-, h⟩⟩ | ⟨-, ⟨text, -, h⟩ | ⟨-, h⟩⟩ | ⟨-, -, h⟩ := asm_step_cases c a
  · exact (step_pass1 hp hl).frame.1
  · rw [h, beginPass2_lines]
  · rw [h]
    exact (pass2Line_frame c a text).1
  all_goals rw [h]

/-- Outside pass 1 the label table is read only, and pass 1 does not come again (R245). -/
theorem step_after_pass1 (c : Config) {a : AsmState} (hp : a.phase ≠ .pass1) :
    (a.step c).labels = a.labels ∧ (a.step c).phase ≠ .pass1 := by
  obtain ⟨hp1, -⟩ | ⟨hp2, ⟨text, -, h⟩ | ⟨-, h⟩⟩ | ⟨-, -, h⟩ := asm_step_cases c a
  · exact absurd hp1 hp
  · obtain ⟨-, -, hlabels⟩ := pass2Line_frame c a text
    rw [h]
    refine ⟨hlabels, ?_⟩
    obtain ⟨e, he⟩ | ⟨he, -⟩ := pass2Line_ends c a text <;> simp [he, hp2]
  · simp [h]
  · rw [h]
    exact ⟨rfl, hp⟩

/-- A step keeps the label table, or adds the entry of a new label (R250). -/
theorem step_labels_cases (c : Config) (a : AsmState) :
    (a.step c).labels = a.labels ∨ ∃ tok, LabelIsNew a tok ∧ (a.step c).labels = tok.entry a.lc ++ a.labels := by
  obtain ⟨hp, ⟨text, hl, -⟩ | ⟨-, h⟩⟩ | ⟨hp, -⟩ | ⟨-, -, h⟩ := asm_step_cases c a
  · exact (step_pass1 hp hl).labels_cases
  · exact .inl (by rw [h, beginPass2_labels])
  · exact .inl (step_after_pass1 c (by simp [hp])).1
  · exact .inl (by rw [h])

theorem labelsUnique_iff {a : AsmState} : a.labelsUnique = true ↔ (a.labels.map Prod.fst).Nodup :=
  decide_eq_true_iff

theorem nodup_entry_append {a : AsmState} {tok : Tokens} (hnew : LabelIsNew a tok) (hu : (a.labels.map Prod.fst).Nodup) :
    ((tok.entry a.lc ++ a.labels).map Prod.fst).Nodup := by
  rcases hl : tok.label with _ | name
  · simpa [Tokens.entry, hl] using hu
  · have hfresh : ∀ v, (name, v) ∉ a.labels := hnew name hl
    simpa [Tokens.entry, hl, hfresh] using hu

theorem step_keeps_labelsUnique (c : Config) {a : AsmState} (hu : a.labelsUnique = true) :
    (a.step c).labelsUnique = true := by
  rw [labelsUnique_iff] at hu ⊢
  obtain h | ⟨tok, hnew, h⟩ := step_labels_cases c a
  · rwa [h]
  · rw [h]
    exact nodup_entry_append hnew hu

/-- Done and Failed are terminal (R247). -/
theorem step_terminal (c : Config) {a : AsmState} (h1 : a.phase ≠ .pass1) (h2 : a.phase ≠ .pass2) : a.step c = a := by
  obtain ⟨hp, -⟩ | ⟨hp, -⟩ | ⟨-, -, h⟩ := asm_step_cases c a
  · exact absurd hp h1
  · exact absurd hp h2
  · exact h

theorem steps_terminal (c : Config) {a : AsmState} (h1 : a.phase ≠ .pass1) (h2 : a.phase ≠ .pass2) :
    ∀ n, AsmState.steps c n a = a
  | 0 => rfl
  | n + 1 => by rw [steps_succ, steps_terminal c h1 h2 n, step_terminal c h1 h2]

end

/-- What every step keeps, any number of steps keeps. -/
theorem steps_keep {c : Config} {P : AsmState → Prop} (hstep : ∀ a, P a → P (a.step c)) {a : AsmState} (ha : P a) :
    ∀ n, P (AsmState.steps c n a)
  | 0 => ha
  | n + 1 => steps_succ c n a ▸ hstep _ (steps_keep hstep ha n)

/-! ### A whole pass -/

/-- `b` is the pass that begins at `a`, after its first `n` lines without an error. -/
structure LinesDone (a : AsmState) (n : Nat) (b : AsmState) : Prop where
  phase : b.phase = a.phase
  line : b.line = n + 1
  lines : b.lines = a.lines
  status : b.status = a.status

section
variable {c : Config} {a b : AsmState} {n : Nat}

theorem LinesDone.next_line (h : LinesDone a n b) : b.lines[b.line - 1]? = a.lines[n]? := by
  rw [h.lines, h.line, Nat.add_sub_cancel]

/-- The line after the first `n` is done too, or the pass ends there with its error. -/
theorem LinesDone.step (h : LinesDone a n b) (hp : a.phase = .pass1 ∨ a.phase = .pass2) (hn : n < a.lines.length) :
    LinesDone a (n + 1) (b.step c) ∨ ∃ kind, (b.step c).phase = .failed (n + 1) kind := by
  have hl : b.lines[b.line - 1]? = some a.lines[n] := by rw [h.next_line, List.getElem?_eq_getElem hn]
  have hline : ((b.step c).lines = b.lines ∧ (b.step c).status = b.status)
      ∧ ((∃ e, (b.step c).phase = .failed b.line e) ∨ ((b.step c).phase = b.phase ∧ (b.step c).line = b.line + 1)) := by
    obtain hp1 | hp2 := hp
    · have h1 : Pass1Line c b a.lines[n] (b.step c) := step_pass1 (h.phase.trans hp1) hl
      obtain ⟨hlines, hstatus, -⟩ := h1.frame
      exact ⟨⟨hlines, hstatus⟩, h1.ends⟩
    · rw [step_pass2 (h.phase.trans hp2) hl]
      obtain ⟨hlines, hstatus, -⟩ := pass2Line_frame c b a.lines[n]
      exact ⟨⟨hlines, hstatus⟩, pass2Line_ends c b _⟩
  obtain ⟨⟨hlines, hstatus⟩, ⟨e, he⟩ | ⟨hphase, hnext⟩⟩ := hline
  · exact .inr ⟨e, by rw [he, h.line]⟩
  · exact .inl ⟨hphase.trans h.phase, by rw [hnext, h.line], hlines.trans h.lines, hstatus.trans h.status⟩

/-- The first `n` lines of a pass are done, each after those before it, or one of them is the first to fail. -/
theorem pass_ends (c : Config) {a : AsmState} (hp : a.phase = .pass1 ∨ a.phase = .pass2) (hline : a.line = 1) :
    ∀ n ≤ a.lines.length, (∀ k ≤ n, LinesDone a k (AsmState.steps c k a))
      ∨ ∃ m < n, (∀ k ≤ m, LinesDone a k (AsmState.steps c k a))
        ∧ ∃ kind, (AsmState.steps c (m + 1) a).phase = .failed (m + 1) kind
  | 0, _ => .inl fun k hk => by
    obtain rfl := Nat.le_zero.1 hk
    exact ⟨rfl, hline, rfl, rfl⟩
  | n + 1, hn => by
    obtain hdone | ⟨m, hm, hdone, hfail⟩ := pass_ends c hp hline n (Nat.le_of_succ_le hn)
    · obtain hnext | hfail := (hdone n le_rfl).step (c := c) hp hn
      · refine .inl fun k hk => ?_
        obtain hk | rfl := Nat.le_succ_iff.1 hk
        · exact hdone k hk
        · rwa [steps_succ]
      · exact .inr ⟨n, Nat.lt_succ_self n, hdone, by rwa [steps_succ]⟩
    · exact .inr ⟨m, Nat.lt_succ_of_lt hm, hdone, hfail⟩

end

/-! ### A whole assembly (R220, R241 to R248) -/

/-- The assembler before line `n + 1` of pass 1, if no line before it fails. -/
def pass1At (c : Config) (source : List Char) (n : Nat) : AsmState := AsmState.steps c n (AsmState.start source)

/-- The assembler before line `n + 1` of pass 2, if no line before it fails. -/
def pass2At (c : Config) (source : List Char) (n : Nat) : AsmState :=
  AsmState.steps c ((splitLines source).length + 1 + n) (AsmState.start source)

/-- The first `n` lines of pass 1 are done without an error. -/
def Pass1Done (c : Config) (source : List Char) (n : Nat) : Prop :=
  ∀ k ≤ n, LinesDone (AsmState.start source) k (pass1At c source k)

/-- The first `n` lines of pass 2 are done without an error. -/
def Pass2Done (c : Config) (source : List Char) (n : Nat) : Prop :=
  ∀ k ≤ n, LinesDone (pass2At c source 0) k (pass2At c source k)

/-- The three ways an assembly ends: at a line of pass 1, at a line of pass 2, or after both. -/
inductive AssemblyEnds (c : Config) (source : List Char) : Prop
  | inPass1 (m : Nat) (kind : AsmError) (hm : m < (splitLines source).length) (h1 : Pass1Done c source m)
    (hend : assemble c source = pass1At c source (m + 1))
    (hfail : (assemble c source).phase = .failed (m + 1) kind)
  | inPass2 (m : Nat) (kind : AsmError) (hm : m < (splitLines source).length)
    (h1 : Pass1Done c source (splitLines source).length) (h2 : Pass2Done c source m)
    (hend : assemble c source = pass2At c source (m + 1))
    (hfail : (assemble c source).phase = .failed (m + 1) kind)
  | done (h1 : Pass1Done c source (splitLines source).length) (h2 : Pass2Done c source (splitLines source).length)
    (hend : assemble c source = { pass2At c source (splitLines source).length with phase := .done })

section
variable {c : Config} {source : List Char} {n : Nat}

theorem pass1At_succ (c : Config) (source : List Char) (n : Nat) : pass1At c source (n + 1) = (pass1At c source n).step c :=
  steps_succ c n _

theorem pass2At_succ (c : Config) (source : List Char) (n : Nat) : pass2At c source (n + 1) = (pass2At c source n).step c :=
  steps_succ c _ _

theorem pass2At_eq_steps (c : Config) (source : List Char) (n : Nat) :
    pass2At c source n = AsmState.steps c n (pass2At c source 0) :=
  steps_add c n _ _

/-- After the last line of pass 1, pass 2 begins (R244). -/
theorem pass2At_zero (h : Pass1Done c source (splitLines source).length) :
    pass2At c source 0 = (pass1At c source (splitLines source).length).beginPass2 := by
  have hlast := h _ le_rfl
  have hend : (AsmState.start source).lines[(splitLines source).length]? = none := List.getElem?_eq_none le_rfl
  exact (pass1At_succ c source _).trans (step_endOfPass1 hlast.phase (hlast.next_line.trans hend))

theorem pass2At_zero_phase (h : Pass1Done c source (splitLines source).length) : (pass2At c source 0).phase = .pass2 := by
  rw [pass2At_zero h, beginPass2_phase]

theorem pass2At_zero_lines (h : Pass1Done c source (splitLines source).length) :
    (pass2At c source 0).lines = splitLines source := by
  rw [pass2At_zero h, beginPass2_lines]
  exact (h _ le_rfl).lines

/-- A state the run reaches after `n` steps and that is Done or Failed is the one the assembly ends in. -/
theorem assemble_eq_of_terminal {b : AsmState} (hn : n ≤ 2 * (splitLines source).length + 2)
    (hb : AsmState.steps c n (AsmState.start source) = b) (h1 : b.phase ≠ .pass1) (h2 : b.phase ≠ .pass2) :
    assemble c source = b := by
  obtain ⟨k, hk⟩ := Nat.exists_eq_add_of_le hn
  rw [assemble, hk, steps_add, hb, steps_terminal c h1 h2]

theorem assemblyEnds (c : Config) (source : List Char) : AssemblyEnds c source := by
  obtain h1 | ⟨m, hm, h1, kind, hfail⟩ := pass_ends c (a := AsmState.start source) (.inl rfl) rfl _ le_rfl
  · have hpass2 := pass2At_zero_phase h1
    have hlines := pass2At_zero_lines h1
    obtain h2 | ⟨m, hm, h2, kind, hfail⟩ := pass_ends c (a := pass2At c source 0) (.inr hpass2)
      (by rw [pass2At_zero h1, beginPass2_line]) (splitLines source).length (by rw [hlines])
    · simp only [← pass2At_eq_steps] at h2
      have hlast := h2 _ le_rfl
      have hend : (pass2At c source 0).lines[(splitLines source).length]? = none := by
        rw [hlines]
        exact List.getElem?_eq_none le_rfl
      have hstep := (pass2At_succ c source _).trans
        (step_endOfPass2 (hlast.phase.trans hpass2) (hlast.next_line.trans hend))
      exact .done h1 h2 (assemble_eq_of_terminal (by omega) hstep (by simp) (by simp))
    · simp only [← pass2At_eq_steps] at h2 hfail
      have hend : assemble c source = pass2At c source (m + 1) :=
        assemble_eq_of_terminal (by omega) rfl (by simp [hfail]) (by simp [hfail])
      exact .inPass2 m kind hm h1 h2 hend (hend ▸ hfail)
  · have hm' : m < (splitLines source).length := hm
    have hend : assemble c source = pass1At c source (m + 1) :=
      assemble_eq_of_terminal (n := m + 1) (by omega) rfl (by simp [pass1At, hfail]) (by simp [pass1At, hfail])
    exact .inPass1 m kind hm h1 hend (hend ▸ hfail)

/-- Every line of pass 1 up to the first that fails is processed by its rule. -/
theorem Pass1Done.line (h : Pass1Done c source n) {text : List Char} (ht : (splitLines source)[n]? = some text) :
    Pass1Line c (pass1At c source n) text (pass1At c source (n + 1)) := by
  have hn := h n le_rfl
  exact pass1At_succ c source n ▸ step_pass1 hn.phase (hn.next_line.trans ht)

end

end Sys2Proof.Machine

namespace Sys2Proof.Machine

open Sys2Proof.Claims

/-! ### Lines that emit an instruction (R266) -/

theorem emitsInstruction_iff {text : List Char} {tok : Tokens} (ht : tokenize text = .ok tok) :
    emitsInstruction text = true ↔ ∃ name, tok.mnemonic = some name ∧ name ≠ orgName := by
  rcases hm : tok.mnemonic with _ | name <;> simp [emitsInstruction, ht, hm, orgName]

/-- One more line is one more instruction if the line emits one, and none otherwise. -/
theorem filter_take_succ {p : List Char → Bool} {lines : List (List Char)} {n : Nat} {text : List Char}
    (ht : lines[n]? = some text) :
    (lines.take (n + 1)).filter p = (lines.take n).filter p ++ if p text = true then [text] else [] := by
  rw [List.take_add_one, ht, List.filter_append]
  cases hp : p text <;> simp [hp]

/-! ### What pass 1 leaves behind (R240, R242, R250) -/

section
variable {c : Config} {source : List Char} {n : Nat}

theorem Pass1Done.mono {k : Nat} (h : Pass1Done c source n) (hk : k ≤ n) : Pass1Done c source k :=
  fun j hj => h j (hj.trans hk)

theorem Pass2Done.mono {k : Nat} (h : Pass2Done c source n) (hk : k ≤ n) : Pass2Done c source k :=
  fun j hj => h j (hj.trans hk)

/-- A line of pass 1 that is done tokenizes, its label is new, and its counter check passes. -/
theorem Pass1Done.line_done (h : Pass1Done c source (n + 1)) {text : List Char}
    (ht : (splitLines source)[n]? = some text) :
    ∃ tok lc, tokenize text = .ok tok ∧ LabelIsNew (pass1At c source n) tok
      ∧ pass1Counter c (pass1At c source n).lc tok = .ok lc
      ∧ pass1At c source (n + 1) = { (pass1At c source n).record tok with lc := lc, line := (pass1At c source n).line + 1 } := by
  have hphase : (pass1At c source (n + 1)).phase = .pass1 := (h _ le_rfl).phase
  have hline := (h.mono (Nat.le_succ n)).line ht
  generalize pass1At c source (n + 1) = b at hline hphase
  cases hline with
  | parseError | duplicate | counterError => cases hphase
  | done tok lc htok hnew hc => exact ⟨tok, lc, htok, hnew, hc, rfl⟩

theorem Pass1Done.tokenizes {k : Nat} {text : List Char} (h : Pass1Done c source n) (hk : k < n)
    (ht : (splitLines source)[k]? = some text) : ∃ tok, tokenize text = .ok tok := by
  obtain ⟨tok, -, htok, -⟩ := (h.mono hk).line_done ht
  exact ⟨tok, htok⟩

/-- Pass 1 emits nothing (R240). -/
theorem Pass1Done.out_eq_nil (hn : n ≤ (splitLines source).length) (h : Pass1Done c source n) :
    (pass1At c source n).out = [] := by
  induction n with
  | zero => rfl
  | succ n ih =>
    have hline := (h.mono (Nat.le_succ n)).line (List.getElem?_eq_getElem hn)
    obtain ⟨-, -, hout⟩ := hline.frame
    rw [hout, ih (Nat.le_of_succ_le hn) (h.mono (Nat.le_succ n))]

/-- After the line that fails in pass 1 too, nothing is emitted and only "Pass 1" is written. -/
theorem Pass1Done.frame_next (h : Pass1Done c source n) (hn : n < (splitLines source).length) :
    (pass1At c source (n + 1)).status = [.pass1] ∧ (pass1At c source (n + 1)).out = [] := by
  obtain ⟨-, hstatus, hout⟩ := (h.line (List.getElem?_eq_getElem hn)).frame
  exact ⟨hstatus.trans (h n le_rfl).status, hout.trans (h.out_eq_nil hn.le)⟩

theorem Pass1Done.labels_subset {j k : Nat} (hjk : j ≤ k) (hk : k ≤ (splitLines source).length)
    (h : Pass1Done c source k) : (pass1At c source j).labels ⊆ (pass1At c source k).labels := by
  induction k, hjk using Nat.le_induction with
  | base => exact List.Subset.refl _
  | succ k hjk ih =>
    obtain ⟨tok, lc, -, -, -, hnext⟩ := h.line_done (List.getElem?_eq_getElem hk)
    have hsub := ih (Nat.le_of_succ_le hk) (h.mono (Nat.le_succ k))
    rw [hnext]
    exact List.Subset.trans hsub (List.subset_append_right _ _)

/-- The label of a line that is done has the counter of that line (R242). -/
theorem Pass1Done.mem_labels {j : Nat} {text name : List Char} {tok : Tokens} (h : Pass1Done c source n) (hj : j < n)
    (hn : n ≤ (splitLines source).length) (ht : (splitLines source)[j]? = some text) (htok : tokenize text = .ok tok)
    (hname : tok.label = some name) : (name, (pass1At c source j).lc) ∈ (pass1At c source n).labels := by
  obtain ⟨tok', lc, htok', -, -, hnext⟩ := (h.mono hj).line_done ht
  obtain rfl : tok = tok' := Except.ok.inj (htok.symm.trans htok')
  apply h.labels_subset hj hn
  rw [hnext]
  exact List.mem_append_left _ (mem_entry.2 ⟨hname, rfl⟩)

/-- Without an `org` line the counter is 4 for every line that emits an instruction (R267). -/
theorem Pass1Done.lc_of_hasNoOrg (horg : HasNoOrg source) (hn : n ≤ (splitLines source).length)
    (h : Pass1Done c source n) : (pass1At c source n).lc = 4 * (((splitLines source).take n).filter emitsInstruction).length := by
  induction n with
  | zero => rfl
  | succ n ih =>
    have ht : (splitLines source)[n]? = some (splitLines source)[n] := List.getElem?_eq_getElem hn
    obtain ⟨tok, lc, htok, -, hc, hnext⟩ := h.line_done ht
    have ih := ih (Nat.le_of_succ_le hn) (h.mono (Nat.le_succ n))
    have hnoorg : tok.mnemonic ≠ some orgName := horg _ (List.getElem_mem hn) tok htok
    rw [filter_take_succ ht, hnext]
    obtain ⟨hm, rfl⟩ | ⟨hm, -⟩ | ⟨name, hm, -, -, rfl⟩ := pass1Counter_eq_ok hc
    · have hemits : ¬ emitsInstruction (splitLines source)[n] = true := by simp [emitsInstruction_iff htok, hm]
      rw [if_neg hemits, List.append_nil, ih]
    · exact absurd hm hnoorg
    · have hne : name ≠ orgName := fun e => hnoorg (hm.trans (congrArg some e))
      rw [if_pos ((emitsInstruction_iff htok).2 ⟨name, hm, hne⟩), List.length_append, ih]
      rfl

end

section
variable {c : Config} {source : List Char}

theorem labelsUnique_assemble (c : Config) (source : List Char) : (assemble c source).labelsUnique = true :=
  steps_keep (P := fun a => a.labelsUnique = true) (fun _ => step_keeps_labelsUnique c) rfl _

/-- Pass 2 ends with the label table of pass 1 (R245). -/
theorem labels_pass2At (h1 : Pass1Done c source (splitLines source).length) (n : Nat) :
    (pass2At c source n).labels = (pass1At c source (splitLines source).length).labels := by
  have hkeep : ∀ a : AsmState, a.phase ≠ .pass1 ∧ a.labels = (pass2At c source 0).labels →
      (a.step c).phase ≠ .pass1 ∧ (a.step c).labels = (pass2At c source 0).labels := fun a ⟨hp, hl⟩ =>
    let ⟨hlabels, hphase⟩ := step_after_pass1 c hp
    ⟨hphase, hlabels.trans hl⟩
  have h0 : (pass2At c source 0).phase ≠ .pass1 := by simp [pass2At_zero_phase h1]
  rw [pass2At_eq_steps, (steps_keep hkeep ⟨h0, rfl⟩ n).2, pass2At_zero h1, beginPass2_labels]

theorem Pass2Done.next_line {n : Nat} (h1 : Pass1Done c source (splitLines source).length) (h2 : Pass2Done c source n) :
    (pass2At c source n).phase = .pass2
      ∧ (pass2At c source n).lines[(pass2At c source n).line - 1]? = (splitLines source)[n]? := by
  have hn := h2 n le_rfl
  exact ⟨hn.phase.trans (pass2At_zero_phase h1), by rw [hn.next_line, pass2At_zero_lines h1]⟩

/-- Every line of pass 2 up to the first that fails is processed by its rule. -/
theorem Pass2Done.line {n : Nat} (h1 : Pass1Done c source (splitLines source).length) (h2 : Pass2Done c source n)
    {text : List Char} (ht : (splitLines source)[n]? = some text) :
    pass2At c source (n + 1) = (pass2At c source n).pass2Line c text := by
  obtain ⟨hphase, hl⟩ := h2.next_line h1
  rw [pass2At_succ, step_pass2 hphase (hl.trans ht)]

theorem Pass2Done.processes {n : Nat} (h1 : Pass1Done c source (splitLines source).length) (h2 : Pass2Done c source n)
    {text : List Char} {tok : Tokens} (ht : (splitLines source)[n]? = some text) (htok : tokenize text = .ok tok) :
    Processes (pass2At c source n) .pass2 tok := by
  obtain ⟨hphase, hl⟩ := h2.next_line h1
  exact ⟨hphase, text, hl.trans ht, htok⟩

/-- The output of pass 2 is the encodings of the instructions of the lines done (R266). -/
theorem Pass2Done.out_eq {n : Nat} (h1 : Pass1Done c source (splitLines source).length)
    (hn : n ≤ (splitLines source).length) (h2 : Pass2Done c source n) :
    ∃ is : List Instr, (pass2At c source n).out = is.flatMap (encode c)
      ∧ List.Forall₂ (AssemblesTo c (pass1At c source (splitLines source).length).labels)
        (((splitLines source).take n).filter emitsInstruction) is := by
  induction n with
  | zero => exact ⟨[], by rw [pass2At_zero h1, beginPass2_out]; rfl, .nil⟩
  | succ n ih =>
    have ht : (splitLines source)[n]? = some (splitLines source)[n] := List.getElem?_eq_getElem hn
    have h2n := h2.mono (Nat.le_succ n)
    obtain ⟨is, hout, his⟩ := ih (Nat.le_of_succ_le hn) h2n
    have hphase : (pass2At c source (n + 1)).phase = .pass2 := (h2 _ le_rfl).phase.trans (pass2At_zero_phase h1)
    rw [h2n.line h1 ht] at hphase ⊢
    rw [filter_take_succ ht]
    obtain ⟨e, h⟩ | ⟨tok, htok, ⟨hm, h⟩ | ⟨lc, hm, -, h⟩ | ⟨name, f, i, hm, horg, hform, hasm, h⟩⟩ :=
      pass2Line_cases c (pass2At c source n) (splitLines source)[n]
    · rw [h, fail_phase] at hphase
      cases hphase
    · have hemits : ¬ emitsInstruction (splitLines source)[n] = true := by simp [emitsInstruction_iff htok, hm]
      rw [h, if_neg hemits, List.append_nil]
      exact ⟨is, hout, his⟩
    · have hemits : ¬ emitsInstruction (splitLines source)[n] = true := by simp [emitsInstruction_iff htok, hm]
      rw [h, if_neg hemits, List.append_nil]
      exact ⟨is, hout, his⟩
    · rw [labels_pass2At h1] at hasm
      rw [h, if_pos ((emitsInstruction_iff htok).2 ⟨name, hm, horg⟩)]
      refine ⟨is ++ [i], ?_, List.rel_append his (.cons ⟨tok, name, f, htok, hm, hform, hasm⟩ .nil)⟩
      simp [hout]

end

/-! ### What the assembler's instructions are (R93, R260, R262) -/

/-- Every instruction the form makes has the property. -/
def AsmForm.Makes (P : Instr → Prop) : AsmForm → Prop
  | .oneReg mk => ∀ X, P (mk X)
  | .twoReg mk => ∀ X Y, P (mk X Y)
  | .regImm mk => ∀ X v, P (mk X v)
  | .noArg i => P i

theorem AsmForm.Makes.of_assembleForm {P : Instr → Prop} {f : AsmForm} (h : f.Makes P) {labels : List (List Char × Nat)}
    {arg : Option Argument} {i : Instr} (hi : assembleForm labels f arg = .ok i) : P i := by
  unfold assembleForm at hi
  split at hi
  case h_1 mk item =>
    split at hi <;> cases hi
    exact h _
  case h_2 mk item₁ item₂ =>
    split at hi
    · cases hi
    split at hi <;> cases hi
    exact h _ _
  case h_3 mk item₁ item₂ =>
    split at hi
    · cases hi
    split at hi <;> cases hi
    exact h _ _
  case h_4 =>
    cases hi
    exact h
  case h_5 => cases hi

theorem defaultMnemonics_make : ∀ p ∈ defaultMnemonics, p.2.Makes fun i => i.wellFormed = true ∧ inDefaultSet i = true := by
  simp [defaultMnemonics, AsmForm.Makes, Instr.wellFormed, inDefaultSet]

theorem extraMnemonics_make : ∀ p ∈ extraMnemonics, p.2.Makes fun i => i.wellFormed = true ∧ inDefaultSet i = false := by
  simp [extraMnemonics, AsmForm.Makes, Instr.wellFormed, inDefaultSet]

theorem wellFormed_of_assemblesTo {c : Config} {labels : List (List Char × Nat)} {line : List Char} {i : Instr}
    (h : AssemblesTo c labels line i) : i.wellFormed = true := by
  obtain ⟨tok, name, f, -, -, hform, hasm⟩ := h
  obtain hmem | hmem := List.mem_append.1 (mem_of_acceptedForm hform)
  · exact ((defaultMnemonics_make _ hmem).of_assembleForm hasm).1
  · exact ((extraMnemonics_make _ hmem).of_assembleForm hasm).1

/-! ### Which checks give which errors (R228, R268) -/

section
variable {labels : List (List Char × Nat)} {arg : Option Argument} {e : AsmError}

theorem not_isParseError_of_applyOrg (h : applyOrg arg = .error e) : e.isParseError = false := by
  unfold applyOrg at h
  split at h
  case h_1 item =>
    split at h
    · cases h
      rfl
    · split_ifs at h <;> cases h <;> rfl
  case h_2 =>
    cases h
    rfl

theorem not_isParseError_of_parseValue {item : List Char} (h : parseValue labels item = .error e) :
    e.isParseError = false := by
  unfold parseValue at h
  split at h
  all_goals
    split at h
    · cases h
      rfl
    · split_ifs at h
      cases h
      rfl

theorem not_isParseError_of_assembleForm {f : AsmForm} (h : assembleForm labels f arg = .error e) :
    e.isParseError = false := by
  unfold assembleForm at h
  split at h
  case h_1 =>
    split at h <;> cases h
    rfl
  case h_2 =>
    split at h
    · cases h
      rfl
    · split at h <;> cases h
      rfl
  case h_3 =>
    split at h
    · cases h
      rfl
    · split at h <;> cases h
      exact not_isParseError_of_parseValue ‹_›
  case h_4 => cases h
  case h_5 =>
    cases h
    rfl

theorem not_isParseError_of_pass1Counter {c : Config} {lc : Nat} {tok : Tokens} (h : pass1Counter c lc tok = .error e) :
    e.isParseError = false := by
  unfold pass1Counter at h
  split at h
  · cases h
  · split_ifs at h
    · exact not_isParseError_of_applyOrg h
    · cases h
      rfl

theorem Pass1Line.phase_of_parseError {c : Config} {a b : AsmState} {text : List Char} (h : Pass1Line c a text b)
    (ht : tokenize text = .error e) : b.phase = .failed a.line e := by
  cases h with
  | parseError e' ht' =>
    cases ht.symm.trans ht'
    rfl
  | duplicate _ ht' | counterError _ _ ht' | done _ _ ht' => cases ht.symm.trans ht'

theorem Pass1Line.phase_of_not_labelIsNew {c : Config} {a b : AsmState} {text : List Char} {tok : Tokens}
    (h : Pass1Line c a text b) (ht : tokenize text = .ok tok) (hold : ¬ LabelIsNew a tok) :
    b.phase = .failed a.line .duplicateLabel := by
  cases h with
  | parseError _ ht' => cases ht.symm.trans ht'
  | duplicate => rfl
  | counterError _ _ ht' hnew | done _ _ ht' hnew =>
    cases ht.symm.trans ht'
    exact absurd hnew hold

/-- In pass 1 a parse error is the tokenizer's (R228). -/
theorem Pass1Line.tokenize_of_parseError {c : Config} {a b : AsmState} {text : List Char} {n : Nat}
    (h : Pass1Line c a text b) (ha : a.phase = .pass1) (hb : b.phase = .failed n e) (he : e.isParseError = true) :
    tokenize text = .error e := by
  cases h with
  | parseError e' ht =>
    cases hb
    exact ht
  | duplicate =>
    cases hb
    cases he
  | counterError _ _ _ _ hc =>
    cases hb
    rw [not_isParseError_of_pass1Counter hc] at he
    cases he
  | done => cases ha.symm.trans hb

/-- In pass 2 a line that tokenizes never ends with a parse error. -/
theorem not_isParseError_of_step_pass2 {c : Config} {a : AsmState} {tok : Tokens} {n : Nat} (hp : Processes a .pass2 tok)
    (h : (a.step c).phase = .failed n e) : e.isParseError = false := by
  have hphase : a.phase = .pass2 := hp.1
  rcases hm : tok.mnemonic with _ | name
  · rw [step_pass2_noMnemonic hp hm, hphase] at h
    cases h
  by_cases horg : name = orgName
  · subst horg
    rcases ho : applyOrg tok.argument with e' | lc
    · rw [step_pass2_orgError hp hm ho] at h
      cases h
      exact not_isParseError_of_applyOrg ho
    · rw [step_pass2_org hp hm ho, hphase] at h
      cases h
  rcases hform : acceptedForm c name with _ | f
  · rw [step_pass2_unknown hp hm horg hform] at h
    cases h
    rfl
  rcases hasm : assembleForm a.labels f tok.argument with e' | i
  · rw [step_pass2_formError hp hm horg hform hasm] at h
    cases h
    exact not_isParseError_of_assembleForm hasm
  · obtain ⟨-, text, hl, ht⟩ := hp
    rw [step_pass2_emits hphase hl ht hm horg hform hasm, hphase] at h
    cases h

end

end Sys2Proof.Machine

namespace Sys2Proof.Proofs

open Sys2Proof.Machine Sys2Proof.Claims

/-- Settles O45: the three ways an assembly ends are Done and Failed, which are terminal. -/
theorem everyAssemblyFinishes : Obligations.EveryAssemblyFinishes := by
  intro c source
  cases assemblyEnds c source with
  | inPass1 m kind _ _ _ hfail | inPass2 m kind _ _ _ _ hfail =>
    exact ⟨by simp [AsmState.result, hfail], steps_terminal c (by simp [hfail]) (by simp [hfail])⟩
  | done _ _ hend => exact hend ▸ ⟨nofun, steps_terminal c nofun nofun⟩

/-- Settles O53: outside both passes a step does nothing. -/
theorem doneAndFailedAreTerminal : Obligations.DoneAndFailedAreTerminal := by
  refine fun c a => ⟨fun h => step_terminal c (by simp [h]) (by simp [h]), fun n kind h => ⟨?_, ?_⟩⟩
  · exact step_terminal c (by simp [h]) (by simp [h])
  · rw [AsmState.result, h]

/-- Settles O50: a label is recorded only where the table does not hold its name. -/
theorem everyAssemblerStepKeepsLabelsUnique : Obligations.EveryAssemblerStepKeepsLabelsUnique :=
  fun c _ => step_keeps_labelsUnique c

/-- Settles O51: a line of pass 2 keeps the table, and pass 1 does not come again. -/
theorem passTwoOnlyReadsTheLabels : Obligations.PassTwoOnlyReadsTheLabels :=
  fun c a => ⟨step_lines c a, fun hp => (step_after_pass1 c hp).1⟩

/-- Settles O46: the lines of pass 2 emit their encodings one after another, under the labels pass 1 left. -/
theorem theImageIsItsInstructions : Obligations.TheImageIsItsInstructions := by
  intro c source bytes h
  cases assemblyEnds c source with
  | inPass1 _ _ _ _ _ hfail | inPass2 _ _ _ _ _ _ hfail =>
    rw [AsmState.result, hfail] at h
    cases h
  | done h1 h2 hend =>
    obtain ⟨is, hout, his⟩ := h2.out_eq h1 le_rfl
    rw [List.take_length, ← labels_pass2At h1 (splitLines source).length] at his
    rw [hend] at h ⊢
    cases h
    refine ⟨is, hout, his, ?length, ?canonical⟩
    case length => simp [hout, List.length_flatMap, his.length_eq, Nat.mul_comm]
    case canonical =>
      have hflip := (List.Forall₂.flip (R := flip _) his).imp fun i line h => And.intro (wellFormed_of_assemblesTo h) h
      exact ((List.forall₂_and_left _ _).1 hflip).1

/-- Settles O48: a line that pass 1 has done tokenizes, and no other check of the assembler gives a parse error. -/
theorem parseErrorsAreFoundInPassOne : Obligations.ParseErrorsAreFoundInPassOne := by
  refine ⟨fun c source j text e ht htok => ?found, fun c source n kind h hkind => ?first⟩
  case found =>
    have hj : j < (splitLines source).length := (List.getElem?_eq_some_iff.1 ht).1
    have hnot : ∀ n, j < n → ¬ Pass1Done c source n := fun n hn h1 => by
      obtain ⟨tok, htok'⟩ := h1.tokenizes hn ht
      cases htok.symm.trans htok'
    cases assemblyEnds c source with
    | inPass2 _ _ _ h1 | done h1 => exact absurd h1 (hnot _ hj)
    | inPass1 m kind hm h1 hend hfail =>
      have hmj : m ≤ j := Nat.not_lt.1 fun hlt => hnot m hlt h1
      refine ⟨m + 1, kind, by rw [AsmState.result, hfail], Nat.succ_le_succ hmj, fun heq => ?_, ?_⟩
      · obtain rfl : m = j := Nat.succ.inj heq
        have hphase := (h1.line ht).phase_of_parseError htok
        rw [← hend, hfail] at hphase
        exact (AsmPhase.failed.inj hphase).2
      · rw [hend]
        exact (h1.frame_next hm).1
  case first =>
    cases assemblyEnds c source with
    | inPass1 m kind' hm h1 hend hfail =>
      obtain ⟨rfl, rfl⟩ : m + 1 = n ∧ kind' = kind := by simpa [AsmState.result, hfail] using h
      have ht : (splitLines source)[m]? = some (splitLines source)[m] := List.getElem?_eq_getElem hm
      refine ⟨⟨_, ht, ?_⟩, fun k text hk htext => h1.tokenizes (Nat.succ_lt_succ_iff.1 hk) htext⟩
      exact (h1.line ht).tokenize_of_parseError (h1 m le_rfl).phase (hend ▸ hfail) hkind
    | inPass2 m kind' hm h1 h2 hend hfail =>
      obtain ⟨rfl, rfl⟩ : m + 1 = n ∧ kind' = kind := by simpa [AsmState.result, hfail] using h
      have ht : (splitLines source)[m]? = some (splitLines source)[m] := List.getElem?_eq_getElem hm
      obtain ⟨tok, htok⟩ := h1.tokenizes hm ht
      rw [hend, pass2At_succ] at hfail
      rw [not_isParseError_of_step_pass2 (h2.processes h1 ht htok) hfail] at hkind
      cases hkind
    | done _ _ hend =>
      rw [hend] at h
      cases h

/-- Settles O49: when pass 1 comes to the second line, the table holds the first line's label. -/
theorem duplicateLabelsAreRejected : Obligations.DuplicateLabelsAreRejected := by
  intro c source j k text₁ text₂ tok₁ tok₂ name hjk ht₁ ht₂ htok₁ htok₂ hname₁ hname₂
  have hk : k < (splitLines source).length := (List.getElem?_eq_some_iff.1 ht₂).1
  have hold : Pass1Done c source k → ¬ LabelIsNew (pass1At c source k) tok₂ := fun h1 hnew =>
    hnew name hname₂ _ (h1.mem_labels hjk hk.le ht₁ htok₁ hname₁)
  have hduplicate : Pass1Done c source k → (pass1At c source (k + 1)).phase = .failed (k + 1) .duplicateLabel := fun h1 =>
    (h1 k le_rfl).line ▸ (h1.line ht₂).phase_of_not_labelIsNew htok₂ (hold h1)
  have hnot : ∀ n, k < n → ¬ Pass1Done c source n := fun n hn h1 => by
    have hphase := hduplicate (h1.mono hn.le)
    rw [(h1 (k + 1) hn).phase] at hphase
    cases hphase
  cases assemblyEnds c source with
  | inPass2 _ _ _ h1 | done h1 => exact absurd h1 (hnot _ hk)
  | inPass1 m kind hm h1 hend hfail =>
    have hmk : m ≤ k := Nat.not_lt.1 fun hlt => hnot m hlt h1
    refine ⟨m + 1, kind, by rw [AsmState.result, hfail], Nat.succ_le_succ hmk, fun heq => ?_, hend ▸ h1.frame_next hm⟩
    obtain rfl : m = k := Nat.succ.inj heq
    have hphase := hduplicate h1
    rw [← hend, hfail] at hphase
    exact (AsmPhase.failed.inj hphase).2

/-- Settles O59: pass 1 records the label of each line at the counter there, and the names of the final table are unique. -/
theorem labelsHaveTheCounterOfTheirLine : Obligations.LabelsHaveTheCounterOfTheirLine := by
  refine ⟨fun c a tok name hp hnew hname n v => ?step, fun c source bytes j text tok name h ht htok hname v => ?image⟩
  case step =>
    have hlabels : (a.step c).labels = tok.entry a.lc ++ a.labels := by
      rcases hc : pass1Counter c a.lc tok with e | lc
      · rw [step_pass1_counterError hp hnew hc]
        rfl
      · rw [step_pass1_done hp hnew hc]
        rfl
    rw [hlabels, List.mem_append, mem_entry, hname, Option.some_inj, or_comm, eq_comm (a := name)]
  case image =>
    cases assemblyEnds c source with
    | inPass1 _ _ _ _ _ hfail | inPass2 _ _ _ _ _ _ hfail =>
      rw [AsmState.result, hfail] at h
      cases h
    | done h1 h2 hend =>
      have hj : j < (splitLines source).length := (List.getElem?_eq_some_iff.1 ht).1
      have hlabels : (assemble c source).labels = (pass1At c source (splitLines source).length).labels :=
        hend ▸ labels_pass2At h1 _
      have hmem : (name, (pass1At c source j).lc) ∈ (assemble c source).labels :=
        hlabels ▸ h1.mem_labels hj le_rfl ht htok hname
      have hiff : (name, v) ∈ (assemble c source).labels ↔ v = (pass1At c source j).lc := by
        refine ⟨fun hv => ?_, fun hv => hv ▸ hmem⟩
        have hu := labelsUnique_iff.1 (labelsUnique_assemble c source)
        exact Option.some.inj ((lookupLabel_of_mem hu hv).symm.trans (lookupLabel_of_mem hu hmem))
      refine ⟨hiff, fun horg => ?_⟩
      rw [hiff, (h1.mono hj.le).lc_of_hasNoOrg horg hj.le]

/-- Settles O52: every counter that pass 1 accepts is at most 2^32, by the overflow check or by the check of `org`. -/
theorem theCounterStaysInTheAddressSpace : Obligations.TheCounterStaysInTheAddressSpace := by
  refine ⟨fun c a hp hlc => ?bound, fun c a tok name hp hnew hm hadv => ⟨fun hover => ?overflow, fun hle => ?advance⟩⟩
  case bound =>
    rcases hl : a.lines[a.line - 1]? with _ | text
    · rw [step_endOfPass1 hp hl, beginPass2_lc]
      exact Nat.zero_le _
    · exact (step_pass1 hp hl).lc_le hlc
  case overflow => rw [step_pass1_counterError hp hnew (pass1Counter_overflow hm hadv hover), fail_phase, record_line]
  case advance => exact lineDone_of_pass1Counter hp hnew (pass1Counter_advance hm hadv hle)

/-- Settles O54: pass 1 runs `org` as `pass1Counter` says, pass 2 by `applyOrg` alone. -/
theorem orgFollowsItsRule : Obligations.OrgFollowsItsRule := by
  refine ⟨fun _ _ => applyOrg_eq_ok_iff, fun _ => applyOrg_badArgument, fun _ => applyOrg_badImmediate,
    fun item v hv hlt => ?outOfRange, fun item v hv hle hmod => ?misaligned,
    fun c a tok hm => ⟨fun hp hnew => ⟨fun hc => ⟨fun v hv => ?pass1, fun e he => ?pass1Error⟩, fun hc hle => ?literal⟩,
      fun hp => ⟨fun v hv => ?pass2, fun e he => ?pass2Error⟩⟩⟩
  case outOfRange => rw [applyOrg_one hv, if_pos hlt]
  case misaligned => rw [applyOrg_one hv, if_neg (Nat.not_lt.2 hle), if_pos hmod]
  case pass1 => exact lineDone_of_pass1Counter hp hnew ((pass1Counter_org hm hc).trans hv)
  case pass1Error => rw [step_pass1_counterError hp hnew ((pass1Counter_org hm hc).trans he), fail_phase, record_line]
  case literal => exact lineDone_of_pass1Counter hp hnew (pass1Counter_advance hm (.inr hc) hle)
  case pass2 =>
    rw [step_pass2_org hp hm hv]
    exact ⟨rfl, rfl, rfl, (List.append_nil _).symm⟩
  case pass2Error => rw [step_pass2_orgError hp hm he, fail_phase]

end Sys2Proof.Proofs

namespace Sys2Proof.Machine

open Sys2Proof.Claims

/-! ### Characters as numbers (R222) -/

theorem isDigitChar_iff {ch : Char} : isDigitChar ch = true ↔ 48 ≤ ch.toNat ∧ ch.toNat ≤ 57 := by
  rw [isDigitChar, Bool.and_eq_true, decide_eq_true_iff, decide_eq_true_iff]
  rfl

theorem isLetter_iff {ch : Char} :
    isLetter ch = true ↔ (65 ≤ ch.toNat ∧ ch.toNat ≤ 90) ∨ (97 ≤ ch.toNat ∧ ch.toNat ≤ 122) := by
  simp only [isLetter, Bool.or_eq_true, Bool.and_eq_true, decide_eq_true_iff]
  rfl

/-- The model's letters and digits are the library's. -/
theorem isAlphanum_iff {ch : Char} : ch.isAlphanum = true ↔ isLetter ch = true ∨ isDigitChar ch = true := by
  rw [isLetter_iff, isDigitChar_iff]
  simp only [Char.isAlphanum, Char.isAlpha, Char.isUpper, Char.isLower, Char.isDigit, Bool.or_eq_true, Bool.and_eq_true,
    decide_eq_true_iff]
  rfl

/-! ### Digits (R263, R264) -/

/-- No character after `f` is a digit, so each of the digit functions is a finite table. -/
theorem toNat_le_of_lowerHexDigit {ch : Char} {d : Nat} (h : lowerHexDigit ch = some d) : ch.toNat ≤ 102 := by
  unfold lowerHexDigit at h
  split_ifs at h with hdigit hletter
  · exact (isDigitChar_iff.1 hdigit).2.trans (by decide)
  · exact hletter.2

theorem toNat_le_of_hexDigit {ch : Char} {d : Nat} (h : hexDigit ch = some d) : ch.toNat ≤ 102 := by
  unfold hexDigit at h
  split_ifs at h with hletter
  · exact le_trans (show ch.toNat ≤ 70 from hletter.2) (by decide)
  · exact toNat_le_of_lowerHexDigit h

theorem toNat_le_of_decimalDigit {ch : Char} {d : Nat} (h : decimalDigit ch = some d) : ch.toNat ≤ 57 := by
  unfold decimalDigit at h
  split_ifs at h with hdigit
  exact (isDigitChar_iff.1 hdigit).2

theorem decimalDigit_eq_some_iff {ch : Char} {d : Nat} : decimalDigit ch = some d ↔ (ch, d) ∈ decimalDigits := by
  constructor
  · have htable : ∀ n ≤ 57, ∀ d ∈ decimalDigit (Char.ofNat n), (Char.ofNat n, d) ∈ decimalDigits := by decide
    intro h
    simpa [h] using htable ch.toNat (toNat_le_of_decimalDigit h)
  · have htable : ∀ p ∈ decimalDigits, decimalDigit p.1 = some p.2 := by decide
    exact htable (ch, d)

theorem hexDigit_eq_some_iff {ch : Char} {d : Nat} : hexDigit ch = some d ↔ (ch, d) ∈ hexadecimalDigits := by
  constructor
  · have htable : ∀ n ≤ 102, ∀ d ∈ hexDigit (Char.ofNat n), (Char.ofNat n, d) ∈ hexadecimalDigits := by decide
    intro h
    simpa [h] using htable ch.toNat (toNat_le_of_hexDigit h)
  · have htable : ∀ p ∈ hexadecimalDigits, hexDigit p.1 = some p.2 := by decide
    exact htable (ch, d)

/-- The one digit of a register's name (R20). -/
theorem eq_hexChar_of_lowerHexDigit {ch : Char} {d : Nat} (h : lowerHexDigit ch = some d) : d < 16 ∧ ch = hexChar d := by
  have htable : ∀ n ≤ 102, ∀ d ∈ lowerHexDigit (Char.ofNat n), d < 16 ∧ Char.ofNat n = hexChar d := by decide
  simpa [h] using htable ch.toNat (toNat_le_of_lowerHexDigit h)

/-! ### Register and immediate items (R263, R264) -/

theorem parseRegister_eq_some_iff {item : List Char} {r : Reg} : parseRegister item = some r ↔ item = regName r := by
  refine ⟨fun h => ?_, fun h => h ▸ parseRegister_regName r⟩
  unfold parseRegister at h
  split at h
  case h_2 => cases h
  case h_1 x d =>
    split_ifs at h with hr
    rcases hd : lowerHexDigit d with _ | n
    · rw [hd] at h
      cases h
    · rw [hd] at h
      obtain ⟨hn, rfl⟩ := eq_hexChar_of_lowerHexDigit hd
      obtain rfl := Option.some.inj h
      rw [hr, regName, Fin.val_ofNat, Nat.mod_eq_of_lt hn]

/-- The value of a row of digits, each read by the table `digits`. -/
theorem digitsValue_eq_some_iff {base : Nat} {digit : Char → Option Nat} {digits : List (Char × Nat)}
    (hdigit : ∀ {ch d}, digit ch = some d ↔ (ch, d) ∈ digits) {text : List Char} {acc v : Nat} :
    digitsValue base digit acc text = some v ↔ ∃ ds : List (Char × Nat), (∀ d ∈ ds, d ∈ digits) ∧ text = ds.map Prod.fst
      ∧ v = ds.foldl (fun acc d => base * acc + d.2) acc := by
  induction text generalizing acc with
  | nil =>
    constructor
    · intro h
      exact ⟨[], nofun, rfl, (Option.some.inj h).symm⟩
    · rintro ⟨ds, -, htext, rfl⟩
      rw [List.map_eq_nil_iff.1 htext.symm]
      rfl
  | cons ch cs ih =>
    constructor
    · intro h
      rcases hd : digit ch with _ | d
      · simp [digitsValue, hd] at h
      · simp only [digitsValue, hd] at h
        obtain ⟨ds, hds, rfl, rfl⟩ := ih.1 h
        refine ⟨(ch, d) :: ds, List.forall_mem_cons.2 ⟨hdigit.1 hd, hds⟩, rfl, ?_⟩
        rw [List.foldl_cons, Nat.mul_comm]
    · rintro ⟨ds, hds, htext, rfl⟩
      obtain ⟨⟨ch', d⟩, ds, rfl, rfl, rfl⟩ := List.map_eq_cons_iff.1 htext.symm
      obtain ⟨hd, hds⟩ := List.forall_mem_cons.1 hds
      simp only [digitsValue, hdigit.2 hd]
      exact ih.2 ⟨ds, hds, rfl, by rw [List.foldl_cons, Nat.mul_comm]⟩

/-- A row of one or more digits is a numeral, with that value. -/
theorem isNumeral_iff_digitsValue {base : Nat} {digit : Char → Option Nat} {digits : List (Char × Nat)}
    (hdigit : ∀ {ch d}, digit ch = some d ↔ (ch, d) ∈ digits) {text : List Char} {v : Nat} :
    IsNumeral base digits text v ↔ text ≠ [] ∧ digitsValue base digit 0 text = some v := by
  rw [digitsValue_eq_some_iff hdigit]
  constructor
  · rintro ⟨ds, hne, hds, rfl, hv⟩
    exact ⟨by simpa using hne, ds, hds, rfl, hv⟩
  · rintro ⟨hne, ds, hds, rfl, hv⟩
    exact ⟨ds, by simpa using hne, hds, rfl, hv⟩

theorem parseImmediate_dollar (text : List Char) (v : Nat) :
    parseImmediate ('$' :: text) = some v ↔ IsNumeral 16 hexadecimalDigits text v := by
  rw [isNumeral_iff_digitsValue hexDigit_eq_some_iff, parseImmediate, if_pos rfl]
  by_cases h : text = [] <;> simp [h]

theorem parseImmediate_decimal {item : List Char} (h : ∀ text, item ≠ '$' :: text) (v : Nat) :
    parseImmediate item = some v ↔ IsNumeral 10 decimalDigits item v := by
  rw [isNumeral_iff_digitsValue decimalDigit_eq_some_iff]
  cases item with
  | nil => simp [parseImmediate]
  | cons ch cs =>
    have hch : ch ≠ '$' := fun e => h cs (e ▸ rfl)
    simp [parseImmediate, hch]

/-- `$` is no decimal digit. -/
theorem not_isNumeral_dollar (text : List Char) (v : Nat) : ¬ IsNumeral 10 decimalDigits ('$' :: text) v := by
  rw [isNumeral_iff_digitsValue decimalDigit_eq_some_iff]
  rintro ⟨-, h⟩
  cases h

/-! ### Label items (R224, R265) -/

theorem isLabelChar_iff {ch : Char} : isLabelChar ch = true ↔ ch.isAlphanum = true ∨ ch = '_' ∨ ch = '.' := by
  simp [isLabelChar, isAlphanum_iff, or_assoc]

theorem isLabelName_of_isLabelItem {item : List Char} (h : IsLabelItem item) : isLabelName item = true := by
  obtain ⟨cs, rfl, hne, hcs⟩ := h
  simpa [isLabelName, hne, isLabelChar_iff] using hcs

theorem parseRegister_of_isLabelItem {item : List Char} (h : IsLabelItem item) : parseRegister item = none := by
  obtain ⟨cs, rfl, -, -⟩ := h
  rw [Option.eq_none_iff_forall_ne_some]
  intro r hr
  cases parseRegister_eq_some_iff.1 hr

theorem parseImmediate_of_isLabelItem {item : List Char} (h : IsLabelItem item) : parseImmediate item = none := by
  obtain ⟨cs, rfl, -, -⟩ := h
  rfl

section
variable {c : Config} {labels : List (List Char × Nat)} {item : List Char} {v : Nat}

theorem parseValue_undefined (h : IsLabelItem item) (hnone : ∀ v, (item, v) ∉ labels) :
    parseValue labels item = .error .undefinedLabel := by
  simp [parseValue, isLabelName_of_isLabelItem h, lookupLabel_eq_none_iff.2 hnone]

theorem parseValue_label (h : IsLabelItem item) (hu : (labels.map Prod.fst).Nodup) (hv : (item, v) ∈ labels) :
    parseValue labels item = if v ≤ 0xFFFF then .ok (BitVec.ofNat 16 v) else .error .immediateOutOfRange := by
  simp [parseValue, isLabelName_of_isLabelItem h, lookupLabel_of_mem hu hv]

theorem assembleForm_regImm (mk : Reg → Half → Instr) (X : Reg) (item : List Char) :
    assembleForm labels (.regImm mk) (some (.two (regName X) item)) = (parseValue labels item).map (mk X) := by
  rw [assembleForm, parseRegister_regName]
  rcases parseValue labels item with e | w <;> rfl

/-- The mnemonics of R265 are accepted, and none is `org`. -/
theorem acceptedForm_of_takesAValue {name : List Char} {mk : Reg → Half → Instr} (h : TakesAValue c name mk) :
    acceptedForm c name = some (.regImm mk) ∧ name ≠ orgName := by
  obtain ⟨rfl, rfl⟩ | ⟨rfl, rfl⟩ | ⟨rfl, hfull, rfl⟩ := h
  · exact ⟨rfl, by decide⟩
  · exact ⟨rfl, by decide⟩
  · refine ⟨?_, by decide⟩
    have hdefault : lookupForm defaultMnemonics "ori".toList = none := rfl
    rw [acceptedForm, hdefault, if_pos hfull]
    rfl

end

/-! ### The two mnemonic tables (R260) -/

theorem lookupForm_eq_none_iff {table : List (List Char × AsmForm)} {name : List Char} :
    lookupForm table name = none ↔ name ∉ table.map Prod.fst := by
  induction table with
  | nil => simp [lookupForm]
  | cons p table ih =>
    obtain ⟨n, f⟩ := p
    by_cases hn : n = name <;> simp [lookupForm, hn, ih, eq_comm (a := name)]

theorem isSome_lookupForm_iff {table : List (List Char × AsmForm)} {name : List Char} :
    (lookupForm table name).isSome = true ↔ name ∈ table.map Prod.fst := by
  rw [Option.isSome_iff_ne_none, Ne, lookupForm_eq_none_iff, not_not]

theorem acceptedForm_default (name : List Char) : acceptedForm hw name = lookupForm defaultMnemonics name := by
  unfold acceptedForm
  cases lookupForm defaultMnemonics name <;> rfl

/-- With `ASM_FULL_SET` a name outside the default table is looked up in the second. -/
theorem acceptedForm_full {name : List Char} (h : lookupForm defaultMnemonics name = none) :
    acceptedForm { hw with asmFullSet := true } name = lookupForm extraMnemonics name := by
  rw [acceptedForm, h]
  rfl

theorem accepted_iff {name : List Char} : Accepted name ↔ name ∈ defaultMnemonics.map Prod.fst := by
  rw [Accepted, acceptedForm_default, isSome_lookupForm_iff]

theorem acceptedOnlyInFullSet_iff {name : List Char} :
    AcceptedOnlyInFullSet name ↔ name ∈ extraMnemonics.map Prod.fst := by
  rw [AcceptedOnlyInFullSet, acceptedForm_default, Option.isNone_iff_eq_none]
  constructor
  · rintro ⟨hnone, hsome⟩
    rwa [acceptedForm_full hnone, isSome_lookupForm_iff] at hsome
  · intro h
    have hdisjoint : ∀ n ∈ extraMnemonics.map Prod.fst, n ∉ defaultMnemonics.map Prod.fst := by decide
    have hnone : lookupForm defaultMnemonics name = none := lookupForm_eq_none_iff.2 (hdisjoint name h)
    exact ⟨hnone, by rwa [acceptedForm_full hnone, isSome_lookupForm_iff]⟩

/-- With `ASM_FULL_SET` the forms are those of the default set and, for a name outside it, those of the second table. -/
theorem acceptedForm_full_cases {name : List Char} {f : AsmForm}
    (h : acceptedForm { hw with asmFullSet := true } name = some f) :
    (acceptedForm hw name = some f ∧ (name, f) ∈ defaultMnemonics)
      ∨ (acceptedForm hw name = none ∧ (name, f) ∈ extraMnemonics) := by
  rw [acceptedForm_default]
  rcases hd : lookupForm defaultMnemonics name with _ | g
  · rw [acceptedForm_full hd] at h
    exact .inr ⟨rfl, mem_of_lookupForm h⟩
  · rw [acceptedForm, hd] at h
    obtain rfl := Option.some.inj h
    exact .inl ⟨rfl, mem_of_lookupForm hd⟩

/-- A source of one line without a label whose mnemonic is not accepted: pass 1 lets it pass, pass 2 does not (R245). -/
theorem result_of_unknownMnemonic {c : Config} {text name : List Char} {arg : Option Argument}
    (hline : splitLines text = [text]) (htok : tokenize text = .ok { label := none, mnemonic := some name, argument := arg })
    (horg : name ≠ orgName) (hform : acceptedForm c name = none) :
    (assemble c text).result = some (.error 1 .unknownMnemonic) := by
  have hpass1 : (AsmState.start text).step c = { AsmState.start text with lc := 4, line := 2 } :=
    step_pass1_unlabelled rfl (by rw [AsmState.start, hline]; rfl) htok horg (Nat.le_of_ble_eq_true rfl)
  have hend1 : AsmState.step c { AsmState.start text with lc := 4, line := 2 } = (AsmState.start text).beginPass2 :=
    step_endOfPass1 rfl (by simp [AsmState.start, hline])
  have hprocesses : Processes (AsmState.start text).beginPass2 .pass2 { label := none, mnemonic := some name, argument := arg } :=
    ⟨rfl, text, by simp [AsmState.start, hline], htok⟩
  have hpass2 : AsmState.steps c 3 (AsmState.start text) = (AsmState.start text).beginPass2.fail .unknownMnemonic := by
    simp only [AsmState.steps, hpass1, hend1, step_pass2_unknown hprocesses rfl horg hform]
  have hend := assemble_eq_of_terminal (by simp [hline]) hpass2 nofun nofun
  rw [hend]
  rfl

end Sys2Proof.Machine

namespace Sys2Proof.Proofs

open Sys2Proof.Machine Sys2Proof.Claims

/-- Settles O56: the characters `lowerHexDigit` takes are those a register's name is written with. -/
theorem registerItemsAreTheRegisterNames : Obligations.RegisterItemsAreTheRegisterNames :=
  fun _ _ => parseRegister_eq_some_iff

/-- Settles O55: an item that begins with `$` is read in base 16, any other in base 10. -/
theorem immediateItemsHaveTheirValue : Obligations.ImmediateItemsHaveTheirValue := by
  intro item v
  by_cases h : ∃ text, item = '$' :: text
  · obtain ⟨text, rfl⟩ := h
    simp [parseImmediate_dollar, not_isNumeral_dollar]
  · have hnot : ∀ text, item ≠ '$' :: text := not_exists.1 h
    simp [parseImmediate_decimal hnot, hnot]

/-- Settles O60: a label item is looked up, and each answer of the look-up is one case of the line in pass 2. -/
theorem labelReferencesGiveTheLabelsValue : Obligations.LabelReferencesGiveTheLabelsValue := by
  refine ⟨fun c a tok name mk X item hp hm hmk harg hitem => ⟨fun hnone => ?undefined, fun v hu hv => ?defined⟩,
    fun item h => ⟨parseRegister_of_isLabelItem h, parseImmediate_of_isLabelItem h⟩⟩
  all_goals obtain ⟨hform, horg⟩ := acceptedForm_of_takesAValue hmk
  case undefined =>
    have hasm : assembleForm a.labels (.regImm mk) tok.argument = .error .undefinedLabel := by
      rw [harg, assembleForm_regImm, parseValue_undefined hitem hnone]
      rfl
    rw [step_pass2_formError hp hm horg hform hasm, fail_phase]
  case defined =>
    have hasm := assembleForm_regImm (labels := a.labels) mk X item
    rw [parseValue_label hitem (labelsUnique_iff.1 hu) hv, ← harg] at hasm
    refine ⟨fun hlt => ?_, fun hle => ?_⟩
    · rw [if_neg (Nat.not_le.2 hlt)] at hasm
      rw [step_pass2_formError hp hm horg hform hasm, fail_phase]
    · rw [if_pos hle] at hasm
      obtain ⟨hphase, text, hl, ht⟩ := hp
      rw [step_pass2_emits hphase hl ht hm horg hform hasm]
      exact ⟨rfl, rfl, rfl, rfl⟩

/-- Settles O58: a spelling's form makes its instruction, so it stands in the table of the set the instruction is in. -/
theorem theDefaultAssemblerAcceptsItsTable : Obligations.TheDefaultAssemblerAcceptsItsTable := by
  refine ⟨fun name => accepted_iff, fun name => acceptedOnlyInFullSet_iff, fun i hi => ?_⟩
  obtain ⟨hline, name, f, arg, htok, hform, hasm⟩ := isLineOf_spelling hi
  obtain ⟨-, horg⟩ := mnemonics_of_table _ (mem_of_acceptedForm hform)
  obtain ⟨haccepted, hmem⟩ | ⟨hrefused, hmem⟩ := acceptedForm_full_cases hform
  · rw [((defaultMnemonics_make _ hmem).of_assembleForm (hasm [])).2, if_pos rfl]
    exact IsLineOf.result ⟨hline, name, f, arg, htok, haccepted, hasm⟩
  · rw [((extraMnemonics_make _ hmem).of_assembleForm (hasm [])).2]
    exact result_of_unknownMnemonic hline htok horg hrefused

end Sys2Proof.Proofs

namespace Sys2Proof.Machine

open Sys2Proof.Claims

/-! ### When an instruction halts (R201, R300 to R302) -/

theorem loadInto_outOfBounds {c : Config} {s : State} {rT rF : Reg} {n : Nat} (h : c.memSize < (s.reg rF).toNat + n) :
    s.loadInto c rT rF n = s.raise (.outOfBoundsAccess s.pc0 (s.reg rF) n .read) := by
  rw [State.loadInto, effectiveAddress_eq_reg, memRead_none h]

theorem storeFrom_outOfBounds {c : Config} {s : State} {rT rF : Reg} {n : Nat} (h : c.memSize < (s.reg rT).toNat + n) :
    s.storeFrom c rT rF n = s.raise (.outOfBoundsAccess s.pc0 (s.reg rT) n .write) := by
  rw [State.storeFrom, effectiveAddress_eq_reg, memWrite_none h]

theorem exec_halt {i : Instr} (hi : i.opClass = .halt) (s : State) : exec i s = .next (s.raise .halt) := by
  cases i with
  | halt => rfl
  | _ => cases hi

theorem exec_badAccess {i : Instr} {s : State} {r : HaltReason} (h : badAccess i s = some r) :
    exec i s = .next (s.raise r) := by
  cases i with
  | ldm | ldb =>
    obtain ⟨hb, ⟨⟩⟩ := Option.ite_none_right_eq_some.1 h
    exact congrArg Host.Outcome.next (loadInto_outOfBounds hb)
  | stm | stb =>
    obtain ⟨hb, ⟨⟩⟩ := Option.ite_none_right_eq_some.1 h
    exact congrArg Host.Outcome.next (storeFrom_outOfBounds hb)
  | _ => cases h

/-- What a bad data access records: `pc0`, an address that is out of bounds for its size, and no fetch (R301). -/
theorem badAccess_eq_some {i : Instr} {s : State} {r : HaltReason} (h : badAccess i s = some r) :
    ∃ addr size kind, r = .outOfBoundsAccess s.pc0 addr size kind ∧ kind ≠ .fetch ∧ (size = 1 ∨ size = 4)
      ∧ 0x100000 < addr.toNat + size := by
  cases i with
  | ldm | stm =>
    obtain ⟨hb, ⟨⟩⟩ := Option.ite_none_right_eq_some.1 h
    exact ⟨_, _, _, rfl, nofun, .inr rfl, hb⟩
  | ldb | stb =>
    obtain ⟨hb, ⟨⟩⟩ := Option.ite_none_right_eq_some.1 h
    exact ⟨_, _, _, rfl, nofun, .inl rfl, hb⟩
  | _ => cases h

/-- An instruction keeps the run state, or it is `halt` or a bad data access, which write nothing else. -/
theorem Effect.run_cases {i : Instr} {s t : State} (h : Effect i s t) :
    t.run = s.run ∨ ∃ r, t = s.raise r ∧ ((i.opClass = .halt ∧ r = .halt) ∨ badAccess i s = some r) := by
  cases h with
  | outOfBounds r hr => exact .inr ⟨r, rfl, .inr hr⟩
  | halt hi => exact .inr ⟨.halt, rfl, .inl ⟨hi, rfl⟩⟩
  | jump => rw [jumpIf_eq]; exact .inl rfl
  | result | compare | register | store | nothing => exact .inl rfl

/-! ### What a halt leaves behind (R301, R303, R304) -/

/-- The ways a step halts: by a check of the fetch, by its instruction, or on an unknown encoding. The state differs from
the one before in pc and the run state alone. -/
inductive Halts (s : State) : HaltReason → State → Prop
  | fetchOutOfBounds (hb : 0x100000 ≤ s.pc.toNat) :
    Halts s (.outOfBoundsAccess s.pc s.pc 1 .fetch) (s.raise (.outOfBoundsAccess s.pc s.pc 1 .fetch))
  | misaligned (hb : s.pc.toNat < 0x100000) (ha : s.pc.toNat % 4 ≠ 0) :
    Halts s (.alignmentFault s.pc) ((s.setPc (s.pc + 1)).raise (.alignmentFault s.pc))
  | halt (hb : s.pc.toNat + 4 ≤ 0x100000) (ha : s.pc.toNat % 4 = 0) :
    Halts s .halt ((s.setPc (s.pc + 4)).raise .halt)
  | dataAccess (hb : s.pc.toNat + 4 ≤ 0x100000) (ha : s.pc.toNat % 4 = 0) (addr : Word) (size : Nat) (kind : AccessKind)
    (hkind : kind ≠ .fetch) (hsize : size = 1 ∨ size = 4) (haddr : 0x100000 < addr.toNat + size) :
    Halts s (.outOfBoundsAccess s.pc addr size kind) ((s.setPc (s.pc + 4)).raise (.outOfBoundsAccess s.pc addr size kind))
  | unknown (hb : s.pc.toNat + 4 ≤ 0x100000) (ha : s.pc.toNat % 4 = 0) (opc : Byte) (op16 : Half)
    (hu : UnknownEncoding opc.toNat op16.toNat) :
    Halts s (.unimplementedOpcode s.pc opc op16) ((s.setPc (s.pc + 4)).raise (.unimplementedOpcode s.pc opc op16))

/-- A step in Running stays in Running, or halts in one of these ways. -/
theorem step_halts {s t : State} (hs : s.run = .running) (h : step s = .next t) : t.run = .running ∨ ∃ r, Halts s r t := by
  obtain ⟨r, hr, -⟩ | ⟨-, hb, rfl⟩ | ⟨-, hb, ha, rfl⟩ | ⟨-, hb, ha, i, hexec⟩ | ⟨-, hb, ha, opc, op16, sel, e, he, rfl⟩ :=
    step_cases h
  · cases hs.symm.trans hr
  · exact .inr ⟨_, .fetchOutOfBounds hb⟩
  · exact .inr ⟨_, .misaligned hb ha⟩
  · obtain hrun | ⟨r, rfl, ⟨-, rfl⟩ | hr⟩ := (effect_of_exec hexec).run_cases
    · exact .inl (hrun.trans hs)
    · exact .inr ⟨_, .halt hb ha⟩
    · obtain ⟨addr, size, kind, rfl, hkind, hsize, haddr⟩ := badAccess_eq_some hr
      rw [pc0_setPc_add_four]
      exact .inr ⟨_, .dataAccess hb ha addr size kind hkind hsize haddr⟩
  · exact .inr ⟨_, .unknown hb ha opc op16 ((decodeFields_error_iff opc op16 sel).1 ⟨e, he⟩)⟩

theorem Halts.eq_withPcAndRun {s t : State} {r : HaltReason} (h : Halts s r t) :
    t = { s with pc := t.pc, run := .halted r } := by
  cases h with
  | fetchOutOfBounds | misaligned | halt | dataAccess | unknown => rfl

theorem afterFetch_add_four {pc : Word} (hb : pc.toNat + 4 ≤ 0x100000) (ha : pc.toNat % 4 = 0) :
    afterFetch pc (pc + 4) = true := by
  simp [afterFetch, Config.system3201, ha, hb]

theorem haltRecordOk_of_running {s : State} (h : s.run = .running) : s.haltRecordOk = true := by
  rw [State.haltRecordOk, h]

theorem haltRecordOk_raise_halt (s : State) : (s.raise .halt).haltRecordOk = afterFetch s.pc0 s.pc := rfl

theorem haltRecordOk_raise_alignmentFault (s : State) (pc0 : Word) :
    (s.raise (.alignmentFault pc0)).haltRecordOk
      = (pc0.toNat % 4 != 0 && decide (pc0.toNat < 0x100000) && s.pc == pc0 + 1) := rfl

theorem haltRecordOk_raise_fetch (s : State) (pc0 addr : Word) (size : Nat) :
    (s.raise (.outOfBoundsAccess pc0 addr size .fetch)).haltRecordOk
      = (addr == pc0 && size == 1 && decide (0x100000 ≤ pc0.toNat) && s.pc == pc0) := rfl

theorem haltRecordOk_raise_dataAccess {kind : AccessKind} (hkind : kind ≠ .fetch) (s : State) (pc0 addr : Word) (size : Nat) :
    (s.raise (.outOfBoundsAccess pc0 addr size kind)).haltRecordOk
      = (decide (size = 1 ∨ size = 4) && decide (0x100000 < addr.toNat + size) && afterFetch pc0 s.pc) := by
  rw [Bool.decide_or]
  cases kind with
  | fetch => exact absurd rfl hkind
  | read | write => rfl

theorem haltRecordOk_raise_unimplementedOpcode {s : State} {pc0 : Word} {opc : Byte} {op16 : Half}
    (hu : UnknownEncoding opc.toNat op16.toNat) (hpc : afterFetch pc0 s.pc = true) :
    (s.raise (.unimplementedOpcode pc0 opc op16)).haltRecordOk = true := by
  obtain ⟨e, he⟩ := (decodeFields_error_iff opc op16 0).2 hu
  simp only [State.haltRecordOk, raise_run, raise_pc, he, hpc, Bool.and_self]

/-- Each way to halt is a row of the table of R303. -/
theorem Halts.haltRecordOk {s t : State} {r : HaltReason} (h : Halts s r t) : t.haltRecordOk = true := by
  cases h with
  | fetchOutOfBounds hb => simp [haltRecordOk_raise_fetch, hb]
  | misaligned hb ha => simp [haltRecordOk_raise_alignmentFault, hb, ha]
  | halt hb ha =>
    rw [haltRecordOk_raise_halt, pc0_setPc_add_four]
    exact afterFetch_add_four hb ha
  | dataAccess hb ha addr size kind hkind hsize haddr =>
    rw [haltRecordOk_raise_dataAccess hkind]
    simp only [setPc_pc, afterFetch_add_four hb ha, hsize, haddr, decide_true, Bool.and_self]
  | unknown hb ha opc op16 hu =>
    exact haltRecordOk_raise_unimplementedOpcode hu (afterFetch_add_four hb ha)

/-! ### Every step has a next state (R80, R302) -/

theorem step_isNext (s : State) : ∃ t, step s = .next t := by
  rcases hr : s.run with _ | r
  · rcases hf : fetch hw s with t | ⟨opc, op16, sel, s'⟩
    · exact ⟨t, stepWith_stopped hr hf⟩
    · rcases hd : decodeFields hw opc op16 sel with e | i
      · have hstep : step s = unknownEncoding hw opc op16 s' := by simp only [step, stepWith, hr, hf, hd]
        exact ⟨_, hstep⟩
      · obtain ⟨t, ht, -⟩ := exec_effect i s'
        have hstep : step s = exec i s' := by simp only [step, stepWith, hr, hf, hd]
        exact ⟨t, hstep.trans ht⟩
  · exact ⟨s, stepWith_halted hr⟩

end Sys2Proof.Machine

namespace Sys2Proof.Proofs

open Sys2Proof.Machine Sys2Proof.Claims

/-- Settles O14: each way to halt is a row of the table of R303. -/
theorem everyStepKeepsTheHaltRecordConsistent : Obligations.EveryStepKeepsTheHaltRecordConsistent := by
  intro s t hs h
  rcases hr : s.run with _ | r
  · obtain hrun | ⟨r, hhalts⟩ := step_halts hr h
    · exact haltRecordOk_of_running hrun
    · exact hhalts.haltRecordOk
  · obtain rfl : s = t := Host.Outcome.next.inj ((stepWith_halted hr).symm.trans h)
    exact hs

/-- Settles O12: no way to halt writes more than pc and the run state, and a step in Halted changes nothing. -/
theorem faultsArePrecise : Obligations.FaultsArePrecise := by
  intro s t r hs h ht
  refine ⟨?_, stepWith_halted ht⟩
  obtain hrun | ⟨r', hhalts⟩ := step_halts hs h
  · cases ht.symm.trans hrun
  · have heq := hhalts.eq_withPcAndRun
    obtain rfl : r' = r := by
      rw [heq] at ht
      exact RunState.halted.inj ht
    exact heq

/-- Settles O11: a failed check of the fetch, an unknown encoding and every instruction give a next state. -/
theorem everyStepAnswersANextState : Obligations.EveryStepAnswersANextState := step_isNext

/-- Settles O20: `halt` and a bad access halt, and only they do. -/
theorem onlyHaltAndBadAccessesStopTheEngine : Obligations.OnlyHaltAndBadAccessesStopTheEngine := by
  intro i s t h
  by_cases hi : i.opClass = .halt
  · obtain rfl := Host.Outcome.next.inj ((exec_halt hi s).symm.trans h)
    rw [if_pos hi, raise_run]
  rw [if_neg hi]
  rcases hb : badAccess i s with _ | r
  · obtain hrun | ⟨r, -, ⟨hhalt, -⟩ | hr⟩ := (effect_of_exec h).run_cases
    · exact hrun
    · exact absurd hhalt hi
    · cases hb.symm.trans hr
  · obtain rfl := Host.Outcome.next.inj ((exec_badAccess hb).symm.trans h)
    exact raise_run s r

end Sys2Proof.Proofs

namespace Sys2Proof

open Sys2Proof.Claims

/-! ### The decoder and the opcode table (R82, R94) -/

theorem toNat_wordByte (w : Word) (k : Nat) : (wordByte w k).toNat = w.toNat / 256 ^ k % 2 ^ 8 :=
  BitVec.toNat_ofNat ..

/-- The operand field of a word, its bytes 1 and 2 (R82). -/
theorem toNat_halfOfBytes_wordByte (w : Word) :
    (halfOfBytes (wordByte w 1) (wordByte w 2)).toNat = w.toNat / 2 ^ 8 % 2 ^ 16 := by
  rw [toNat_halfOfBytes, toNat_wordByte, toNat_wordByte]
  omega

theorem toField_wordByte (w : Word) : (toField (wordByte w 3)).val = w.toNat / 2 ^ 28 := by
  have := w.isLt
  have hbyte := toNat_wordByte w 3
  simp only [toField]
  omega

theorem fromField_wordByte (w : Word) : (fromField (wordByte w 3)).val = w.toNat / 2 ^ 24 % 2 ^ 4 := by
  have hbyte := toNat_wordByte w 3
  simp only [fromField]
  omega

/-- The three fetched items decode to an instruction exactly if they are its opcode byte, operand field and registers. -/
theorem decodeFields_eq_ok_iff {opc sel : Byte} {op16 : Half} {i : Instr} :
    decodeFields hw opc op16 sel = .ok i ↔
      hw.opcode i.opClass = opc ∧ i.op16Field hw = op16 ∧ i.regFields = (toField sel, fromField sel) := by
  refine ⟨fields_of_decodeFields, ?_⟩
  rintro ⟨rfl, rfl, hregs⟩
  have hdecode := decodeFields_encode (c := hw) (by decide) (by decide) i
  rwa [hregs, selByte_fields] at hdecode

/-- The same, with the fields as numbers of the word. -/
theorem decodeWord_eq_ok_iff {w : Word} {i : Instr} :
    decodeWord hw w = .ok i ↔ w.toNat % 2 ^ 8 = (hw.opcode i.opClass).toNat
      ∧ (i.op16Field hw).toNat = w.toNat / 2 ^ 8 % 2 ^ 16
      ∧ i.regFields.1.val = w.toNat / 2 ^ 28 ∧ i.regFields.2.val = w.toNat / 2 ^ 24 % 2 ^ 4 := by
  rw [decodeWord, decodeFields_eq_ok_iff, Prod.ext_iff, Fin.ext_iff, Fin.ext_iff, toField_wordByte, fromField_wordByte,
    BitVec.toNat_eq, BitVec.toNat_eq, toNat_halfOfBytes_wordByte, toNat_wordByte, pow_zero, Nat.div_one,
    eq_comm (a := w.toNat % 2 ^ 8)]

/-- A word selects an instruction's row: it has the row's opcode byte and, if the row has a sub-op, that sub-op (R94). -/
def Selects (w : Word) (i : Instr) : Prop :=
  w.toNat % 2 ^ 8 = (hw.opcode i.opClass).toNat
    ∧ (i.tableMask = 0x00FFFFFF → (i.op16Field hw).toNat = w.toNat / 2 ^ 8 % 2 ^ 16)

section
variable {w : Word} {i k : Instr}

theorem selects_iff_of_subop (hmask : i.tableMask = 0x00FFFFFF)
    (hmatch : i.tableMatch.toNat = (hw.opcode i.opClass).toNat + 2 ^ 8 * (i.op16Field hw).toNat) :
    w &&& i.tableMask = i.tableMatch ↔ Selects w i := by
  have := (hw.opcode i.opClass).isLt
  have := (i.op16Field hw).isLt
  rw [Selects, forall_prop_of_true hmask, hmask, and_mask_three, hmatch]
  omega

theorem selects_iff_of_opcode (hmask : i.tableMask = 0x000000FF)
    (hmatch : i.tableMatch.toNat = (hw.opcode i.opClass).toNat) :
    w &&& i.tableMask = i.tableMatch ↔ Selects w i := by
  have hopen : i.tableMask ≠ 0x00FFFFFF := by rw [hmask]; decide
  rw [Selects, forall_prop_of_false hopen, and_true, hmask, and_mask_one, hmatch]

theorem and_tableMask_eq_tableMatch_iff : w &&& i.tableMask = i.tableMatch ↔ Selects w i := by
  cases i with
  | ldu | ldl | ori | nop | call | ret | halt => exact selects_iff_of_opcode rfl rfl
  | _ => exact selects_iff_of_subop rfl rfl

theorem tableMask_congr (h : i.opClass = k.opClass) : i.tableMask = k.tableMask := by
  rw [Instr.tableMask, Instr.tableMask, h]

theorem Selects.opClass_eq (hi : Selects w i) (hk : Selects w k) : i.opClass = k.opClass := by
  have hopc : hw.opcode i.opClass = hw.opcode k.opClass := BitVec.eq_of_toNat_eq (hi.1.symm.trans hk.1)
  have hclass := classOf_opcode (c := hw) (by decide) i.opClass
  rw [hopc, classOf_opcode (by decide)] at hclass
  exact (Option.some.inj hclass).symm

/-- The rows without a sub-op leave the operand field open. -/
theorem not_unknownEncoding_of_tableMask_ne (h : i.tableMask ≠ 0x00FFFFFF) (op16 : Nat) :
    ¬ UnknownEncoding (hw.opcode i.opClass).toNat op16 := by
  cases i with
  | ldu | ldl | ori | nop | call | ret | halt => simp [UnknownEncoding, Instr.opClass, Config.system3201, opcodeMap]
  | _ => exact absurd rfl h

theorem decodeWord_error_iff :
    (∃ e, decodeWord hw w = .error e) ↔ UnknownEncoding (w.toNat % 2 ^ 8) (w.toNat / 2 ^ 8 % 2 ^ 16) := by
  rw [decodeWord, decodeFields_error_iff, toNat_halfOfBytes_wordByte, toNat_wordByte, pow_zero, Nat.div_one]

theorem Selects.not_unknownEncoding (h : Selects w i) :
    ¬ UnknownEncoding (w.toNat % 2 ^ 8) (w.toNat / 2 ^ 8 % 2 ^ 16) := by
  obtain ⟨hopc, hop16⟩ := h
  rw [hopc]
  by_cases hmask : i.tableMask = 0x00FFFFFF
  · rw [← hop16 hmask, ← decodeFields_error_iff _ _ (selByte i.regFields.1 i.regFields.2),
      decodeFields_encode (by decide) (by decide)]
    exact nofun
  · exact not_unknownEncoding_of_tableMask_ne hmask _

end

end Sys2Proof

namespace Sys2Proof.Machine

open Sys2Proof.Claims

/-! ### The bytes of a word in memory (R53, R54, R61) -/

/-- Byte `k` of the number read is the byte at `a + k`. -/
theorem Memory.readLE_byte (m : Memory) : ∀ (n a k : Nat), k < n →
    m.readLE a n / 256 ^ k % 256 = (m.read (a + k)).toNat
  | 0, _, _, h => absurd h (Nat.not_lt_zero _)
  | n + 1, a, 0, _ => by
    have hb : (m.read a).toNat < 256 := (m.read a).isLt
    rw [Memory.readLE, pow_zero, Nat.div_one, Nat.add_zero a]
    omega
  | n + 1, a, k + 1, h => by
    have hb : (m.read a).toNat < 256 := (m.read a).isLt
    have hdiv : m.readLE a (n + 1) / 256 = m.readLE (a + 1) n := by
      rw [Memory.readLE]
      omega
    rw [pow_succ', ← Nat.div_div_eq_div_mul, hdiv, Memory.readLE_byte m n (a + 1) k (Nat.lt_of_succ_lt_succ h)]
    congr 2
    omega

/-- A stored byte is read back as the low byte of the value. -/
theorem Memory.read_writeLE_one {m : Memory} (hm : m.wf = true) (a v x : Nat) :
    ((m.writeLE a 1 v).read x).toNat = if x = a then v % 256 else (m.read x).toNat := by
  rw [Memory.writeLE, Memory.writeLE, Memory.read_write m a _ x hm]
  by_cases hx : a = x
  · rw [if_pos hx, if_pos hx.symm, BitVec.toNat_ofNat]
    exact Nat.mod_mod _ _
  · rw [if_neg hx, if_neg (Ne.symm hx)]

/-- Byte `k` of a stored word is byte `k` of the word, as `decodeWord` takes it apart. -/
theorem Memory.read_writeLE_wordByte {m : Memory} (hm : m.wf = true) (a : Nat) (w : Word) {k : Nat} (hk : k < 4) :
    (m.writeLE a 4 w.toNat).read (a + k) = wordByte w k := by
  rw [Memory.read_writeLE_inside 4 m a _ k hm hk, wordByte]
  exact BitVec.eq_of_toNat_eq (by rw [BitVec.toNat_ofNat, BitVec.toNat_ofNat]; exact Nat.mod_mod _ _)

/-- A step that fetches a word just stored decodes that word. -/
theorem decodedAt_writeLE {s : State} (hm : s.mem.wf = true) (w : Word) :
    decodedAt hw { s with mem := s.mem.writeLE s.pc.toNat 4 w.toNat } = decodeWord hw w := by
  have h0 := Memory.read_writeLE_wordByte hm s.pc.toNat w (k := 0) (by decide)
  rw [Nat.add_zero] at h0
  simp only [decodedAt, decodeWord, h0, Memory.read_writeLE_wordByte hm s.pc.toNat w (k := 1) (by decide),
    Memory.read_writeLE_wordByte hm s.pc.toNat w (k := 2) (by decide),
    Memory.read_writeLE_wordByte hm s.pc.toNat w (k := 3) (by decide)]

/-! ### The constant of two immediates (R173) -/

/-- The low half of `2^16 * hi` is clear, so the low immediate adds to it. -/
theorem toNat_or_immediate {v : Word} {hi : Nat} (hv : v.toNat = 2 ^ 16 * hi) (lo : Half) :
    (v ||| lo.zeroExtend 32).toNat = 2 ^ 16 * hi + lo.toNat := by
  rw [BitVec.toNat_or, hv, BitVec.toNat_setWidth_of_le (by decide), Nat.two_pow_add_eq_or_of_lt lo.isLt]

end Sys2Proof.Machine

namespace Sys2Proof.Proofs

open Sys2Proof.Machine Sys2Proof.Claims

/-- Settles O4: the row fixes the opcode byte and the sub-op, the instruction the fields the row leaves open. -/
theorem decoderFollowsTheOpcodeTable : Obligations.DecoderFollowsTheOpcodeTable := by
  simp only [Obligations.DecoderFollowsTheOpcodeTable, ne_eq, and_tableMask_eq_tableMatch_iff]
  refine ⟨fun w i => ?decodes, fun w i k hi hk => ?oneRow, fun w => ⟨fun h => ?noRow, fun h i hi => ?unknown⟩⟩
  case decodes =>
    rw [decodeWord_eq_ok_iff, Selects, and_assoc]
    exact and_congr_right fun _ => ⟨fun h => ⟨fun _ => h.1, h⟩, And.right⟩
  case oneRow =>
    have hmask := tableMask_congr (hi.opClass_eq hk)
    refine ⟨hmask, ?_⟩
    rw [← and_tableMask_eq_tableMatch_iff.2 hi, ← and_tableMask_eq_tableMatch_iff.2 hk, hmask]
  case noRow =>
    rcases hd : decodeWord hw w with e | i
    · exact ⟨e, rfl⟩
    · obtain ⟨hopc, hop16, -⟩ := decodeWord_eq_ok_iff.1 hd
      exact absurd ⟨hopc, fun _ => hop16⟩ (h i)
  case unknown => exact hi.not_unknownEncoding (decodeWord_error_iff.1 h)

/-- Settles O33: both sentences of R54, byte by byte. -/
theorem mixedWidthAccessesSeeOneByteArray : Obligations.MixedWidthAccessesSeeOneByteArray := by
  refine ⟨fun m a v k hm hk => ?_, fun m a v k j hm hk hj => ?_⟩
  · rw [Memory.readLE, Memory.readLE, Memory.read_writeLE_inside 4 m a v k hm hk, BitVec.toNat_ofNat]
    exact Nat.mod_mod _ _
  · rw [Memory.readLE_byte _ 4 a j hj, Memory.readLE_byte _ 4 a j hj, Memory.read_writeLE_one hm]
    simp only [Nat.add_left_cancel_iff]

/-- Settles O34: the store changes memory alone, at the address the next step fetches from. -/
theorem aStoredWordIsTheNextInstruction : Obligations.AStoredWordIsTheNextInstruction := by
  intro rT rF s t i ⟨hr, ha, hb⟩ hm hpc h hd
  obtain rfl : s.storeFrom hw rT rF 4 = t := Host.Outcome.next.inj h
  obtain ⟨-, hstore⟩ | ⟨hout, -⟩ := storeFrom_cases hw s rT rF 4
  · rw [hstore, hpc]
    exact stepWith_decoded hr ha hb ((decodedAt_writeLE hm _).trans hd)
  · rw [hpc] at hout
    exact absurd hb (Nat.not_le.2 hout)

/-- Settles O36: `ldu` leaves the low half of the register clear, and `ori` fills it. -/
theorem lduThenOriBuildsAConstant : Obligations.LduThenOriBuildsAConstant := by
  intro rT a b hi lo s t u ht hu
  obtain ⟨t', ht', hvalue, htOthers, htFlags, -⟩ := ldu_completes rT a hi s
  obtain rfl : t = t' := Host.Outcome.next.inj (ht.symm.trans ht')
  obtain rfl : t.setReg rT (t.reg rT ||| lo.zeroExtend 32) = u := Host.Outcome.next.inj hu
  refine ⟨?_, htFlags, fun r hr => (reg_setReg_other t _ hr).trans (htOthers r hr)⟩
  rw [reg_setReg_same, toNat_or_immediate hvalue]

end Sys2Proof.Proofs

namespace Sys2Proof.Machine

open Sys2Proof.Claims

/-! ### Launch (R330, R331) -/

/-- The state a launch leaves, where its image fits memory. -/
def Launch.state (l : Launch) (s : State) : State :=
  { x := l.regs, flags := l.flags, pc := 0, mem := l.fill.load 0 l.image, run := .running, asm := s.asm }

theorem launch_of_le {l : Launch} (h : l.image.length ≤ 0x100000) (s : State) : launch l s = .next (l.state s) :=
  if_pos h

theorem launch_of_lt {l : Launch} (h : 0x100000 < l.image.length) (s : State) :
    launch l s = .refused .imageLongerThanMemory :=
  if_neg (Nat.not_le.2 h)

theorem read_launch_image {l : Launch} {s : State} (hm : l.fill.wf = true) {i : Nat} (h : i < l.image.length) :
    (l.state s).mem.read i = l.image[i] := by
  simp [Launch.state, Memory.read_load _ _ _ _ hm, h]

theorem read_launch_fill {l : Launch} {s : State} (hm : l.fill.wf = true) {i : Nat} (h : l.image.length ≤ i) :
    (l.state s).mem.read i = l.fill.read i := by
  simp [Launch.state, Memory.read_load _ _ _ _ hm, h]

theorem inv_of_memoryOk_of_running {s : State} (hm : s.memoryOk = true) (hr : s.run = .running) : s.inv = true := by
  rw [State.inv, hm, haltRecordOk_of_running hr, Bool.and_self]

/-! ### Runs (R333, R342) -/

section
variable {s t : State} {n : Nat}

theorem isHalted_iff {r : RunState} : r.isHalted = true ↔ r ≠ .running := by
  cases r <;> simp [RunState.isHalted]

theorem run_succ_of_step {M : Host.Core} {s t : M.State} {n : Nat} (h : M.step s = .next t) : M.run (n + 1) s = M.run n t := by
  rw [Host.Core.run, h]

theorem core_run_succ (h : step s = .next t) : core.run (n + 1) s = core.run n t :=
  run_succ_of_step (M := core) h

/-- Halted is the end: no later step leaves it (R33). -/
theorem core_run_halted (h : s.run.isHalted = true) : core.run n s = .next s := by
  induction n with
  | zero => rfl
  | succ n ih =>
    rcases hr : s.run with _ | r
    · exact absurd hr (isHalted_iff.1 h)
    · rw [core_run_succ (stepWith_halted hr), ih]

theorem runFor_succ_halted (h : step s = .next t) (ht : t.run.isHalted = true) : runFor (n + 1) s = .halted t := by
  rw [runFor, h]
  exact if_pos ht

theorem runFor_succ_running (h : step s = .next t) (ht : t.run = .running) : runFor (n + 1) s = runFor n t := by
  rw [runFor, h]
  exact if_neg fun hhalted => isHalted_iff.1 hhalted ht

end

/-- `t` is the state after the first step of a run from `s` that halts, and that is one of its first `n` steps. -/
def FirstHalt (n : Nat) (s t : State) : Prop :=
  ∃ k u, k < n ∧ core.run k s = .next u ∧ u.run = .running ∧ step u = .next t ∧ t.run.isHalted = true

section
variable {s s' t : State} {n : Nat}

theorem firstHalt_succ_of_halted (hs : s.run = .running) (h : step s = .next s') (hs' : s'.run.isHalted = true) :
    FirstHalt (n + 1) s t ↔ s' = t := by
  constructor
  · rintro ⟨_ | k, u, -, hrun, hu, hstep, -⟩
    · obtain rfl : s = u := Host.Outcome.next.inj hrun
      exact Host.Outcome.next.inj (h.symm.trans hstep)
    · rw [core_run_succ h, core_run_halted hs'] at hrun
      obtain rfl : s' = u := Host.Outcome.next.inj hrun
      exact absurd hu (isHalted_iff.1 hs')
  · rintro rfl
    exact ⟨0, s, Nat.succ_pos n, rfl, hs, h, hs'⟩

theorem firstHalt_succ_of_running (h : step s = .next s') (hs' : s'.run = .running) :
    FirstHalt (n + 1) s t ↔ FirstHalt n s' t := by
  constructor
  · rintro ⟨_ | k, u, hk, hrun, hu, hstep, ht⟩
    · obtain rfl : s = u := Host.Outcome.next.inj hrun
      obtain rfl : s' = t := Host.Outcome.next.inj (h.symm.trans hstep)
      exact absurd hs' (isHalted_iff.1 ht)
    · exact ⟨k, u, Nat.lt_of_succ_lt_succ hk, (core_run_succ h).symm.trans hrun, hu, hstep, ht⟩
  · rintro ⟨k, u, hk, hrun, hu, hstep, ht⟩
    exact ⟨k + 1, u, Nat.succ_lt_succ hk, (core_run_succ h).trans hrun, hu, hstep, ht⟩

theorem runFor_eq_halted_iff (hs : s.run = .running) : runFor n s = .halted t ↔ FirstHalt n s t := by
  induction n generalizing s with
  | zero => exact iff_of_false nofun fun ⟨_, _, hk, _⟩ => Nat.not_lt_zero _ hk
  | succ n ih =>
    obtain ⟨s', hstep⟩ := step_isNext s
    by_cases hs' : s'.run = .running
    · rw [runFor_succ_running hstep hs', firstHalt_succ_of_running hstep hs', ih hs']
    · have hhalted := isHalted_iff.2 hs'
      rw [runFor_succ_halted hstep hhalted, firstHalt_succ_of_halted hs hstep hhalted, RunEnd.halted.injEq]

theorem runFor_eq_outOfFuel_iff (hs : s.run = .running) :
    runFor n s = .outOfFuel t ↔ core.run n s = .next t ∧ t.run = .running := by
  induction n generalizing s with
  | zero =>
    constructor
    · intro h
      obtain rfl : s = t := RunEnd.outOfFuel.inj h
      exact ⟨rfl, hs⟩
    · rintro ⟨h, -⟩
      exact congrArg RunEnd.outOfFuel (Host.Outcome.next.inj h)
  | succ n ih =>
    obtain ⟨s', hstep⟩ := step_isNext s
    rw [core_run_succ hstep]
    by_cases hs' : s'.run = .running
    · rw [runFor_succ_running hstep hs', ih hs']
    · have hhalted := isHalted_iff.2 hs'
      rw [runFor_succ_halted hstep hhalted, core_run_halted hhalted]
      refine iff_of_false nofun fun ⟨h, ht⟩ => hs' ?_
      rwa [Host.Outcome.next.inj h]

end

/-! ### The trace port (R320) -/

theorem getElem_trace_raw (s : State) (k : Nat) (h : k < s.trace.raw.length) :
    s.trace.raw[k] = if s.pc.toNat + k < 0x100000 then some (s.mem.read (s.pc.toNat + k)) else none := by
  have hraw : s.trace.raw = (List.range 4).map fun k => shownByte hw s.mem (s.pc.toNat + k) := rfl
  simp only [hraw, List.getElem_map, List.getElem_range]
  rfl

/-! ### The counter of both passes (R242, R243, R245) -/

section
variable {c : Config} {source : List Char} {n : Nat}

/-- A pass that is still going on after its first `n` lines has done them without an error. -/
theorem linesDone_of_steps_phase {a : AsmState} {N : Nat} (hp : a.phase = .pass1 ∨ a.phase = .pass2) (hline : a.line = 1)
    (hn : n ≤ a.lines.length) (hN : n ≤ N) (hok : (AsmState.steps c N a).phase = .pass2) :
    ∀ k ≤ n, LinesDone a k (AsmState.steps c k a) := by
  obtain hdone | ⟨m, hm, -, kind, hfail⟩ := pass_ends c hp hline n hn
  · exact hdone
  · obtain ⟨d, rfl⟩ := Nat.exists_eq_add_of_le (hm.trans_le hN)
    rw [steps_add, steps_terminal c (by simp [hfail]) (by simp [hfail]), hfail] at hok
    cases hok

/-- Pass 2 comes only after the whole of pass 1. -/
theorem pass1Done_of_pass2 (h : (pass2At c source n).phase = .pass2) : Pass1Done c source (splitLines source).length :=
  linesDone_of_steps_phase (a := AsmState.start source) (.inl rfl) rfl le_rfl (by omega) h

theorem pass2Done_of_pass2 (hn : n ≤ (splitLines source).length) (h : (pass2At c source n).phase = .pass2) :
    Pass2Done c source n := by
  have h1 := pass1Done_of_pass2 h
  intro k hk
  rw [pass2At_eq_steps] at h
  rw [pass2At_eq_steps c source k]
  exact linesDone_of_steps_phase (.inr (pass2At_zero_phase h1)) (by rw [pass2At_zero h1, beginPass2_line])
    (by rwa [pass2At_zero_lines h1]) le_rfl h k hk

/-- Pass 2 moves the counter over a line as pass 1 does, where pass 1 follows `org` too. -/
theorem lc_pass2Line_of_pass1Counter {a : AsmState} {text : List Char} {tok : Tokens} {lc : Nat}
    (hc : c.orgPass1Literal = false) (htok : tokenize text = .ok tok) (hcounter : pass1Counter c a.lc tok = .ok lc)
    (hphase : (a.pass2Line c text).phase = .pass2) : (a.pass2Line c text).lc = lc := by
  obtain ⟨e, h⟩ | ⟨tok', htok', hcases⟩ := pass2Line_cases c a text
  · rw [h, fail_phase] at hphase
    cases hphase
  obtain rfl : tok = tok' := Except.ok.inj (htok.symm.trans htok')
  obtain ⟨hm, h⟩ | ⟨lc', hm, horg, h⟩ | ⟨name, f, i, hm, horg, -, -, h⟩ := hcases
  · rw [pass1Counter_noMnemonic hm] at hcounter
    rw [h]
    exact Except.ok.inj hcounter
  · rw [pass1Counter_org hm hc, horg] at hcounter
    rw [h]
    exact Except.ok.inj hcounter
  · obtain ⟨hm', -⟩ | ⟨hm', -⟩ | ⟨_, -, -, -, rfl⟩ := pass1Counter_eq_ok hcounter
    · cases hm.symm.trans hm'
    · exact absurd (Option.some.inj (hm.symm.trans hm')) horg
    · rw [h]

theorem lc_pass2At_eq_lc_pass1At (hc : c.orgPass1Literal = false) (h1 : Pass1Done c source (splitLines source).length)
    (hn : n ≤ (splitLines source).length) (h2 : Pass2Done c source n) :
    (pass2At c source n).lc = (pass1At c source n).lc := by
  induction n with
  | zero => rw [pass2At_zero h1, beginPass2_lc]; rfl
  | succ n ih =>
    have ht : (splitLines source)[n]? = some (splitLines source)[n] := List.getElem?_eq_getElem hn
    have h2n := h2.mono (Nat.le_succ n)
    have hphase : (pass2At c source (n + 1)).phase = .pass2 := (h2 _ le_rfl).phase.trans (pass2At_zero_phase h1)
    obtain ⟨tok, lc, htok, -, hcounter, hnext⟩ := (h1.mono hn).line_done ht
    rw [← ih (Nat.le_of_succ_le hn) h2n] at hcounter
    rw [h2n.line h1 ht] at hphase ⊢
    rw [hnext, lc_pass2Line_of_pass1Counter hc htok hcounter hphase]

end

end Sys2Proof.Machine

namespace Sys2Proof.Proofs

open Sys2Proof.Machine Sys2Proof.Claims

/-- Settles O41: the image is laid over the fill, and `Memory.ofBytes` writes any fill as a memory. -/
theorem launchIsTheResetOfTheSpec : Obligations.LaunchIsTheResetOfTheSpec := by
  refine ⟨fun l s hm hlen => ?launched, fun _ s h => launch_of_lt h s, fun f => ?fill⟩
  case launched =>
    exact ⟨l.state s, launch_of_le hlen s, rfl, rfl, rfl, rfl, fun _ => read_launch_image hm, fun _ => read_launch_fill hm⟩
  case fill =>
    exact ⟨Memory.ofBytes f 0x100000, Memory.wf_ofBytes f _, Memory.below_ofBytes f _ _ le_rfl,
      Memory.read_ofBytes f 0x100000⟩

/-- Settles O42: laying the image in keeps memory canonical and inside its bound, and the engine is Running. -/
theorem launchMeetsTheInvariants : Obligations.LaunchMeetsTheInvariants := by
  intro l s t hwf hbelow h
  rcases Nat.lt_or_ge 0x100000 l.image.length with hlen | hlen
  · rw [launch_of_lt hlen] at h
    cases h
  · obtain rfl : l.state s = t := Host.Outcome.next.inj ((launch_of_le hlen s).symm.trans h)
    have hload : (l.fill.load 0 l.image).below 0x100000 = true :=
      Memory.below_load l.image _ _ _ hbelow (by rwa [Nat.zero_add])
    exact inv_of_memoryOk_of_running (memoryOk_iff.2 ⟨Memory.wf_load l.image _ _ hwf, hload⟩) rfl

/-- Settles O15: the memory is empty and the engine Running. -/
theorem resetMeetsTheInvariants : Obligations.ResetMeetsTheInvariants :=
  inv_of_memoryOk_of_running (memoryOk_iff.2 ⟨rfl, rfl⟩) rfl

/-- Settles O43: a run halts at the first step that does, and else takes all its steps in Running. -/
theorem aRunEndsAtTheFirstHalt : Obligations.ARunEndsAtTheFirstHalt :=
  fun _ _ hs => ⟨fun _ => runFor_eq_halted_iff hs, fun _ => runFor_eq_outOfFuel_iff hs⟩

/-- Settles O44: the port shows the fields of the state and the four bytes at pc, as far as they are in memory. -/
theorem hostSeesTheStateAndTheExitCode : Obligations.HostSeesTheStateAndTheExitCode :=
  ⟨fun s => ⟨rfl, rfl, rfl, rfl, rfl, getElem_trace_raw s⟩, rfl, rfl, fun _ => rfl, fun _ _ _ _ => rfl, fun _ _ _ => rfl⟩

/-- Settles O47: line by line, both passes move the counter in the same way. -/
theorem theCounterAgreesInBothPasses : Obligations.TheCounterAgreesInBothPasses :=
  fun _ _ _ hc hn hphase => lc_pass2At_eq_lc_pass1At hc (pass1Done_of_pass2 hphase) hn (pass2Done_of_pass2 hn hphase)

end Sys2Proof.Proofs
